-- ==== Sys2Proof/Word.lean ====
section
/-!
DEFINITION. The two bit-vector types of the engine: a byte of the buffer memory and a 32-bit register word
(00_scope.md R7, R9, R11).
-/
namespace Sys2Proof

/-- A byte of the buffer memory (R54). -/
abbrev Byte := BitVec 8

/-- A 32-bit register, host data bus or host address value (R7, R9). -/
abbrev Word := BitVec 32

end Sys2Proof
end

