-- ==== Sys2Proof/Config.lean ====
section
/-!
DEFINITION. What an implementation of the engine fixes: the two size parameters of 00_scope.md R6. The two other
parameters of R6, the power-on contents `initBuf` and `initDesc`, are arguments of `Machine.powerOn`
(Machine/Reset.lean). The engine has no other configuration and no implementation-defined choice
(93_implementation_defined.md: every item is a parameter of R6, a draw, or exact).
-/
namespace Sys2Proof

/-- The parameters BUF_SIZE and DESC_CAP (R6). They are the two constant registers of R53, so they are held as the
register words; the constraints of R6 are `Params.wellFormed` (WellFormed.lean). -/
structure Params where
  bufSize : Word
  descCap : Word
  deriving DecidableEq, Repr

/-- The suggested values of R6: BUF_SIZE = 65536 and DESC_CAP = 256.
DESIGN CHOICE (notes/assumptions/1.md), unsafe: `State.reset` is the machine with these sizes. -/
def Params.suggested : Params := { bufSize := 0x00010000#32, descCap := 0x00000100#32 }

end Sys2Proof
end

