-- ==== Sys2Proof/Syntax.lean ====
section
/-!
DEFINITION. The whole syntax of the engine: its twelve commands (30_encoding.md R132), its registers (10_state.md R30),
the host-port accesses (20_memory.md R80), what the two agents and the platform can do next (00_scope.md R16), and the
host program notation of 30_encoding.md R150 and R151.
-/
namespace Sys2Proof

/-- The commands, one constructor per row of the opcode map (R132). A command carries no immediate and no register
field: it reads its operands from the argument registers (R134). -/
inductive Instr
  | nop
  | crcInit
  | crcUpdate
  | crcFinal
  | crcBlock
  | crcChunk
  | typeFromText
  | chunkEmit
  | chunkParse
  | sigEmit
  | streamParse
  | findType
  deriving DecidableEq, Repr

/-- The registers that store a plain 32-bit word (R30), in offset order. -/
inductive StoreReg
  | cmd
  | src
  | len
  | dst
  | type
  | crcAcc
  | crcResult
  | chunkLen
  | chunkType
  | chunkCrc
  | calcCrc
  | nextOff
  | chunkCount
  | failIndex
  | failOff
  | findIndex
  deriving DecidableEq, Repr

/-- The 22 registers of the register map (R30): the sixteen that store a plain word, the two that store fields
(STATUS R33, CFG R35), the three constants (ID R31, BUF_SIZE and DESC_CAP R53) and TYPE_FLAGS, which is no storage
(R40). -/
inductive Reg
  | id
  | status
  | cfg
  | typeFlags
  | bufSize
  | descCap
  | store (r : StoreReg)
  deriving DecidableEq, Repr

/-- The access widths of the host port (R80). DEDUCED: no other width can be presented (notes/assumptions/11.md),
safe. -/
inductive Width
  | w1
  | w2
  | w4
  deriving DecidableEq, Repr

/-- The number of bytes of an access width (R80). -/
def Width.bytes : Width → Nat
  | .w1 => 1
  | .w2 => 2
  | .w4 => 4

/-- One host-port access: an address, a width and, for a write, a data value (R80). It is also the bus encoding
`W addr width data` or `R addr width` of R150. -/
inductive Access
  | read (addr : Word) (width : Width)
  | write (addr : Word) (width : Width) (data : Word)
  deriving DecidableEq, Repr

/-- One thing the host does: a single access (R90), or the polling loop of `wait`, which repeats a read of STATUS
until its bit 0 is 0 (R151). DEDUCED: the loop is one operation (notes/assumptions/14.md), safe. -/
inductive HostOp
  | access (a : Access)
  | wait
  deriving DecidableEq, Repr

/-- Who moves next (R16, R100): the host, the engine, or the platform's reset input (R370). A host turn carries the
byte lanes that a read of the buffer or descriptor window returns if a command is pending: the draw that R382 makes a
free input (DEDUCED, notes/assumptions/7.md, safe). -/
inductive Turn
  | host (lanes : Word)
  | engine
  | reset
  deriving DecidableEq, Repr

/-- The four words of a descriptor (R52). -/
inductive DescWord
  | off
  | len
  | type
  | crc
  deriving DecidableEq, Repr

/-- The address expressions of R150: a register name, `buf+N`, `desc[i].D_x`, or a number. -/
inductive Loc
  | reg (r : Reg)
  | buf (n : Nat)
  | desc (i : Nat) (j : DescWord)
  | num (a : Word)
  deriving DecidableEq, Repr

/-- The statements of host programs (R150) and the pseudo-instructions (R151). -/
inductive Stmt
  | sw (a : Loc) (v : Word)
  | sh (a : Loc) (v : Word)
  | sb (a : Loc) (v : Word)
  | lw (a : Loc)
  | lh (a : Loc)
  | lb (a : Loc)
  | cmd (i : Instr)
  | wait
  | run (i : Instr)
  | putText (n : Nat) (text : List Char)
  | putBytes (n : Nat) (bytes : List Byte)
  | clr
  deriving DecidableEq, Repr

end Sys2Proof
end

