-- ==== Sys2Proof/WellFormed.lean ====
section
/-!
DEFINITION. The checks on syntax: the constraints on the parameters (00_scope.md R6), the well-formed host accesses
(20_memory.md R87), and the host program statements (30_encoding.md R150, R151). A command has no operand field (R134),
so every `Instr` is well-formed.

`Access.wellFormed` is the table of R87 read by itself. The machine does not call it: it sorts an access by region
(Machine/HostPort.lean `target`), and that the two agree is a statement of its own.
-/
namespace Sys2Proof

/-- The constraints of R6: 16 <= BUF_SIZE <= 2^31 and 1 <= DESC_CAP <= 65536. -/
def Params.wellFormed (p : Params) : Bool :=
  decide (16 ≤ p.bufSize.toNat ∧ p.bufSize.toNat ≤ 2 ^ 31) &&
  decide (1 ≤ p.descCap.toNat ∧ p.descCap.toNat ≤ 65536)

/-- A command carries no operand to check (R134). -/
def Instr.wellFormed : Instr → Bool
  | _ => true

/-- The register row of R87: offsets 0x000 to 0x054, width 4, address a multiple of 4. -/
def regAccessOk (addr : Word) (w : Width) : Bool :=
  decide (addr.toNat ≤ 0x54) && decide (w = .w4) && decide (addr.toNat % 4 = 0)

/-- The descriptor row of R87: inside the descriptor window of R81, width 4, address a multiple of 4. -/
def descAccessOk (p : Params) (addr : Word) (w : Width) : Bool :=
  decide (0x00100000 ≤ addr.toNat ∧ addr.toNat + 4 ≤ 0x00100000 + 16 * p.descCap.toNat) &&
  decide (w = .w4) && decide (addr.toNat % 4 = 0)

/-- The buffer row of R87: width 1, 2 or 4, address a multiple of the width, all bytes inside the window of R81. -/
def bufAccessOk (p : Params) (addr : Word) (w : Width) : Bool :=
  decide (0x80000000 ≤ addr.toNat ∧ addr.toNat + w.bytes ≤ 0x80000000 + p.bufSize.toNat) &&
  decide (addr.toNat % w.bytes = 0)

/-- A host access is well-formed when it is in the table of R87; any other access is malformed. -/
def Access.wellFormed (p : Params) : Access → Bool
  | .read a w => regAccessOk a w || descAccessOk p a w || bufAccessOk p a w
  | .write a w _ => regAccessOk a w || descAccessOk p a w || bufAccessOk p a w

/-- An address expression of R150 names an address of the 32-bit host port (R80). -/
def Loc.wellFormed : Loc → Bool
  | .reg _ => true
  | .buf n => decide (n < 0x80000000)
  | .desc i _ => decide (i < 65536)
  | .num _ => true

/-- A statement of R150 or R151: its address is one of the port's, and the text of a `put` is ASCII. -/
def Stmt.wellFormed : Stmt → Bool
  | .sw a _ => a.wellFormed
  | .sh a _ => a.wellFormed
  | .sb a _ => a.wellFormed
  | .lw a => a.wellFormed
  | .lh a => a.wellFormed
  | .lb a => a.wellFormed
  | .cmd i => i.wellFormed
  | .wait => true
  | .run i => i.wellFormed
  | .putText n text => decide (n + text.length ≤ 0x80000000) && text.all (fun c => decide (c.toNat < 128))
  | .putBytes n bytes => decide (n + bytes.length ≤ 0x80000000)
  | .clr => true

end Sys2Proof
end

