-- ==== Sys2Proof/Decode.lean ====
section
/-!
DEFINITION. Decoding and encoding of the 32-bit command word (30_encoding.md R130 to R133).
-/
namespace Sys2Proof

/-- Why a word is no command (R131). `mbzNotZero`: a bit of [31:8] is set. `reservedOpcode`: [31:8] is zero and [7:0]
is an opcode that R133 reserves. -/
inductive DecodeReject
  | mbzNotZero (field : BitVec 24)
  | reservedOpcode (op : Byte)
  deriving DecidableEq, Repr

/-- The OP field, bits [7:0] (R130). -/
def opField (w : Word) : Byte := w.extractLsb' 0 8

/-- The MBZ field, bits [31:8] (R130). -/
def mbzField (w : Word) : BitVec 24 := w.extractLsb' 8 24

/-- The opcode map (R132): the assigned values of OP. -/
def opcodeMap : List (Byte × Instr) :=
  [ (0x00#8, .nop),
    (0x01#8, .crcInit),
    (0x02#8, .crcUpdate),
    (0x03#8, .crcFinal),
    (0x04#8, .crcBlock),
    (0x05#8, .crcChunk),
    (0x10#8, .typeFromText),
    (0x20#8, .chunkEmit),
    (0x21#8, .chunkParse),
    (0x30#8, .sigEmit),
    (0x31#8, .streamParse),
    (0x32#8, .findType) ]

/-- The command an OP value selects in a list of rows, if one does. -/
def lookupOp : List (Byte × Instr) → Byte → Option Instr
  | [], _ => none
  | (o, i) :: rows, op => if op = o then some i else lookupOp rows op

/-- The decoder: total on every word (R131). A word with a nonzero bit in [31:8] is illegal whatever its low byte
(R311), and so is a reserved opcode (R133). -/
def decode (w : Word) : Except DecodeReject Instr :=
  if mbzField w = 0#24 then
    match lookupOp opcodeMap (opField w) with
    | some i => .ok i
    | none => .error (.reservedOpcode (opField w))
  else .error (.mbzNotZero (mbzField w))

/-- The decoder's reading of an opcode-table row: the word of `nbits` bits, every bit above them 0. A command is
exactly one 32-bit word (R130), so a value that needs more bits is no command. -/
def decodeTableWord (nbits w : Nat) : Option Instr :=
  if w % 2 ^ nbits < 2 ^ 32 then
    match decode (BitVec.ofNat 32 (w % 2 ^ nbits)) with
    | .ok i => some i
    | .error _ => none
  else none

/-- The word of a command, from the "word" column of R132. -/
def encode : Instr → Word
  | .nop => 0x00000000#32
  | .crcInit => 0x00000001#32
  | .crcUpdate => 0x00000002#32
  | .crcFinal => 0x00000003#32
  | .crcBlock => 0x00000004#32
  | .crcChunk => 0x00000005#32
  | .typeFromText => 0x00000010#32
  | .chunkEmit => 0x00000020#32
  | .chunkParse => 0x00000021#32
  | .sigEmit => 0x00000030#32
  | .streamParse => 0x00000031#32
  | .findType => 0x00000032#32

end Sys2Proof
end

