-- ==== Sys2Proof/Machine/State.lean ====
section
/-!
DEFINITION. The state of the engine as plain data (10_state.md), the reasons a step could stop, and the state right
after reset (70_reset_and_hazards.md R372).

STATUS and CFG are held as the fields their tables name (R33, R35): the bits the tables do not list read 0 and ignore
writes, so they are no storage; Machine/Flags.lean gives the words the host reads (DESIGN CHOICE, notes/assumptions/8.md, safe).
The pending command is CMD while STATUS.BUSY = 1 (R55), and IRQ is a function of STATUS and CFG (R56): neither is a
field of its own. Nor are ID, TYPE_FLAGS (R31, R40).
-/
namespace Sys2Proof.Machine

/-- The sixteen registers that store a plain 32-bit word (R30), each under its own name. -/
structure Regs where
  cmd : Word
  src : Word
  len : Word
  dst : Word
  type : Word
  crcAcc : Word
  crcResult : Word
  chunkLen : Word
  chunkType : Word
  chunkCrc : Word
  calcCrc : Word
  nextOff : Word
  chunkCount : Word
  failIndex : Word
  failOff : Word
  findIndex : Word
  deriving DecidableEq, Repr

/-- The fields of STATUS (R33): bits [0], [1], [2], [3], [4] and [11:8]. -/
structure Status where
  busy : Bool
  done : Bool
  err : Bool
  haz : Bool
  busErr : Bool
  errCode : BitVec 4
  deriving DecidableEq, Repr

/-- The fields of CFG (R35): bits [0] and [1]. -/
structure Cfg where
  strictLen : Bool
  irqEn : Bool
  deriving DecidableEq, Repr

/-- One entry of the descriptor table: D_OFF, D_LEN, D_TYPE and D_CRC (R52). -/
structure Desc where
  off : Word
  len : Word
  type : Word
  crc : Word
  deriving DecidableEq, Repr

/-- The errors of R330, codes 1 to 11. `textDecode` and `indexRange` are reserved names that no command raises
(R331, notes/assumptions/15.md). -/
inductive ErrorKind
  | formatLength
  | formatChar
  | crcMismatch
  | truncated
  | sigMismatch
  | textDecode
  | indexRange
  | illegalCmd
  | range
  | descOverflow
  | lengthLimit
  deriving DecidableEq, Repr

/-- The buffer memory (R54): offset and byte pairs, offsets strictly rising, no entry equal to `unwrittenByte`. -/
abbrev Memory := List Host.Cell

/-- The descriptor table (R52): index and entry pairs, indexes strictly rising, no entry equal to
`unwrittenDesc`. -/
abbrev DescTable := List (Nat × Desc)

/-- What a buffer offset that the list does not name reads as.
DESIGN CHOICE (notes/assumptions/2.md), unsafe: the spec leaves the power-on contents open (R371); `powerOn` takes
them as the draw the spec makes them. -/
abbrev unwrittenByte : Byte := 0x00#8

/-- What a descriptor that the list does not name reads as.
DESIGN CHOICE (notes/assumptions/3.md), unsafe: as `unwrittenByte`. -/
abbrev unwrittenDesc : Desc := { off := 0#32, len := 0#32, type := 0#32, crc := 0#32 }

/-- The state. The first six fields are the engine's: the registers of R30 (`regs`, `status`, `cfg`, and BUF_SIZE and
DESC_CAP in `params`), the buffer memory (R54) and the descriptor table (R52).
The last three are the model's own (DESIGN CHOICE, notes/assumptions/4.md, 6.md, unsafe only for a claim that leans on
their reset values) and hold what the outside world does: what the host will do, in its program order (R90); whose turn
each of the coming steps is (R16, R100); and the value the last host read returned. -/
structure State where
  regs : Regs
  status : Status
  cfg : Cfg
  params : Params
  buf : Memory
  desc : DescTable
  hostProg : List HostOp
  turns : List Turn
  readData : Word
  deriving DecidableEq, Repr

/-- The reasons a step stops with a fault: none. The spec gives every host access an outcome (20_memory.md R87, R95),
every command word an outcome (30_encoding.md R131) and every error of a command is a value in STATUS (R346), so no
step of the engine faults, and this type has no constructor. DEDUCED (notes/assumptions/15.md), safe: nothing is cut
short. -/
inductive Fault
  deriving DecidableEq, Repr

/-- The reasons a step has no meaning. -/
inductive Refusal
  /-- Kept for an arm of `exec` that has no meaning yet, with its instruction's mnemonic. No arm raises it: every
  command has its meaning. Safe. -/
  | notModelled (mnemonic : String)
  deriving DecidableEq, Repr

/-- The word registers after reset (R372). -/
def Regs.atReset : Regs :=
  { cmd := 0x00000000#32
    src := 0x00000000#32
    len := 0x00000000#32
    dst := 0x00000000#32
    type := 0x00000000#32
    crcAcc := 0xFFFFFFFF#32
    crcResult := 0x00000000#32
    chunkLen := 0x00000000#32
    chunkType := 0x00000000#32
    chunkCrc := 0x00000000#32
    calcCrc := 0x00000000#32
    nextOff := 0x00000000#32
    chunkCount := 0x00000000#32
    failIndex := 0xFFFFFFFF#32
    failOff := 0xFFFFFFFF#32
    findIndex := 0xFFFFFFFF#32 }

/-- STATUS after reset: 0x00000000 (R33, R372). -/
def Status.atReset : Status :=
  { busy := false, done := false, err := false, haz := false, busErr := false, errCode := 0x0#4 }

/-- CFG after reset: 0x00000000 (R35, R372). -/
def Cfg.atReset : Cfg := { strictLen := false, irqEn := false }

/-- The machine right after power-on reset (R371, R372): every register at the value of R372, no command pending,
with the suggested sizes (notes/assumptions/1.md), memories with nothing listed (2.md, 3.md), a host that does
nothing and no turn fixed (4.md), and no read made yet (6.md). -/
def State.reset : State :=
  { regs := Regs.atReset
    status := Status.atReset
    cfg := Cfg.atReset
    params := Params.suggested
    buf := []
    desc := []
    hostProg := []
    turns := []
    readData := 0x00000000#32 }

end Sys2Proof.Machine
end

