-- ==== Sys2Proof/Machine/Flags.lean ====
section
/-!
DEFINITION. Every flag computation: the STATUS word and what sets and clears its fields (10_state.md R33, R34,
30_encoding.md R139, R141), the CFG word (R35), the error codes (60_exceptions.md R330), the completion interrupt
(R56, R345), and the chunk-type predicates (40_chunk_type.md R170 to R176).
-/
namespace Sys2Proof.Machine

/-- A one-bit field at position `i` of a 32-bit word (R9). -/
def bitAt (i : Nat) (b : Bool) : Word := if b then BitVec.ofNat 32 (2 ^ i) else 0#32

/-- The word a read of STATUS returns (R33); the bits the table does not list are 0. -/
def Status.toWord (t : Status) : Word :=
  bitAt 0 t.busy ||| bitAt 1 t.done ||| bitAt 2 t.err ||| bitAt 3 t.haz ||| bitAt 4 t.busErr |||
    (t.errCode.setWidth 32 <<< 8)

/-- A host write of `w` to STATUS (R34): write one to clear, and ERRCODE is cleared with ERR. -/
def Status.writeClear (t : Status) (w : Word) : Status :=
  { busy := t.busy
    done := t.done && !w.getLsbD 1
    err := t.err && !w.getLsbD 2
    haz := t.haz && !w.getLsbD 3
    busErr := t.busErr && !w.getLsbD 4
    errCode := if w.getLsbD 2 then 0x0#4 else t.errCode }

/-- The STATUS fields at the issue of a command (R139). -/
def Status.issued (t : Status) : Status :=
  { t with busy := true, done := false, err := false, errCode := 0x0#4 }

/-- The code of an error (R330). -/
def errorCode : ErrorKind → BitVec 4
  | .formatLength => 1#4
  | .formatChar => 2#4
  | .crcMismatch => 3#4
  | .truncated => 4#4
  | .sigMismatch => 5#4
  | .textDecode => 6#4
  | .indexRange => 7#4
  | .illegalCmd => 8#4
  | .range => 9#4
  | .descOverflow => 10#4
  | .lengthLimit => 11#4

/-- The STATUS fields at the completion of a command, with the error it raised if it raised one (R141). -/
def Status.completed (t : Status) : Option ErrorKind → Status
  | none => { t with busy := false, done := true, err := false, errCode := 0x0#4 }
  | some e => { t with busy := false, done := true, err := true, errCode := errorCode e }

/-- The word a read of CFG returns (R35); bits [31:2] are 0. -/
def Cfg.toWord (c : Cfg) : Word := bitAt 0 c.strictLen ||| bitAt 1 c.irqEn

/-- A host write of `w` to CFG keeps bits [1:0] (R35, R92). -/
def Cfg.ofWord (w : Word) : Cfg := { strictLen := w.getLsbD 0, irqEn := w.getLsbD 1 }

/-- The IRQ output: a level, STATUS.DONE and CFG.IRQ_EN (R56). -/
def State.irq (s : State) : Bool := s.status.done && s.cfg.irqEn

/-- Byte `k` of a chunk type, byte 0 in bits [31:24] (R13). -/
def typeByte (t : Word) (k : Nat) : Byte := t.extractLsb' (8 * (3 - k)) 8

/-- The ASCII letters (R170). PRESUMED by the spec: the codes are from general knowledge (notes/assumptions/10.md),
unsafe. -/
def alpha (b : Byte) : Bool :=
  decide (0x41 ≤ b.toNat ∧ b.toNat ≤ 0x5A) || decide (0x61 ≤ b.toNat ∧ b.toNat ≤ 0x7A)

/-- All four type bytes are letters: the ALPHA flag of R176. -/
def allAlpha (t : Word) : Bool :=
  alpha (typeByte t 0) && alpha (typeByte t 1) && alpha (typeByte t 2) && alpha (typeByte t 3)

/-- Byte 0 bit 5 clear (R171). -/
def critical (t : Word) : Bool := typeByte t 0 &&& 0x20#8 == 0x00#8

/-- Byte 1 bit 5 clear (R172). -/
def isPublic (t : Word) : Bool := typeByte t 1 &&& 0x20#8 == 0x00#8

/-- Byte 2 bit 5 clear (R173). -/
def reservedOk (t : Word) : Bool := typeByte t 2 &&& 0x20#8 == 0x00#8

/-- Byte 3 bit 5 set (R174). -/
def safeToCopy (t : Word) : Bool := typeByte t 3 &&& 0x20#8 == 0x20#8

/-- All letters, and the reserved bit clear (R175). -/
def validType (t : Word) : Bool := allAlpha t && reservedOk t

/-- The word a read of TYPE_FLAGS returns for the type `t` (R176). -/
def typeFlags (t : Word) : Word :=
  bitAt 0 (allAlpha t) ||| bitAt 1 (critical t) ||| bitAt 2 (isPublic t) ||| bitAt 3 (reservedOk t) |||
    bitAt 4 (safeToCopy t) ||| bitAt 5 (validType t)

end Sys2Proof.Machine
end

