-- ==== Sys2Proof/Machine/Ops.lean ====
section
/-!
DEFINITION. The named operations every meaning is made of: the word registers, the two memories, the byte sequences
of 00_scope.md R11 to R13, and the two ends of a command, `complete` and `raise` (R12, 30_encoding.md R141). Raising an
error is all there is of an exception here: the engine takes no trap, saves nothing, and has no return from one
(60_exceptions.md R346, R347).
-/
namespace Sys2Proof.Machine

/-! ### Word registers -/

/-- The value of a word register. -/
def Regs.get (rs : Regs) : StoreReg → Word
  | .cmd => rs.cmd
  | .src => rs.src
  | .len => rs.len
  | .dst => rs.dst
  | .type => rs.type
  | .crcAcc => rs.crcAcc
  | .crcResult => rs.crcResult
  | .chunkLen => rs.chunkLen
  | .chunkType => rs.chunkType
  | .chunkCrc => rs.chunkCrc
  | .calcCrc => rs.calcCrc
  | .nextOff => rs.nextOff
  | .chunkCount => rs.chunkCount
  | .failIndex => rs.failIndex
  | .failOff => rs.failOff
  | .findIndex => rs.findIndex

/-- The registers with one word register changed. -/
def Regs.set (rs : Regs) (r : StoreReg) (v : Word) : Regs :=
  match r with
  | .cmd => { rs with cmd := v }
  | .src => { rs with src := v }
  | .len => { rs with len := v }
  | .dst => { rs with dst := v }
  | .type => { rs with type := v }
  | .crcAcc => { rs with crcAcc := v }
  | .crcResult => { rs with crcResult := v }
  | .chunkLen => { rs with chunkLen := v }
  | .chunkType => { rs with chunkType := v }
  | .chunkCrc => { rs with chunkCrc := v }
  | .calcCrc => { rs with calcCrc := v }
  | .nextOff => { rs with nextOff := v }
  | .chunkCount => { rs with chunkCount := v }
  | .failIndex => { rs with failIndex := v }
  | .failOff => { rs with failOff := v }
  | .findIndex => { rs with findIndex := v }

/-- `reg[NAME]` (R12). -/
def State.reg (s : State) (r : StoreReg) : Word := s.regs.get r

/-- `reg[NAME] <- v` (R12). -/
def State.setReg (s : State) (r : StoreReg) (v : Word) : State := { s with regs := s.regs.set r v }

/-- The state with its STATUS fields changed. -/
def State.setStatus (s : State) (t : Status) : State := { s with status := t }

/-! ### Sparse tables: a list in canonical form, keys strictly rising, no value equal to the default -/

/-- The value at key `k`, `d` where the list names none. -/
def tableGet {α : Type} (d : α) : List (Nat × α) → Nat → α
  | [], _ => d
  | (j, v) :: rest, k => if k = j then v else tableGet d rest k

/-- The table with `v` put before every entry: listed unless it is the default. -/
def tableCons {α : Type} [DecidableEq α] (d : α) (k : Nat) (v : α) (rest : List (Nat × α)) : List (Nat × α) :=
  if v = d then rest else (k, v) :: rest

/-- The table with the value at key `k` changed to `v`, in canonical form again. -/
def tableSet {α : Type} [DecidableEq α] (d : α) : List (Nat × α) → Nat → α → List (Nat × α)
  | [], k, v => tableCons d k v []
  | (j, u) :: rest, k, v =>
    if k < j then tableCons d k v ((j, u) :: rest)
    else if k = j then tableCons d k v rest
    else (j, u) :: tableSet d rest k v

/-- The table of a function on the `n` keys from `k`. -/
def tableOfFn {α : Type} [DecidableEq α] (d : α) (f : Nat → α) : Nat → Nat → List (Nat × α)
  | _, 0 => []
  | k, n + 1 => tableCons d k (f k) (tableOfFn d f (k + 1) n)

/-- The canonical form from key `lo`: keys at least `lo`, below `hi` and strictly rising, and no value equal to the
default. -/
def tableWf {α : Type} [DecidableEq α] (d : α) (hi : Nat) : Nat → List (Nat × α) → Bool
  | _, [] => true
  | lo, (k, v) :: rest => decide (lo ≤ k) && decide (k < hi) && decide (v ≠ d) && tableWf d hi (k + 1) rest

/-! ### Buffer memory -/

/-- One byte of the buffer. -/
def byteAt (m : Memory) (a : Nat) : Byte := tableGet unwrittenByte m a

/-- One byte of the buffer changed. -/
def setByte (m : Memory) (a : Nat) (b : Byte) : Memory := tableSet unwrittenByte m a b

/-- `MemRead(off, n)` (R12). -/
def memRead (m : Memory) (off : Nat) : Nat → List Byte
  | 0 => []
  | n + 1 => byteAt m off :: memRead m (off + 1) n

/-- `MemWrite(off, len(bs), bs)` (R12). -/
def memWrite (m : Memory) (off : Nat) : List Byte → Memory
  | [] => m
  | b :: bs => memWrite (setByte m off b) (off + 1) bs

/-- The canonical form of a buffer memory of `size` bytes. -/
def Memory.wf (size : Nat) (m : Memory) : Bool := tableWf unwrittenByte size 0 m

/-! ### Descriptor table -/

/-- Descriptor `i` (R52). -/
def descAt (t : DescTable) (i : Nat) : Desc := tableGet unwrittenDesc t i

/-- `desc[i] <- e`: the four words at once (R52). -/
def setDesc (t : DescTable) (i : Nat) (e : Desc) : DescTable := tableSet unwrittenDesc t i e

/-- The canonical form of a descriptor table of `cap` entries. -/
def DescTable.wf (cap : Nat) (t : DescTable) : Bool := tableWf unwrittenDesc cap 0 t

/-- `desc[i] <- e` on the state (R12). -/
def State.writeDesc (s : State) (i : Nat) (e : Desc) : State := { s with desc := setDesc s.desc i e }

/-- `MemWrite(off, len(bs), bs)` on the state (R12). -/
def State.writeBuf (s : State) (off : Nat) (bs : List Byte) : State := { s with buf := memWrite s.buf off bs }

/-! ### Byte sequences -/

/-- The number a byte sequence spells big-endian: the sum of R85, and `be32` on four bytes (R11). -/
def beNat (bs : List Byte) : Nat := bs.foldl (fun n b => n * 256 + b.toNat) 0

/-- The big-endian value of a byte sequence as a word (R11). -/
def be32 (bs : List Byte) : Word := BitVec.ofNat 32 (beNat bs)

/-- The low `n` bytes of a word, most significant first (R85). -/
def laneBytes (v : Word) : Nat → List Byte
  | 0 => []
  | n + 1 => (v >>> (8 * n)).setWidth 8 :: laneBytes v n

/-- `bytes_be32(v)` (R11). -/
def bytesBe32 (v : Word) : List Byte := laneBytes v 4

/-- `TB(t)`: the four bytes of a chunk type (R13). -/
def typeBytes (t : Word) : List Byte := bytesBe32 t

/-! ### The ends of a command -/

/-- What a meaning answers. -/
abbrev Answer := Host.Outcome State Fault Refusal

/-- The state at the completion of a command (R141). -/
def State.finish (s : State) (e : Option ErrorKind) : State := s.setStatus (s.status.completed e)

/-- `complete`: the command ends without error (R12, R141). -/
def complete (s : State) : Answer := .next (s.finish none)

/-- `raise e`: the command ends with STATUS.ERR = 1 and the code of `e`; what `s` already holds stands (R12, R141,
R332). -/
def raise (e : ErrorKind) (s : State) : Answer := .next (s.finish (some e))

end Sys2Proof.Machine
end

