-- ==== Sys2Proof/Machine/Operands.lean ====
section
/-!
DEFINITION. Every operand form: a command reads its operands from the argument registers, each a 32-bit unsigned value
used as it is (30_encoding.md R134), and offsets and lengths are natural numbers whose sums do not wrap (00_scope.md
R10).
-/
namespace Sys2Proof.Machine

/-- A word register as an unbounded natural (R10). -/
def State.num (s : State) (r : StoreReg) : Nat := (s.reg r).toNat

/-- BUF_SIZE as a natural (R53). -/
def State.bufSize (s : State) : Nat := s.params.bufSize.toNat

/-- DESC_CAP as a natural (R53). -/
def State.descCap (s : State) : Nat := s.params.descCap.toNat

/-- `off + n <= BUF_SIZE`: the only address check there is (R106). -/
def State.fits (s : State) (off n : Nat) : Bool := decide (off + n ≤ s.bufSize)

/-- `SRC + LEN <= BUF_SIZE`: the window a command reads lies in the buffer. -/
def State.srcFits (s : State) : Bool := s.fits (s.num .src) (s.num .len)

/-- The bytes of the window `[SRC, SRC+LEN)`: `MemRead(SRC, LEN)`. -/
def State.window (s : State) : List Byte := memRead s.buf (s.num .src) (s.num .len)

/-- `CFG.STRICT_LEN = 1` and a length of 2^31 or more (R35). -/
def State.overLimit (s : State) (n : Nat) : Bool := s.cfg.strictLen && decide (2 ^ 31 ≤ n)

/-- A natural written to a 32-bit register; the rules write only values below 2^32 (R10; DEDUCED,
notes/assumptions/9.md, safe). -/
def toWord (n : Nat) : Word := BitVec.ofNat 32 n

/-- The value 0xFFFFFFFF that FAIL_INDEX, FAIL_OFF and FIND_INDEX hold for "none" (R49 to R51). -/
def noneWord : Word := 0xFFFFFFFF#32

end Sys2Proof.Machine
end

