-- ==== Sys2Proof/Machine/ChunkType.lean ====
section
/-!
DEFINITION. TYPE_FROM_TEXT (40_chunk_type.md R180). The predicates of that file are in Machine/Flags.lean.
-/
namespace Sys2Proof.Machine

/-- TYPE_FROM_TEXT (R180): load TYPE from four bytes of text, checked: RANGE, then FORMAT_LENGTH, then FORMAT_CHAR. -/
def execTypeFromText (s : State) : Answer :=
  if s.srcFits then
    if s.num .len = 4 then
      if (memRead s.buf (s.num .src) 4).all alpha then
        complete (s.setReg .type (be32 (memRead s.buf (s.num .src) 4)))
      else raise .formatChar s
    else raise .formatLength s
  else raise .range s

end Sys2Proof.Machine
end

