-- ==== Sys2Proof/Machine/Crc.lean ====
section
/-!
DEFINITION. The CRC-32 function (41_crc.md R200 to R204) and the CRC commands (R210 to R214).
-/
namespace Sys2Proof.Machine

/-- The generator polynomial in reflected bit order (R200). PRESUMED by the spec, as are the initial state and the final
XOR: from general knowledge (notes/assumptions/10.md), unsafe. -/
def crcPoly : Word := 0xEDB88320#32

/-- One round of the loop of R201. -/
def crcBit (c : Word) : Word := if c.getLsbD 0 then (c >>> 1) ^^^ crcPoly else c >>> 1

/-- `n` rounds. -/
def crcBits (c : Word) : Nat → Word
  | 0 => c
  | n + 1 => crcBits (crcBit c) n

/-- `CrcByte(c, b)` (R201). -/
def crcByte (c : Word) (b : Byte) : Word := crcBits (c ^^^ b.setWidth 32) 8

/-- `CrcUpd(c, s)`: the left fold of CrcByte (R202). -/
def crcUpd (c : Word) (bs : List Byte) : Word := bs.foldl crcByte c

/-- The initial CRC state (R200). -/
def crcInitial : Word := 0xFFFFFFFF#32

/-- The final XOR (R200). -/
def crcFinalXor : Word := 0xFFFFFFFF#32

/-- `Crc32(s)` (R203). -/
def crc32 (bs : List Byte) : Word := crcUpd crcInitial bs ^^^ crcFinalXor

/-- `ChunkCrc(t, d)`: over the type bytes and the data, not the length field (R204). -/
def chunkCrc (t : Word) (d : List Byte) : Word := crc32 (typeBytes t ++ d)

/-- CRC_INIT (R210): start an incremental CRC. -/
def execCrcInit (s : State) : Answer := complete (s.setReg .crcAcc crcInitial)

/-- CRC_UPDATE (R211): feed the window into the running CRC. -/
def execCrcUpdate (s : State) : Answer :=
  if s.srcFits then complete (s.setReg .crcAcc (crcUpd (s.reg .crcAcc) s.window)) else raise .range s

/-- CRC_FINAL (R212): finish the incremental CRC; CRC_ACC keeps its value. -/
def execCrcFinal (s : State) : Answer := complete (s.setReg .crcResult (s.reg .crcAcc ^^^ crcFinalXor))

/-- CRC_BLOCK (R213): the CRC-32 of the window; CRC_ACC is neither read nor written. -/
def execCrcBlock (s : State) : Answer :=
  if s.srcFits then complete (s.setReg .crcResult (crc32 s.window)) else raise .range s

/-- CRC_CHUNK (R214): the CRC a chunk of type TYPE with the window as its data carries. -/
def execCrcChunk (s : State) : Answer :=
  if s.srcFits then complete (s.setReg .crcResult (chunkCrc (s.reg .type) s.window)) else raise .range s

end Sys2Proof.Machine
end

