-- ==== Sys2Proof/Machine/Chunk.lean ====
section
/-!
DEFINITION. The chunk generator and validator (42_chunk.md): the on-wire chunk (R230, R231), the validator function
(R232, R233), CHUNK_EMIT (R240) and CHUNK_PARSE (R250).
-/
namespace Sys2Proof.Machine

/-- `ChunkBytes(t, d)`: length, type, data, CRC (R231). -/
def chunkBytes (t : Word) (d : List Byte) : List Byte :=
  bytesBe32 (toWord d.length) ++ typeBytes t ++ d ++ bytesBe32 (chunkCrc t d)

/-- The `info` of R232: length, type, stored CRC and computed CRC. -/
structure ChunkInfo where
  len : Word
  type : Word
  stored : Word
  computed : Word
  deriving DecidableEq, Repr

/-- What ParseChunk returns: `Ok(info)`, `Err(E, info)` or `Err(E, none)` (R232). -/
inductive ParseResult
  | ok (info : ChunkInfo)
  | err (e : ErrorKind) (info : Option ChunkInfo)
  deriving DecidableEq, Repr

/-- The four values of the chunk at `base` whose length field is `len` (R232). -/
def chunkInfoAt (m : Memory) (base : Nat) (len : Word) : ChunkInfo :=
  let type := be32 (memRead m (base + 4) 4)
  { len := len
    type := type
    stored := be32 (memRead m (base + 8 + len.toNat) 4)
    computed := chunkCrc type (memRead m (base + 8) len.toNat) }

/-- `ParseChunk(base, w)` (R232), in its order: TRUNCATED (no length field), LENGTH_LIMIT, TRUNCATED (the whole chunk
does not fit), CRC_MISMATCH. -/
def parseChunk (s : State) (base w : Nat) : ParseResult :=
  if w < 4 then .err .truncated none
  else
    let len := be32 (memRead s.buf base 4)
    if s.overLimit len.toNat then .err .lengthLimit none
    else if w < 12 + len.toNat then .err .truncated none
    else
      let info := chunkInfoAt s.buf base len
      if info.stored = info.computed then .ok info else .err .crcMismatch (some info)

/-- `WriteChunkRegs(base, info)` (R233). -/
def writeChunkRegs (base : Nat) (i : ChunkInfo) (s : State) : State :=
  ((((s.setReg .chunkLen i.len).setReg .chunkType i.type).setReg .chunkCrc i.stored).setReg .calcCrc i.computed).setReg
    .nextOff (toWord (base + 12 + i.len.toNat))

/-- CHUNK_EMIT (R240). The data are read before any byte is written (R241). -/
def execChunkEmit (s : State) : Answer :=
  if s.overLimit (s.num .len) then raise .lengthLimit s
  else if s.srcFits then
    if s.fits (s.num .dst) (12 + s.num .len) then
      complete
        (((s.writeBuf (s.num .dst) (chunkBytes (s.reg .type) s.window)).setReg .crcResult
          (chunkCrc (s.reg .type) s.window)).setReg .nextOff (toWord (s.num .dst + 12 + s.num .len)))
    else raise .range s
  else raise .range s

/-- CHUNK_PARSE (R250). -/
def execChunkParse (s : State) : Answer :=
  if s.srcFits then
    match parseChunk s (s.num .src) (s.num .len) with
    | .ok i => complete (writeChunkRegs (s.num .src) i s)
    | .err e (some i) => raise e (writeChunkRegs (s.num .src) i s)
    | .err e none => raise e s
  else raise .range s

end Sys2Proof.Machine
end

