-- ==== Sys2Proof/Machine/Container.lean ====
section
/-!
DEFINITION. The stream generator, parser and lookup (43_container.md): SIG_EMIT (R270), STREAM_PARSE (R275) and
FIND_TYPE (R290).
-/
namespace Sys2Proof.Machine

/-- `SIG`: the canonical PNG magic bytes (R14). -/
def sigBytes : List Byte := [0x89#8, 0x50#8, 0x4E#8, 0x47#8, 0x0D#8, 0x0A#8, 0x1A#8, 0x0A#8]

/-- SIG_EMIT (R270). -/
def execSigEmit (s : State) : Answer :=
  if s.fits (s.num .dst) 8 then
    complete ((s.writeBuf (s.num .dst) sigBytes).setReg .nextOff (toWord (s.num .dst + 8)))
  else raise .range s

/-- `FAIL(E)` of R275, and the failure of the signature check (with index 0 and the offset SRC). -/
def streamFail (e : ErrorKind) (k off : Nat) (s : State) : Answer :=
  raise e (((s.setReg .chunkCount 0#32).setReg .failIndex (toWord k)).setReg .failOff (toWord off))

/-- The end of a walk that reached the end of the stream (R275). -/
def streamDone (k stop : Nat) (s : State) : Answer :=
  complete
    ((((s.setReg .chunkCount (toWord k)).setReg .failIndex noneWord).setReg .failOff noneWord).setReg .nextOff
      (toWord stop))

/-- Chunk `k` at `off` parsed without error: its five registers and its descriptor (R275, R233). -/
def recordChunk (k off : Nat) (i : ChunkInfo) (s : State) : State :=
  (writeChunkRegs off i s).writeDesc k { off := toWord off, len := i.len, type := i.type, crc := i.stored }

/-- The loop of R275 at chunk `k` and cursor `off`, with `room` = DESC_CAP - k entries left. -/
def streamWalk (stop : Nat) : Nat → Nat → Nat → State → Answer
  | 0, k, off, s => if off < stop then streamFail .descOverflow k off s else streamDone k stop s
  | room + 1, k, off, s =>
    if off < stop then
      match parseChunk s off (stop - off) with
      | .ok i => streamWalk stop room (k + 1) (off + 12 + i.len.toNat) (recordChunk k off i s)
      | .err e (some i) => streamFail e k off (writeChunkRegs off i s)
      | .err e none => streamFail e k off s
    else streamDone k stop s

/-- STREAM_PARSE (R275). -/
def execStreamParse (s : State) : Answer :=
  if s.srcFits then
    if s.num .len < 8 ∨ memRead s.buf (s.num .src) 8 ≠ sigBytes then streamFail .sigMismatch 0 (s.num .src) s
    else streamWalk (s.num .src + s.num .len) s.descCap 0 (s.num .src + 8) s
  else raise .range s

/-- The first of the `n` descriptors from index `i` whose D_TYPE is `t` (R290). -/
def findFrom (tbl : DescTable) (t : Word) : Nat → Nat → Option Nat
  | _, 0 => none
  | i, n + 1 => if (descAt tbl i).type = t then some i else findFrom tbl t (i + 1) n

/-- FIND_TYPE (R290): "not found" is FIND_INDEX = 0xFFFFFFFF, no error. -/
def execFindType (s : State) : Answer :=
  match findFrom s.desc (s.reg .type) 0 (s.num .chunkCount) with
  | some i => complete (s.setReg .findIndex (toWord i))
  | none => complete (s.setReg .findIndex noneWord)

end Sys2Proof.Machine
end

