-- ==== Sys2Proof/Machine/Control.lean ====
section
/-!
DEFINITION. The control commands (44_control.md): NOP, and what an illegal command word does.
-/
namespace Sys2Proof.Machine

/-- NOP (R310): complete without effect. -/
def execNop (s : State) : Answer := complete s

/-- An illegal command word (R311): raise ILLEGAL_CMD and change nothing else; CMD keeps the word. -/
def execIllegal (s : State) : Answer := raise .illegalCmd s

end Sys2Proof.Machine
end

