-- ==== Sys2Proof/Machine/Dispatch.lean ====
section
/-!
DEFINITION. One arm per command (30_encoding.md R132): the whole engine step of a command, its pseudocode and its
completion (R140, R141).
-/
namespace Sys2Proof.Machine

def exec (i : Instr) (s : State) : Host.Outcome State Fault Refusal :=
  match i with
  | .nop => Sys2Proof.Machine.execNop s
  | .crcInit => Sys2Proof.Machine.execCrcInit s
  | .crcUpdate => Sys2Proof.Machine.execCrcUpdate s
  | .crcFinal => Sys2Proof.Machine.execCrcFinal s
  | .crcBlock => Sys2Proof.Machine.execCrcBlock s
  | .crcChunk => Sys2Proof.Machine.execCrcChunk s
  | .typeFromText => Sys2Proof.Machine.execTypeFromText s
  | .chunkEmit => Sys2Proof.Machine.execChunkEmit s
  | .chunkParse => Sys2Proof.Machine.execChunkParse s
  | .sigEmit => Sys2Proof.Machine.execSigEmit s
  | .streamParse => Sys2Proof.Machine.execStreamParse s
  | .findType => Sys2Proof.Machine.execFindType s

end Sys2Proof.Machine
end

