-- ==== Sys2Proof/Machine/HostPort.lean ====
section
/-!
DEFINITION. The host port (20_memory.md): the register map (10_state.md R30), the regions (R81 to R83), what a host
access reaches (R87), host reads (R91, R93, R95, R96, R98), host writes (R92, R94, R95, R97), the issue of a command
(30_encoding.md R139) and the busy rules (70_reset_and_hazards.md R380, R382).
-/
namespace Sys2Proof.Machine

/-! ### The address map -/

/-- The identification constant (R31). -/
def idConstant : Word := 0x504E4743#32

/-- The register map (R30): offsets and registers. -/
def registerMap : List (Nat × Reg) :=
  [ (0x000, .id),
    (0x004, .store .cmd),
    (0x008, .status),
    (0x00C, .cfg),
    (0x010, .store .src),
    (0x014, .store .len),
    (0x018, .store .dst),
    (0x01C, .store .type),
    (0x020, .typeFlags),
    (0x024, .store .crcAcc),
    (0x028, .store .crcResult),
    (0x02C, .store .chunkLen),
    (0x030, .store .chunkType),
    (0x034, .store .chunkCrc),
    (0x038, .store .calcCrc),
    (0x03C, .store .nextOff),
    (0x040, .store .chunkCount),
    (0x044, .store .failIndex),
    (0x048, .store .failOff),
    (0x04C, .store .findIndex),
    (0x050, .bufSize),
    (0x054, .descCap) ]

/-- The register at an offset, in a list of rows. -/
def lookupReg : List (Nat × Reg) → Nat → Option Reg
  | [], _ => none
  | (o, r) :: rows, a => if a = o then some r else lookupReg rows a

/-- The offset of a register, in a list of rows (0 where no row names it). -/
def lookupOffset : List (Nat × Reg) → Reg → Nat
  | [], _ => 0
  | (o, r) :: rows, q => if q = r then o else lookupOffset rows q

/-- The register at host address `a`, if one is there (R30, R81). -/
def regAt (a : Nat) : Option Reg := lookupReg registerMap a

/-- The offset of a register (R30). -/
def regOffset (r : Reg) : Nat := lookupOffset registerMap r

/-- Where the descriptor window begins (R81). -/
def descBase : Nat := 0x00100000

/-- Where the buffer window begins (R81). -/
def bufBase : Nat := 0x80000000

/-- Word `j` of a descriptor (R82): 0 is D_OFF, 1 is D_LEN, 2 is D_TYPE, 3 is D_CRC. -/
def Desc.word (e : Desc) : Nat → Word
  | 0 => e.off
  | 1 => e.len
  | 2 => e.type
  | _ => e.crc

/-- What a host access reaches (R81, R87): a register, word `j` of descriptor `i`, the buffer from an offset, or
nothing (a malformed access). -/
inductive Target
  | reg (r : Reg)
  | desc (i j : Nat)
  | buf (off : Nat)
  | malformed
  deriving DecidableEq, Repr

/-- What an access of width `w` at address `addr` reaches: the region is found first (R81), then its row of R87 is
checked. DESIGN CHOICE: for sizes that R6 forbids the windows are kept apart here (notes/assumptions/13.md), safe. -/
def target (p : Params) (addr : Word) (w : Width) : Target :=
  let a := addr.toNat
  if a < 0x1000 then
    match regAt a, w with
    | some r, .w4 => .reg r
    | _, _ => .malformed
  else if descBase ≤ a ∧ a < descBase + 16 * p.descCap.toNat ∧ a < bufBase then
    if w = .w4 ∧ a % 4 = 0 then .desc ((a - descBase) / 16) ((a - descBase) / 4 % 4) else .malformed
  else if bufBase ≤ a ∧ a + w.bytes ≤ bufBase + p.bufSize.toNat then
    if a % w.bytes = 0 then .buf (a - bufBase) else .malformed
  else .malformed

/-! ### Host reads -/

/-- The value of a register that a host read returns (R91): at any time, BUSY or not. -/
def State.readReg (s : State) : Reg → Word
  | .id => idConstant
  | .status => s.status.toWord
  | .cfg => s.cfg.toWord
  | .typeFlags => typeFlags (s.reg .type)
  | .bufSize => s.params.bufSize
  | .descCap => s.params.descCap
  | .store r => s.reg r

/-- The value a host read returns. A read of the buffer or descriptor window while a command is pending returns the
draw `lanes`, any value in every byte lane of the bus (R382; DEDUCED, notes/assumptions/7.md, safe); a malformed read
returns 0 (R95). -/
def State.readValue (s : State) (addr : Word) (w : Width) (lanes : Word) : Word :=
  match target s.params addr w with
  | .reg r => s.readReg r
  | .desc i j => if s.status.busy then lanes else (descAt s.desc i).word j
  | .buf off => if s.status.busy then lanes else be32 (memRead s.buf off w.bytes)
  | .malformed => 0x00000000#32

/-! ### Host writes -/

/-- STATUS.BUSERR <- 1 (R95). -/
def State.setBusErr (s : State) : State := s.setStatus { s.status with busErr := true }

/-- STATUS.HAZ <- 1 (R380). -/
def State.setHaz (s : State) : State := s.setStatus { s.status with haz := true }

/-- The issue of `w` (R139): it is stored whatever it is, and no word is decoded here. -/
def State.issue (s : State) (w : Word) : State := (s.setReg .cmd w).setStatus s.status.issued

/-- What a host write may do to a register (the access column of R30, and R92). -/
inductive WriteRule
  | issue
  | writeClear
  | config
  | store (r : StoreReg)
  | ignored
  deriving DecidableEq, Repr

/-- The rule of each register (R30, R92). -/
def writeRule : Reg → WriteRule
  | .id => .ignored
  | .status => .writeClear
  | .cfg => .config
  | .typeFlags => .ignored
  | .bufSize => .ignored
  | .descCap => .ignored
  | .store .cmd => .issue
  | .store .src => .store .src
  | .store .len => .store .len
  | .store .dst => .store .dst
  | .store .type => .store .type
  | .store .crcAcc => .store .crcAcc
  | .store .crcResult => .ignored
  | .store .chunkLen => .ignored
  | .store .chunkType => .ignored
  | .store .chunkCrc => .ignored
  | .store .calcCrc => .ignored
  | .store .nextOff => .ignored
  | .store .chunkCount => .ignored
  | .store .failIndex => .ignored
  | .store .failOff => .ignored
  | .store .findIndex => .ignored

/-- A write that is discarded, with STATUS.HAZ set, while a command is pending (R380). -/
def State.unlessBusy (s t : State) : State := if s.status.busy then s.setHaz else t

/-- A well-formed host write of `v` to a register (R92, R97, R380). A write to STATUS or to a read-only register
behaves the same whether BUSY is 0 or 1. -/
def State.writeReg (s : State) (r : Reg) (v : Word) : State :=
  match writeRule r with
  | .issue => s.unlessBusy (s.issue v)
  | .writeClear => s.setStatus (s.status.writeClear v)
  | .config => s.unlessBusy { s with cfg := Cfg.ofWord v }
  | .store q => s.unlessBusy (s.setReg q v)
  | .ignored => s

/-- A host write. The descriptor window is read-only (R97); a malformed write is ignored and sets BUSERR (R95). -/
def State.writeAccess (s : State) (addr : Word) (w : Width) (v : Word) : State :=
  match target s.params addr w with
  | .reg r => s.writeReg r v
  | .desc _ _ => s
  | .buf off => s.unlessBusy (s.writeBuf off (laneBytes v w.bytes))
  | .malformed => s.setBusErr

/-- The state of the engine after a host read: a malformed one sets BUSERR (R95), no other changes anything (R98). -/
def State.readAccess (s : State) (addr : Word) (w : Width) : State :=
  if target s.params addr w = .malformed then s.setBusErr else s

/-- One host access, an atomic step (R90). The value a read returns is kept in `readData`. -/
def State.access (s : State) (lanes : Word) : Access → State
  | .read addr w => { s.readAccess addr w with readData := s.readValue addr w lanes }
  | .write addr w v => s.writeAccess addr w v

end Sys2Proof.Machine
end

