-- ==== Sys2Proof/Machine/Reset.lean ====
section
/-!
DEFINITION. The reset input and power-on (70_reset_and_hazards.md R370 to R373).
-/
namespace Sys2Proof.Machine

/-- A reset (R370): every register takes its reset value, so BUSY = 0 and a pending command is abandoned with none of
its writes made; the buffer memory and the descriptor table are not changed, and no command is issued. The parameters
are constant (R53). DEDUCED: what the host will do is not the engine's, and stays (notes/assumptions/16.md), safe. -/
def State.resetEvent (s : State) : State :=
  { s with regs := Regs.atReset, status := Status.atReset, cfg := Cfg.atReset }

/-- Power-on (R371): a reset of a machine of sizes `p` whose buffer holds `initBuf` and whose descriptor table holds
`initDesc`. Both are arguments because the spec makes them draws (R6). -/
def powerOn (p : Params) (initBuf : Nat → Byte) (initDesc : Nat → Desc) : State :=
  State.resetEvent
    { State.reset with
      params := p
      buf := tableOfFn unwrittenByte initBuf 0 p.bufSize.toNat
      desc := tableOfFn unwrittenDesc initDesc 0 p.descCap.toNat }

end Sys2Proof.Machine
end

