-- ==== Sys2Proof/Machine/Agents.lean ====
section
/-!
DEFINITION. The steps of the two agents and of the reset input, and which of them comes next (00_scope.md R16,
20_memory.md R100, 30_encoding.md R140, 70_reset_and_hazards.md R370).
-/
namespace Sys2Proof.Machine

/-- The engine's step on the command word in CMD: decode it, run the command it selects or raise ILLEGAL_CMD (R140,
R311). -/
def runPending (s : State) : Answer :=
  match decode (s.reg .cmd) with
  | .ok i => exec i s
  | .error _ => execIllegal s

/-- A turn of the engine. It has a step exactly when STATUS.BUSY = 1 (R140); else the turn passes. DEDUCED: the check is
here and not in `exec` (notes/assumptions/12.md), safe. -/
def engineTurn (s : State) : Answer := if s.status.busy then runPending s else .next s

/-- STATUS as `wait` reads it: a well-formed read of the register (R151, R91). -/
def pollStatus (s : State) : State := { s with readData := s.status.toWord }

/-- A turn of the host: the next operation of its program, or nothing where the program is at its end (R90). `wait`
reads STATUS and stays where it is while bit 0 of the value is 1 (R151). -/
def hostTurn (lanes : Word) (s : State) : State :=
  match s.hostProg with
  | [] => s
  | .access a :: rest => { s with hostProg := rest }.access lanes a
  | .wait :: rest =>
    if (pollStatus s).readData.getLsbD 0 then pollStatus s else { pollStatus s with hostProg := rest }

/-- One step of the machine: the turn that `turns` fixes, or, where it fixes none, the engine's while a command is
pending and else the host's (DESIGN CHOICE, notes/assumptions/4.md, unsafe for a claim about one run). The lanes of such
a host turn are never looked at, because they matter only while a command is pending (`hostTurn_lanes`). -/
def nextStep (s : State) : Answer :=
  match s.turns with
  | .host lanes :: rest => .next (hostTurn lanes { s with turns := rest })
  | .engine :: rest => engineTurn { s with turns := rest }
  | .reset :: rest => .next { s with turns := rest }.resetEvent
  | [] => if s.status.busy then runPending s else .next (hostTurn 0x00000000#32 s)

/-- The state in which the word `w` has been issued (R139) and the next turn is the engine's. -/
def issueForEngine (s : State) (w : Word) : State := { s.issue w with turns := .engine :: s.turns }

end Sys2Proof.Machine
end

