-- ==== Sys2Proof/Machine/Step.lean ====
section
/-!
DEFINITION. One step of the machine, and a state whose next step runs a given command word.
-/
namespace Sys2Proof.Machine

/-- One step (R16, R100). -/
def step (s : State) : Host.Outcome State Fault Refusal := nextStep s

/-- `s` with the command word `w` issued and the engine's turn next, so that the next step runs it. The engine fetches
nothing (R57): a command comes to run by a host write to CMD, and this stands for that write (DEDUCED,
notes/assumptions/5.md, safe). A command is one 32-bit word (R130); `nbits` says which bits of `w` count. -/
def State.withFetchWord (s : State) (nbits w : Nat) : State := issueForEngine s (BitVec.ofNat 32 (w % 2 ^ nbits))

end Sys2Proof.Machine
end

