-- ==== Sys2Proof/Machine/HostProgram.lean ====
section
/-!
DEFINITION. What a host program's statements stand for (30_encoding.md R150, R151).
-/
namespace Sys2Proof.Machine

/-- The position of a descriptor word in its entry (R82, R150). -/
def descWordIndex : DescWord → Nat
  | .off => 0
  | .len => 1
  | .type => 2
  | .crc => 3

/-- The host address an address expression stands for (R150). -/
def locAddr : Loc → Word
  | .reg r => BitVec.ofNat 32 (regOffset r)
  | .buf n => BitVec.ofNat 32 (bufBase + n)
  | .desc i j => BitVec.ofNat 32 (descBase + 16 * i + 4 * descWordIndex j)
  | .num a => a

/-- A host write as a host operation. -/
def writeOp (a : Loc) (w : Width) (v : Word) : HostOp := .access (.write (locAddr a) w v)

/-- A host read as a host operation. -/
def readOp (a : Loc) (w : Width) : HostOp := .access (.read (locAddr a) w)

/-- The byte writes of a `put`: byte `i` of the list to `buf+N+i`, from 0 upward (R151). -/
def putOps (n : Nat) : List Byte → List HostOp
  | [] => []
  | b :: bs => writeOp (.buf n) .w1 (b.setWidth 32) :: putOps (n + 1) bs

/-- The ASCII byte of a character (R151). -/
def asciiByte (c : Char) : Byte := BitVec.ofNat 8 c.toNat

/-- `cmd MNEMONIC`: `sw CMD, W` with the word of R132 (R151). -/
def cmdOp (i : Instr) : HostOp := writeOp (.reg (.store .cmd)) .w4 (encode i)

/-- The host operations a statement stands for (R150, R151). -/
def expandStmt : Stmt → List HostOp
  | .sw a v => [writeOp a .w4 v]
  | .sh a v => [writeOp a .w2 v]
  | .sb a v => [writeOp a .w1 v]
  | .lw a => [readOp a .w4]
  | .lh a => [readOp a .w2]
  | .lb a => [readOp a .w1]
  | .cmd i => [cmdOp i]
  | .wait => [.wait]
  | .run i => [cmdOp i, .wait]
  | .putText n text => putOps n (text.map asciiByte)
  | .putBytes n bytes => putOps n bytes
  | .clr => [writeOp (.reg .status) .w4 0x0000001E#32]

/-- The host operations of a program, in its order (R90). -/
def expandProgram (prog : List Stmt) : List HostOp := prog.flatMap expandStmt

end Sys2Proof.Machine
end

