-- ==== Sys2Proof/Safety.lean ====
section
/-!
DEFINITION. What holds of every state of a run, in the terms the statements use: the invariant of the engine, a run of
steps, and the tables of what each command may write, read and raise.
-/
namespace Sys2Proof.Machine

/-- STATUS fields that belong together (R33, R139, R141, R34): a pending command has cleared DONE and ERR; ERR and a
nonzero ERRCODE come and go together; ERRCODE is 0 or the code of an error that a command raises (R330, R331). -/
structure Status.Ok (t : Status) : Prop where
  busyClears : t.busy = true → t.done = false ∧ t.err = false
  errIffCode : t.err = true ↔ t.errCode ≠ 0#4
  codeRaised : t.errCode ∈ [0#4, 1#4, 2#4, 3#4, 4#4, 5#4, 8#4, 9#4, 10#4, 11#4]

/-- The descriptors below CHUNK_COUNT describe chunks that lie in the buffer and follow each other without a gap
(R275, R277). -/
def State.DescriptorsChain (s : State) : Prop :=
  ∀ i, i < s.num .chunkCount →
    (descAt s.desc i).off.toNat + 12 + (descAt s.desc i).len.toNat ≤ s.bufSize ∧
    (i + 1 < s.num .chunkCount →
      (descAt s.desc (i + 1)).off.toNat = (descAt s.desc i).off.toNat + 12 + (descAt s.desc i).len.toNat)

/-- The invariant of the machine: the sizes meet R6, both memories are in canonical form and inside their sizes (R52,
R54), STATUS is consistent, the result registers that name an offset or an index name one that exists or hold "none"
(R47 to R51), and the descriptors chain. -/
structure State.Inv (s : State) : Prop where
  params : s.params.wellFormed = true
  buf : s.buf.wf s.bufSize = true
  desc : s.desc.wf s.descCap = true
  status : s.status.Ok
  nextOff : s.num .nextOff ≤ s.bufSize
  chunkCount : s.num .chunkCount ≤ s.descCap
  failIndex : s.num .failIndex ≤ s.descCap ∨ s.reg .failIndex = noneWord
  failOff : s.num .failOff ≤ s.bufSize ∨ s.reg .failOff = noneWord
  findIndex : s.num .findIndex < s.descCap ∨ s.reg .findIndex = noneWord
  chain : s.DescriptorsChain

/-- `k` steps of the machine from `s`, while they answer a next state. -/
def stepsTo : Nat → State → State → Prop
  | 0, s, t => t = s
  | k + 1, s, t => ∃ u, step s = .next u ∧ stepsTo k u t

end Sys2Proof.Machine

namespace Sys2Proof.Claims
open Sys2Proof.Machine

/-! ### Which command writes what, reads what and raises what (R60, R134, R330) -/

/-- The five registers of R233. -/
def chunkRegList : List StoreReg := [.chunkLen, .chunkType, .chunkCrc, .calcCrc, .nextOff]

/-- The registers a STREAM_PARSE may write (R60). -/
def streamRegs : List StoreReg :=
  [.chunkCount, .failIndex, .failOff, .nextOff, .chunkLen, .chunkType, .chunkCrc, .calcCrc]

/-- The word registers a command may write (R60). -/
def writesRegs : Instr → List StoreReg
  | .nop => []
  | .crcInit => [.crcAcc]
  | .crcUpdate => [.crcAcc]
  | .crcFinal => [.crcResult]
  | .crcBlock => [.crcResult]
  | .crcChunk => [.crcResult]
  | .typeFromText => [.type]
  | .chunkEmit => [.crcResult, .nextOff]
  | .chunkParse => chunkRegList
  | .sigEmit => [.nextOff]
  | .streamParse => streamRegs
  | .findType => [.findIndex]

/-- The word registers a command reads (R134). -/
def readsRegs : Instr → List StoreReg
  | .nop => []
  | .crcInit => []
  | .crcUpdate => [.src, .len, .crcAcc]
  | .crcFinal => [.crcAcc]
  | .crcBlock => [.src, .len]
  | .crcChunk => [.src, .len, .type]
  | .typeFromText => [.src, .len]
  | .chunkEmit => [.src, .len, .dst, .type]
  | .chunkParse => [.src, .len]
  | .sigEmit => [.dst]
  | .streamParse => [.src, .len]
  | .findType => [.type, .chunkCount]

/-- The commands that read the buffer, each within the window `[SRC, SRC+LEN)` (R134). -/
def readsWindow : Instr → Bool
  | .nop | .crcInit | .crcFinal | .sigEmit | .findType => false
  | .crcUpdate | .crcBlock | .crcChunk | .typeFromText | .chunkEmit | .chunkParse | .streamParse => true

/-- The commands that read CFG.STRICT_LEN (R134). -/
def readsCfg : Instr → Bool
  | .chunkEmit | .chunkParse | .streamParse => true
  | .nop | .crcInit | .crcUpdate | .crcFinal | .crcBlock | .crcChunk | .typeFromText | .sigEmit | .findType => false

/-- The error codes a command may end with (R330, R340). -/
def raises : Instr → List (BitVec 4)
  | .nop => []
  | .crcInit => []
  | .crcUpdate => [9#4]
  | .crcFinal => []
  | .crcBlock => [9#4]
  | .crcChunk => [9#4]
  | .typeFromText => [9#4, 1#4, 2#4]
  | .chunkEmit => [11#4, 9#4]
  | .chunkParse => [9#4, 4#4, 11#4, 3#4]
  | .sigEmit => [9#4]
  | .streamParse => [9#4, 5#4, 10#4, 4#4, 11#4, 3#4]
  | .findType => []

end Sys2Proof.Claims
end

