-- ==== Sys2Proof/Certificates/Slice0/Obligations.lean ====
section
/-!
DEFINITION. The statements for the provers. The words they share stand first: what a command's end leaves in STATUS,
what it leaves unchanged, and the chunk at an offset of the buffer read byte by byte as 00_scope.md R11, R12 and
42_chunk.md R230 write it, without the model's own parser.
-/
namespace Sys2Proof.Claims
open Sys2Proof.Machine

/-! ### What a command leaves -/

/-- A completion without error (R141). -/
structure EndedOk (s t : State) : Prop where
  busy : t.status.busy = false
  done : t.status.done = true
  err : t.status.err = false
  errCode : t.status.errCode = 0#4
  haz : t.status.haz = s.status.haz
  busErr : t.status.busErr = s.status.busErr

/-- A completion with the error of code `code` (R141, R330). -/
structure EndedWith (code : BitVec 4) (s t : State) : Prop where
  busy : t.status.busy = false
  done : t.status.done = true
  err : t.status.err = true
  errCode : t.status.errCode = code
  haz : t.status.haz = s.status.haz
  busErr : t.status.busErr = s.status.busErr

/-- Every word register but those of `written` is unchanged. -/
def SameRegsBut (written : List StoreReg) (s t : State) : Prop := ∀ r, r ∉ written → t.reg r = s.reg r

/-- Every byte of the buffer reads as before. -/
def SameBuf (s t : State) : Prop := ∀ a, byteAt t.buf a = byteAt s.buf a

/-- Every byte of the buffer outside the `n` bytes from `lo` reads as before. -/
def SameBufOutside (lo n : Nat) (s t : State) : Prop :=
  ∀ a, a < lo ∨ lo + n ≤ a → byteAt t.buf a = byteAt s.buf a

/-- Every descriptor reads as before. -/
def SameDesc (s t : State) : Prop := ∀ i, descAt t.desc i = descAt s.desc i

/-- CFG, the sizes, and the model's own fields (what the host will do, the turns, the last value read) are
unchanged. -/
structure SameRest (s t : State) : Prop where
  cfg : t.cfg = s.cfg
  params : t.params = s.params
  hostProg : t.hostProg = s.hostProg
  turns : t.turns = s.turns
  readData : t.readData = s.readData

/-- A command changed the word registers of `written` and STATUS, and nothing else. -/
structure OnlyRegs (written : List StoreReg) (s t : State) : Prop where
  regs : SameRegsBut written s t
  buf : SameBuf s t
  desc : SameDesc s t
  rest : SameRest s t

/-- The command ends with the error of code `code` and has written nothing but STATUS. -/
def FailsWith (i : Instr) (s : State) (code : BitVec 4) : Prop :=
  ∃ t, exec i s = .next t ∧ EndedWith code s t ∧ OnlyRegs [] s t

/-! ### Bytes and chunks of the buffer -/

/-- `MemRead(off, n)` as R12 writes it. -/
def bytesAt (m : Memory) (off n : Nat) : List Byte := (List.range n).map (fun i => byteAt m (off + i))

/-- The buffer holds the sequence `bs` from `off`. -/
def HoldsAt (m : Memory) (off : Nat) (bs : List Byte) : Prop := bytesAt m off bs.length = bs

/-- The length field of the chunk at `off` (R230). -/
def lenAt (m : Memory) (off : Nat) : Nat := beNat (bytesAt m off 4)

/-- Its type field as a word (R230, R13). -/
def typeAt (m : Memory) (off : Nat) : Word := be32 (bytesAt m (off + 4) 4)

/-- Its CRC field (R230). -/
def storedCrcAt (m : Memory) (off : Nat) : Word := be32 (bytesAt m (off + 8 + lenAt m off) 4)

/-- The CRC-32 of its type and data bytes, which stand next to each other (R204, R230). -/
def computedCrcAt (m : Memory) (off : Nat) : Word := crc32 (bytesAt m (off + 4) (4 + lenAt m off))

/-- CFG.STRICT_LEN forbids the length `n` (R35, R236). -/
def OverLimit (s : State) (n : Nat) : Prop := s.cfg.strictLen = true ∧ 2 ^ 31 ≤ n

/-- The chunk at `off` lies whole below `stop` and its length is allowed (R232). -/
def ChunkFits (s : State) (off stop : Nat) : Prop :=
  off + 12 + lenAt s.buf off ≤ stop ∧ ¬ OverLimit s (lenAt s.buf off)

/-- The chunk at `off` passes ParseChunk in the window that ends at `stop` (R232). -/
def ChunkGood (s : State) (off stop : Nat) : Prop :=
  ChunkFits s off stop ∧ storedCrcAt s.buf off = computedCrcAt s.buf off

/-- The error of ParseChunk at `off` in the window that ends at `stop`, where it has one and the chunk's values are not
reported (R232): TRUNCATED, LENGTH_LIMIT, TRUNCATED, in that order. -/
def ChunkUnreadable (s : State) (off stop : Nat) (code : BitVec 4) : Prop :=
  (stop < off + 4 ∧ code = 4#4) ∨
  (off + 4 ≤ stop ∧ OverLimit s (lenAt s.buf off) ∧ code = 11#4) ∨
  (off + 4 ≤ stop ∧ ¬ OverLimit s (lenAt s.buf off) ∧ stop < off + 12 + lenAt s.buf off ∧ code = 4#4)

/-- The five registers of R233 hold the values of the chunk at `off` of the buffer `m`. -/
structure ChunkRegs (m : Memory) (off : Nat) (t : State) : Prop where
  len : (t.reg .chunkLen).toNat = lenAt m off
  type : t.reg .chunkType = typeAt m off
  stored : t.reg .chunkCrc = storedCrcAt m off
  computed : t.reg .calcCrc = computedCrcAt m off
  nextOff : (t.reg .nextOff).toNat = off + 12 + lenAt m off

/-- The four chunk registers of R43 to R46. -/
def chunkValueRegs : List StoreReg := [.chunkLen, .chunkType, .chunkCrc, .calcCrc]

/-- The offset of chunk `k` of the walk that begins at `off` (R277). -/
def cursor (m : Memory) (off : Nat) : Nat → Nat
  | 0 => off
  | k + 1 => cursor m off k + 12 + lenAt m (cursor m off k)

/-- The descriptor of the chunk at `off` (R52, R275). -/
def descOf (m : Memory) (off : Nat) : Desc :=
  { off := BitVec.ofNat 32 off, len := BitVec.ofNat 32 (lenAt m off), type := typeAt m off, crc := storedCrcAt m off }

/-- The first eight bytes of the window are the signature (R14, R275). -/
def SigPresent (s : State) : Prop :=
  8 ≤ s.num .len ∧ bytesAt s.buf (s.num .src) 8 = [0x89#8, 0x50#8, 0x4E#8, 0x47#8, 0x0D#8, 0x0A#8, 0x1A#8, 0x0A#8]

/-- Where the first chunk of the stream stands (R275). -/
def firstChunk (s : State) : Nat := s.num .src + 8

/-- Where the stream ends (R275). -/
def streamEnd (s : State) : Nat := s.num .src + s.num .len

/-- The walk gets as far as chunk `n`: the chunks before it exist, pass, and there is room for them (R275). -/
structure WalkReaches (s : State) (n : Nat) : Prop where
  fits : s.num .src + s.num .len ≤ s.bufSize
  sig : SigPresent s
  room : n ≤ s.descCap
  good : ∀ k, k < n → ChunkGood s (cursor s.buf (firstChunk s) k) (streamEnd s)

/-- Descriptors 0 to `n` - 1 describe the chunks of the walk, and the others are unchanged (R275, R276). -/
def DescsWritten (n : Nat) (s t : State) : Prop :=
  (∀ k, k < n → descAt t.desc k = descOf s.buf (cursor s.buf (firstChunk s) k)) ∧
  (∀ k, n ≤ k → descAt t.desc k = descAt s.desc k)

/-! ### CRC in normal bit order -/

/-- One bit of a CRC register in normal bit order, with the generator polynomial 0x04C11DB7 (R200). -/
def divideStep (c : Word) (bit : Bool) : Word :=
  (c <<< 1) ^^^ (if (c.getLsbD 31).xor bit then 0x04C11DB7#32 else 0#32)

/-- The bits of a byte sequence, each byte least significant bit first (R200). -/
def messageBits (bs : List Byte) : List Bool := bs.flatMap (fun b => (List.range 8).map b.getLsbD)

/-! ### Host accesses -/

/-- The offsets of the registers whose host writes R380 discards while a command is pending. -/
def argumentOffsets : List Nat := [0x004, 0x00C, 0x010, 0x014, 0x018, 0x01C, 0x024]

/-- The offsets of the read-only registers (R92, R97). -/
def readOnlyOffsets : List Nat :=
  [0x000, 0x020, 0x028, 0x02C, 0x030, 0x034, 0x038, 0x03C, 0x040, 0x044, 0x048, 0x04C, 0x050, 0x054]

/-- The next step is the engine's: the turn is fixed as the engine's, or none is fixed. `rest` are the turns after
it. -/
def EngineNext (s : State) (rest : List Turn) : Prop :=
  s.turns = .engine :: rest ∨ (s.turns = [] ∧ rest = [])

/-- The next step is the host's, with the lanes `lanes`, and `rest` are the turns after it. Where no turn is fixed the
host moves only while no command is pending, whatever the lanes. -/
def HostNext (s : State) (lanes : Word) (rest : List Turn) : Prop :=
  s.turns = .host lanes :: rest ∨ (s.turns = [] ∧ rest = [] ∧ s.status.busy = false)

/-! ### Reset -/

/-- Every register of R30 reads its reset value (R372). -/
structure RegistersReset (t : State) : Prop where
  id : t.readReg .id = 0x504E4743#32
  cmd : t.readReg (.store .cmd) = 0x00000000#32
  status : t.readReg .status = 0x00000000#32
  cfg : t.readReg .cfg = 0x00000000#32
  src : t.readReg (.store .src) = 0x00000000#32
  len : t.readReg (.store .len) = 0x00000000#32
  dst : t.readReg (.store .dst) = 0x00000000#32
  type : t.readReg (.store .type) = 0x00000000#32
  typeFlags : t.readReg .typeFlags = 0x0000000E#32
  crcAcc : t.readReg (.store .crcAcc) = 0xFFFFFFFF#32
  crcResult : t.readReg (.store .crcResult) = 0x00000000#32
  chunkLen : t.readReg (.store .chunkLen) = 0x00000000#32
  chunkType : t.readReg (.store .chunkType) = 0x00000000#32
  chunkCrc : t.readReg (.store .chunkCrc) = 0x00000000#32
  calcCrc : t.readReg (.store .calcCrc) = 0x00000000#32
  nextOff : t.readReg (.store .nextOff) = 0x00000000#32
  chunkCount : t.readReg (.store .chunkCount) = 0x00000000#32
  failIndex : t.readReg (.store .failIndex) = 0xFFFFFFFF#32
  failOff : t.readReg (.store .failOff) = 0xFFFFFFFF#32
  findIndex : t.readReg (.store .findIndex) = 0xFFFFFFFF#32
  bufSize : t.readReg .bufSize = t.params.bufSize
  descCap : t.readReg .descCap = t.params.descCap

/-! ### Operands -/

/-- Two states agree on everything R134 lets a command read: its registers, the sizes, CFG where it reads CFG, the
window where it reads the buffer, and the descriptors below CHUNK_COUNT where it reads the table. -/
structure AgreeOnOperands (i : Instr) (s u : State) : Prop where
  params : u.params = s.params
  regs : ∀ r, r ∈ readsRegs i → u.reg r = s.reg r
  cfg : readsCfg i = true → u.cfg.strictLen = s.cfg.strictLen
  window : readsWindow i = true → ∀ a, s.num .src ≤ a → a < s.num .src + s.num .len → byteAt u.buf a = byteAt s.buf a
  table : i = .findType → ∀ k, k < s.num .chunkCount → (descAt u.desc k).type = (descAt s.desc k).type

/-- Of one value in two runs, `before` to `after` and `before'` to `after'`: it is equal after both, or both left it as
it was. -/
def SameOutcome {α : Type} (before before' after after' : α) : Prop :=
  after' = after ∨ (after = before ∧ after' = before')

/-! ### Host programs -/

/-- The offset a register name stands for, written out from R30 (R150). -/
def nameOffset : Reg → Nat
  | .id => 0x000
  | .store .cmd => 0x004
  | .status => 0x008
  | .cfg => 0x00C
  | .store .src => 0x010
  | .store .len => 0x014
  | .store .dst => 0x018
  | .store .type => 0x01C
  | .typeFlags => 0x020
  | .store .crcAcc => 0x024
  | .store .crcResult => 0x028
  | .store .chunkLen => 0x02C
  | .store .chunkType => 0x030
  | .store .chunkCrc => 0x034
  | .store .calcCrc => 0x038
  | .store .nextOff => 0x03C
  | .store .chunkCount => 0x040
  | .store .failIndex => 0x044
  | .store .failOff => 0x048
  | .store .findIndex => 0x04C
  | .bufSize => 0x050
  | .descCap => 0x054

/-- The host address an address expression stands for, as R150 writes it. -/
def addressOf : Loc → Nat
  | .reg r => nameOffset r
  | .buf n => 0x80000000 + n
  | .desc i .off => 0x00100000 + 16 * i
  | .desc i .len => 0x00100000 + 16 * i + 4
  | .desc i .type => 0x00100000 + 16 * i + 8
  | .desc i .crc => 0x00100000 + 16 * i + 12
  | .num a => a.toNat

/-- `W A width V` on the bus (R150). -/
def busWrite (a : Nat) (w : Width) (v : Word) : HostOp := .access (.write (BitVec.ofNat 32 a) w v)

/-- `R A width` on the bus (R150). -/
def busRead (a : Nat) (w : Width) : HostOp := .access (.read (BitVec.ofNat 32 a) w)

end Sys2Proof.Claims

open Sys2Proof Sys2Proof.Machine Sys2Proof.Claims

/-! ## Encoding (30_encoding.md) -/

/-- The words of the opcode map decode to their commands (R132), written out from the "word" column. -/
def Obligations.CommandWordsDecode : Prop :=
  decode 0x00000000#32 = .ok .nop ∧ decode 0x00000001#32 = .ok .crcInit ∧ decode 0x00000002#32 = .ok .crcUpdate ∧
  decode 0x00000003#32 = .ok .crcFinal ∧ decode 0x00000004#32 = .ok .crcBlock ∧ decode 0x00000005#32 = .ok .crcChunk ∧
  decode 0x00000010#32 = .ok .typeFromText ∧ decode 0x00000020#32 = .ok .chunkEmit ∧
  decode 0x00000021#32 = .ok .chunkParse ∧ decode 0x00000030#32 = .ok .sigEmit ∧
  decode 0x00000031#32 = .ok .streamParse ∧ decode 0x00000032#32 = .ok .findType

/-- A word is a command exactly when [31:8] is 0 and [7:0] is an assigned opcode; each command is the one word of its
encoding (R131, R133). -/
def Obligations.LegalWordsAreExactlyTheCommands : Prop :=
  (∀ w : Word, (∃ i, decode w = .ok i) ↔
    w.extractLsb' 8 24 = 0#24 ∧
    (w.extractLsb' 0 8).toNat ∈ [0x00, 0x01, 0x02, 0x03, 0x04, 0x05, 0x10, 0x20, 0x21, 0x30, 0x31, 0x32]) ∧
  (∀ (w : Word) (i : Instr), decode w = .ok i ↔ w = encode i)

/-! ## Steps (00_scope.md R16, 20_memory.md R100, 30_encoding.md R140) -/

/-- A step of the engine runs the command that the pending word decodes to: it is `exec` of it, on the state with the
turn used up (R140). -/
def Obligations.StepRunsPendingCommand : Prop :=
  ∀ (s : State) (rest : List Turn) (i : Instr), EngineNext s rest → s.status.busy = true →
    decode (s.reg .cmd) = .ok i → step s = exec i { s with turns := rest }

/-- A step of the host performs the next access of its program (R90). -/
def Obligations.StepPerformsHostAccess : Prop :=
  ∀ (s : State) (lanes : Word) (rest : List Turn) (a : Access) (ops : List HostOp), HostNext s lanes rest →
    s.hostProg = .access a :: ops →
    step s = .next (({ s with turns := rest, hostProg := ops } : State).access lanes a)

/-- A step of the host at a `wait` reads STATUS, and stays at the `wait` while bit 0 of the value is 1 (R151). -/
def Obligations.WaitPollsUntilIdle : Prop :=
  ∀ (s : State) (lanes : Word) (rest : List Turn) (ops : List HostOp), HostNext s lanes rest →
    s.hostProg = .wait :: ops →
    ∃ t, step s = .next t ∧ t.readData = s.readReg .status ∧ t.turns = rest ∧
      t.hostProg = (if s.status.busy then .wait :: ops else ops) ∧
      t.regs = s.regs ∧ t.status = s.status ∧ t.cfg = s.cfg ∧ t.params = s.params ∧ t.buf = s.buf ∧ t.desc = s.desc

/-- Every step of every state answers a next state: no word, access, turn or command stops the machine (R131, R87,
R95, R346). -/
def Obligations.EveryStepAnswersNext : Prop := ∀ s : State, ∃ t, step s = .next t

/-- The engine step is taken after every issue (R140): unless a reset is among the turns to come, within as many steps
as there are turns fixed the machine stands, with the same command, inputs and memories pending, before the engine's
step, and that step completes the command. -/
def Obligations.EngineStepIsEventuallyTaken : Prop :=
  ∀ s : State, s.status.busy = true → Turn.reset ∉ s.turns →
    ∃ (k : Nat) (t u : State) (rest : List Turn), k ≤ s.turns.length ∧ stepsTo k s t ∧ t.status.busy = true ∧
      t.regs = s.regs ∧ t.cfg = s.cfg ∧ t.buf = s.buf ∧ t.desc = s.desc ∧ EngineNext t rest ∧
      step t = .next u ∧ u.status.busy = false ∧ u.status.done = true

/-! ## Reset and power-on (70_reset_and_hazards.md) -/

/-- Every register reads its reset value, and no command is pending (R372), seen through the host port. The buffer and
the descriptor table are the subject of the two statements after this one. -/
def Obligations.ResetRegisterValues : Prop :=
  (∀ s : State, RegistersReset s.resetEvent ∧ s.resetEvent.irq = false) ∧ RegistersReset State.reset ∧
  State.reset.irq = false

/-- A reset may come at any step (R370): every register takes its reset value, BUSY is 0 and IRQ is 0, a pending
command leaves no trace, the buffer, the descriptors and the sizes stay, and nothing is issued. Three clauses are the model's
choice, not the rule's: the reset uses up its turn (`turns`, notes/assumptions/4.md, DESIGN CHOICE), the host's program
goes on (`hostProg`, notes/assumptions/16.md, DEDUCED), and the value the host last read stays (`readData`,
notes/assumptions/6.md, DESIGN CHOICE). -/
def Obligations.ResetTurnResetsRegistersOnly : Prop :=
  ∀ (s : State) (rest : List Turn), s.turns = .reset :: rest →
    ∃ t, step s = .next t ∧ RegistersReset t ∧ t.status.busy = false ∧ t.irq = false ∧ t.buf = s.buf ∧
      t.desc = s.desc ∧ t.params = s.params ∧ t.hostProg = s.hostProg ∧ t.turns = rest ∧ t.readData = s.readData

/-- Power-on holds the draws in every byte and descriptor, its registers are as after a reset (R371), and if the sizes
meet R6 it meets the invariant, whatever the draws. -/
def Obligations.PowerOnHoldsTheDraws : Prop :=
  ∀ (p : Params) (initBuf : Nat → Byte) (initDesc : Nat → Desc),
    (∀ a, a < p.bufSize.toNat → byteAt (powerOn p initBuf initDesc).buf a = initBuf a) ∧
    (∀ i, i < p.descCap.toNat → descAt (powerOn p initBuf initDesc).desc i = initDesc i) ∧
    RegistersReset (powerOn p initBuf initDesc) ∧ (powerOn p initBuf initDesc).status.busy = false ∧
    (powerOn p initBuf initDesc).irq = false ∧ (powerOn p initBuf initDesc).params = p ∧
    (p.wellFormed = true → (powerOn p initBuf initDesc).Inv)

/-- The invariant holds at `State.reset`. -/
def Obligations.ResetStateMeetsInvariant : Prop := State.reset.Inv

/-- Every step of the machine keeps the invariant: the canonical forms of both memories and their sizes, a consistent
STATUS with a code some command raises, result registers that name offsets and entries that exist, and descriptors that
chain through the buffer. -/
def Obligations.StepKeepsTheInvariant : Prop := ∀ s t : State, s.Inv → step s = .next t → t.Inv

/-! ## Issue, STATUS and the host port (10_state.md, 20_memory.md, 30_encoding.md, 70_reset_and_hazards.md) -/

/-- Issue (R139): a write of any word, legal or not, to CMD with BUSY = 0 stores it, sets BUSY and clears DONE, ERR and
ERRCODE; with BUSY = 1 it issues nothing. -/
def Obligations.WriteToCmdIssues : Prop :=
  ∀ (s : State) (lanes w : Word),
    (s.status.busy = false →
      (s.access lanes (.write 0x00000004#32 .w4 w)).status =
        { busy := true, done := false, err := false, haz := s.status.haz, busErr := s.status.busErr, errCode := 0#4 } ∧
      (s.access lanes (.write 0x00000004#32 .w4 w)).reg .cmd = w ∧
      OnlyRegs [.cmd] s (s.access lanes (.write 0x00000004#32 .w4 w))) ∧
    (s.status.busy = true →
      (s.access lanes (.write 0x00000004#32 .w4 w)).reg .cmd = s.reg .cmd ∧
      (s.access lanes (.write 0x00000004#32 .w4 w)).status = { s.status with haz := true })

/-- Completion (R141): whatever the command, its step leaves BUSY = 0 and DONE = 1, ERR = 1 with a nonzero code or
ERR = 0 with code 0, HAZ, BUSERR and CMD as they were. -/
def Obligations.CompletionWritesStatus : Prop :=
  ∀ (i : Instr) (s t : State), exec i s = .next t →
    t.status.busy = false ∧ t.status.done = true ∧ (t.status.err = true ↔ t.status.errCode ≠ 0#4) ∧
    t.status.haz = s.status.haz ∧ t.status.busErr = s.status.busErr ∧ t.reg .cmd = s.reg .cmd

/-- The STATUS word (R33): each field at its bits, and every other bit reads 0. -/
def Obligations.StatusWordLayout : Prop :=
  ∀ (s : State) (i : Nat), i < 32 →
    (s.readReg .status).getLsbD i =
      (if i = 0 then s.status.busy else if i = 1 then s.status.done else if i = 2 then s.status.err
        else if i = 3 then s.status.haz else if i = 4 then s.status.busErr
        else if 8 ≤ i ∧ i ≤ 11 then s.status.errCode.getLsbD (i - 8) else false)

/-- A host write to STATUS (R34), BUSY or not: the bits written 1 clear their fields, ERRCODE goes with ERR, and nothing
else changes. -/
def Obligations.StatusWriteOneToClear : Prop :=
  ∀ (s : State) (lanes w : Word),
    s.access lanes (.write 0x00000008#32 .w4 w) =
      { s with
        status :=
          { busy := s.status.busy
            done := if w.getLsbD 1 then false else s.status.done
            err := if w.getLsbD 2 then false else s.status.err
            haz := if w.getLsbD 3 then false else s.status.haz
            busErr := if w.getLsbD 4 then false else s.status.busErr
            errCode := if w.getLsbD 2 then 0#4 else s.status.errCode } }

/-- CFG keeps bits [1:0] of a write, and reads 0 in all others (R35). -/
def Obligations.CfgKeepsTwoBits : Prop :=
  ∀ (s : State) (lanes w : Word), s.status.busy = false →
    (s.access lanes (.write 0x0000000C#32 .w4 w)).readReg .cfg = w &&& 0x00000003#32 ∧
    (s.access lanes (.write 0x0000000C#32 .w4 w)).cfg.strictLen = w.getLsbD 0 ∧
    (s.access lanes (.write 0x0000000C#32 .w4 w)).cfg.irqEn = w.getLsbD 1 ∧
    s.access lanes (.write 0x0000000C#32 .w4 w) =
      { s with cfg := (s.access lanes (.write 0x0000000C#32 .w4 w)).cfg }

/-- The argument registers store what the host writes, with no check (R36 to R39, R41, R92). -/
def Obligations.ArgumentWritesStore : Prop :=
  ∀ (s : State) (lanes w : Word) (o : Word) (r : StoreReg), s.status.busy = false →
    (o, r) ∈ [(0x00000010#32, StoreReg.src), (0x00000014#32, .len), (0x00000018#32, .dst), (0x0000001C#32, .type),
      (0x00000024#32, .crcAcc)] →
    (s.access lanes (.write o .w4 w)).reg r = w ∧ OnlyRegs [r] s (s.access lanes (.write o .w4 w)) ∧
    (s.access lanes (.write o .w4 w)).status = s.status

/-- Register reads (R91): at every offset of the register map, BUSY or not, the value returned is the register's, and
the read changes nothing else. -/
def Obligations.RegisterReadsReturnCurrentValues : Prop :=
  ∀ (s : State) (lanes o v : Word),
    (o, v) ∈ [(0x00000000#32, 0x504E4743#32), (0x00000004#32, s.reg .cmd), (0x00000008#32, s.status.toWord),
      (0x0000000C#32, s.cfg.toWord), (0x00000010#32, s.reg .src), (0x00000014#32, s.reg .len),
      (0x00000018#32, s.reg .dst), (0x0000001C#32, s.reg .type), (0x00000020#32, typeFlags (s.reg .type)),
      (0x00000024#32, s.reg .crcAcc), (0x00000028#32, s.reg .crcResult), (0x0000002C#32, s.reg .chunkLen),
      (0x00000030#32, s.reg .chunkType), (0x00000034#32, s.reg .chunkCrc), (0x00000038#32, s.reg .calcCrc),
      (0x0000003C#32, s.reg .nextOff), (0x00000040#32, s.reg .chunkCount), (0x00000044#32, s.reg .failIndex),
      (0x00000048#32, s.reg .failOff), (0x0000004C#32, s.reg .findIndex), (0x00000050#32, s.params.bufSize),
      (0x00000054#32, s.params.descCap)] →
    s.access lanes (.read o .w4) = { s with readData := v }

/-- A malformed access (R95, R87), BUSY or not: a read returns 0, a write is ignored, and BUSERR is set. -/
def Obligations.MalformedAccessesSetBusErr : Prop :=
  ∀ (s : State) (lanes addr v : Word) (w : Width), s.params.wellFormed = true →
    (Access.wellFormed s.params (.read addr w) = false →
      s.access lanes (.read addr w) = { s with status := { s.status with busErr := true }, readData := 0x00000000#32 }) ∧
    (Access.wellFormed s.params (.write addr w v) = false →
      s.access lanes (.write addr w v) = { s with status := { s.status with busErr := true } })

/-- A well-formed write to a read-only register or to the descriptor window is ignored silently (R97), BUSY or not. -/
def Obligations.ReadOnlyWritesAreIgnored : Prop :=
  ∀ (s : State) (lanes addr v : Word), s.params.wellFormed = true →
    (addr.toNat ∈ readOnlyOffsets ∨ descAccessOk s.params addr .w4 = true) →
    s.access lanes (.write addr .w4 v) = s

/-- The busy write hazard (R380): while a command is pending, a well-formed write to CMD, CFG, SRC, LEN, DST, TYPE or
CRC_ACC or to the buffer window is discarded and sets HAZ, and nothing else changes, so the pending command keeps the
values it was issued with. Writes to read-only registers and to STATUS are not affected. -/
def Obligations.BusyWritesAreDiscarded : Prop :=
  ∀ (s : State) (lanes addr v : Word) (w : Width), s.params.wellFormed = true → s.status.busy = true →
    ((addr.toNat ∈ argumentOffsets ∧ w = .w4 ∨ bufAccessOk s.params addr w = true) →
      s.access lanes (.write addr w v) = { s with status := { s.status with haz := true } }) ∧
    (addr.toNat ∈ readOnlyOffsets → s.access lanes (.write addr .w4 v) = s) ∧
    s.access lanes (.write 0x00000008#32 .w4 v) = { s with status := s.status.writeClear v }

/-- A pending command runs with the values it was issued with (R101, R104, R380): whatever the host does in its turn,
the registers, CFG, both memories and BUSY stay. -/
def Obligations.PendingCommandIsProtected : Prop :=
  ∀ (s t : State) (lanes : Word) (rest : List Turn), s.status.busy = true → s.turns = .host lanes :: rest →
    step s = .next t →
    t.regs = s.regs ∧ t.cfg = s.cfg ∧ t.params = s.params ∧ t.buf = s.buf ∧ t.desc = s.desc ∧ t.status.busy = true

/-- A well-formed buffer write with BUSY = 0 (R85, R94): byte `i` of the access is byte `n-1-i` of the data, the other
bytes stay, and nothing else changes. -/
def Obligations.BufferWriteIsBigEndian : Prop :=
  ∀ (s : State) (lanes addr v : Word) (w : Width), s.params.wellFormed = true → s.buf.wf s.bufSize = true →
    s.status.busy = false → bufAccessOk s.params addr w = true →
    (∀ i, i < w.bytes →
      (byteAt (s.access lanes (.write addr w v)).buf (addr.toNat - 0x80000000 + i)).toNat =
        (v.toNat >>> (8 * (w.bytes - 1 - i))) % 256) ∧
    SameBufOutside (addr.toNat - 0x80000000) w.bytes s (s.access lanes (.write addr w v)) ∧
    s.access lanes (.write addr w v) = { s with buf := (s.access lanes (.write addr w v)).buf }

/-- A well-formed buffer read with BUSY = 0 (R85, R93): the sum of the bytes with the lowest offset most
significant. -/
def Obligations.BufferReadIsBigEndian : Prop :=
  ∀ (s : State) (lanes addr : Word) (w : Width), s.params.wellFormed = true → s.status.busy = false →
    bufAccessOk s.params addr w = true →
    ∃ v : Word, s.access lanes (.read addr w) = { s with readData := v } ∧
      v.toNat = ((List.range w.bytes).map (fun i =>
        (byteAt s.buf (addr.toNat - 0x80000000 + i)).toNat * 2 ^ (8 * (w.bytes - 1 - i)))).sum

/-- A descriptor read with BUSY = 0 (R96, R82): word `j` of entry `i`, for every entry, and nothing else changes. -/
def Obligations.DescriptorReadsReturnTheEntry : Prop :=
  ∀ (s : State) (lanes : Word) (i : Nat), s.params.wellFormed = true → s.status.busy = false → i < s.descCap →
    s.access lanes (.read (BitVec.ofNat 32 (0x00100000 + 16 * i)) .w4) =
      { s with readData := (descAt s.desc i).off } ∧
    s.access lanes (.read (BitVec.ofNat 32 (0x00100000 + 16 * i + 4)) .w4) =
      { s with readData := (descAt s.desc i).len } ∧
    s.access lanes (.read (BitVec.ofNat 32 (0x00100000 + 16 * i + 8)) .w4) =
      { s with readData := (descAt s.desc i).type } ∧
    s.access lanes (.read (BitVec.ofNat 32 (0x00100000 + 16 * i + 12)) .w4) =
      { s with readData := (descAt s.desc i).crc }

/-- A well-formed read of the buffer or descriptor window while a command is pending (R382) returns the draw, any value
in every byte lane of the bus, and changes no state and sets no flag. -/
def Obligations.BusyMemoryReadsReturnAnyValue : Prop :=
  ∀ (s : State) (addr : Word) (w : Width), s.params.wellFormed = true → s.status.busy = true →
    (bufAccessOk s.params addr w = true ∨ descAccessOk s.params addr w = true) →
    ∀ draw : Word, s.access draw (.read addr w) = { s with readData := draw }

/-- IRQ is DONE and IRQ_EN, a level: it is 0 after a write of 1 to STATUS.DONE and after an issue, and after a
completion it is IRQ_EN, error or not (R56, R345). -/
def Obligations.IrqFollowsDone : Prop :=
  (∀ s : State, s.irq = ((s.readReg .status).getLsbD 1 && (s.readReg .cfg).getLsbD 1)) ∧
  (∀ (s : State) (lanes w : Word), w.getLsbD 1 = true → (s.access lanes (.write 0x00000008#32 .w4 w)).irq = false) ∧
  (∀ (s : State) (lanes w : Word), s.status.busy = false →
    (s.access lanes (.write 0x00000004#32 .w4 w)).irq = false) ∧
  (∀ (i : Instr) (s t : State), exec i s = .next t → t.irq = s.cfg.irqEn)

/-- TYPE_FLAGS as bits of the type word (R170 to R176): the four bit-5 predicates with the inverted sense of
SAFE_TO_COPY, ALPHA, VALID, and zeros above. The letter ranges of the ALPHA clause, and so of VALID, are what the spec
takes from general knowledge (notes/assumptions/10.md, PRESUMED). -/
def Obligations.TypeFlagsBits : Prop :=
  ∀ t : Word,
    ((typeFlags t).getLsbD 0 = true ↔
      ∀ k, k < 4 → (0x41 ≤ t.toNat >>> (8 * k) % 256 ∧ t.toNat >>> (8 * k) % 256 ≤ 0x5A) ∨
        (0x61 ≤ t.toNat >>> (8 * k) % 256 ∧ t.toNat >>> (8 * k) % 256 ≤ 0x7A)) ∧
    (typeFlags t).getLsbD 1 = !t.getLsbD 29 ∧
    (typeFlags t).getLsbD 2 = !t.getLsbD 21 ∧
    (typeFlags t).getLsbD 3 = !t.getLsbD 13 ∧
    (typeFlags t).getLsbD 4 = t.getLsbD 5 ∧
    (typeFlags t).getLsbD 5 = ((typeFlags t).getLsbD 0 && (typeFlags t).getLsbD 3) ∧
    (∀ i, 6 ≤ i → (typeFlags t).getLsbD i = false)

/-! ## Whole-machine rules -/

/-- Each command writes only the registers of its row (R60): the others, CFG, the sizes and the model's own fields stay,
the buffer stays unless the command is CHUNK_EMIT or SIG_EMIT, which write only their own bytes from DST, and the
descriptor table stays unless it is STREAM_PARSE. -/
def Obligations.CommandsWriteOnlyTheirRow : Prop :=
  ∀ (i : Instr) (s t : State), exec i s = .next t →
    SameRegsBut (writesRegs i) s t ∧ SameRest s t ∧
    (i ≠ .chunkEmit → i ≠ .sigEmit → SameBuf s t) ∧ (i ≠ .streamParse → SameDesc s t) ∧
    (i = .chunkEmit → SameBufOutside (s.num .dst) (12 + s.num .len) s t) ∧
    (i = .sigEmit → SameBufOutside (s.num .dst) 8 s t)

/-- A command's outcome depends on the operands of its row alone (R134): on two states that agree on them, it ends with
the same error or none, and leaves every register of its R60 row, every byte of the buffer and every descriptor either
equal in both or as it was in both. The memories are in canonical form, which the invariant gives. -/
def Obligations.CommandsDependOnTheirOperandsOnly : Prop :=
  ∀ (i : Instr) (s u t v : State), AgreeOnOperands i s u → exec i s = .next t → exec i u = .next v →
    v.status.err = t.status.err ∧ v.status.errCode = t.status.errCode ∧
    (∀ r, r ∈ writesRegs i → SameOutcome (s.reg r) (u.reg r) (t.reg r) (v.reg r)) ∧
    (s.buf.wf s.bufSize = true → u.buf.wf u.bufSize = true →
      ∀ a, SameOutcome (byteAt s.buf a) (byteAt u.buf a) (byteAt t.buf a) (byteAt v.buf a)) ∧
    (s.desc.wf s.descCap = true → u.desc.wf u.descCap = true →
      ∀ k, SameOutcome (descAt s.desc k) (descAt u.desc k) (descAt t.desc k) (descAt v.desc k))

/-- The codes a command ends with are those of its row (R330, R340), and no engine step raises a reserved code
(R331). -/
def Obligations.CommandsRaiseOnlyTheirErrors : Prop :=
  (∀ (i : Instr) (s t : State), exec i s = .next t → t.status.errCode = 0#4 ∨ t.status.errCode ∈ raises i) ∧
  (∀ (s t : State) (rest : List Turn), EngineNext s rest → s.status.busy = true → step s = .next t →
    t.status.errCode ∉ [6#4, 7#4, 12#4, 13#4, 14#4, 15#4])

/-- A command becomes pending only by a host write of its word to CMD (R139), and stops being pending only by the
engine's completion or a reset (R141, R370). -/
def Obligations.BusyChangesOnlyByIssueAndCompletion : Prop :=
  ∀ s t : State, step s = .next t →
    (s.status.busy = false → t.status.busy = true →
      ∃ (w : Word) (ops : List HostOp), s.hostProg = .access (.write 0x00000004#32 .w4 w) :: ops ∧ t.reg .cmd = w) ∧
    (s.status.busy = true → t.status.busy = false →
      t.status.done = true ∨ ∃ rest, s.turns = .reset :: rest)

/-- HAZ and BUSERR are sticky (R387): a step that clears one is a reset or a host write to STATUS with its bit 1. -/
def Obligations.StickyFlagsStayUntilCleared : Prop :=
  ∀ s t : State, step s = .next t → (∀ rest, s.turns ≠ .reset :: rest) →
    (s.status.haz = true → t.status.haz = false →
      ∃ (w : Word) (ops : List HostOp), s.hostProg = .access (.write 0x00000008#32 .w4 w) :: ops ∧ w.getLsbD 3 = true) ∧
    (s.status.busErr = true → t.status.busErr = false →
      ∃ (w : Word) (ops : List HostOp), s.hostProg = .access (.write 0x00000008#32 .w4 w) :: ops ∧ w.getLsbD 4 = true)

/-- Only STREAM_PARSE writes the descriptor table and CHUNK_COUNT, apart from the reset of CHUNK_COUNT; the sizes never
change (R48, R52, R53). -/
def Obligations.OnlyStreamParseWritesDescriptors : Prop :=
  ∀ s t : State, step s = .next t →
    t.params = s.params ∧
    ((¬ SameDesc s t ∨ (t.reg .chunkCount ≠ s.reg .chunkCount ∧ ∀ rest, s.turns ≠ .reset :: rest)) →
      s.status.busy = true ∧ s.reg .cmd = 0x00000031#32)

/-! ## Control (44_control.md) -/

/-- NOP (R310): word 0x00000000; completes without effect. -/
def Obligations.NopOnlyCompletes : Prop :=
  decode 0x00000000#32 = .ok .nop ∧ ∀ s : State, ∃ t, exec .nop s = .next t ∧ EndedOk s t ∧ OnlyRegs [] s t

/-- An illegal word (R311): the engine's step raises ILLEGAL_CMD, no operand is read and nothing else changes, and CMD
keeps the word; a nonzero bit in [31:8] makes a word illegal whatever its low byte. -/
def Obligations.IllegalWordRaisesIllegalCmd : Prop :=
  ∀ (s : State) (rest : List Turn), EngineNext s rest → s.status.busy = true →
    ((s.reg .cmd).extractLsb' 8 24 ≠ 0#24 ∨
      (s.reg .cmd).extractLsb' 0 8 ∉ [0x00#8, 0x01#8, 0x02#8, 0x03#8, 0x04#8, 0x05#8, 0x10#8, 0x20#8, 0x21#8, 0x30#8,
        0x31#8, 0x32#8]) →
    ∃ t, step s = .next t ∧ EndedWith 8#4 s t ∧ OnlyRegs [] { s with turns := rest } t

/-! ## CRC (41_crc.md) -/

/-- The CRC-32 of R200: a register of width 32 divided, in normal bit order, by the polynomial with the exponents R200
lists (0x04C11DB7, whose bits reversed are 0xEDB88320), over the bits of the bytes taken least significant first,
from 0xFFFFFFFF, read out in reversed bit order, XORed with 0xFFFFFFFF; and its check value. -/
def Obligations.CrcIsTheStatedPolynomial : Prop :=
  (∀ i, i < 32 → ((0x04C11DB7#32).getLsbD i = true ↔ i ∈ [26, 23, 22, 16, 12, 11, 10, 8, 7, 5, 4, 2, 1, 0])) ∧
  (0x04C11DB7#32).reverse = 0xEDB88320#32 ∧
  (∀ bs : List Byte,
    crc32 bs = ((messageBits bs).foldl divideStep 0xFFFFFFFF#32).reverse ^^^ 0xFFFFFFFF#32) ∧
  crc32 [0x31#8, 0x32#8, 0x33#8, 0x34#8, 0x35#8, 0x36#8, 0x37#8, 0x38#8, 0x39#8] = 0xCBF43926#32

/-- A change of one byte of a message, and so of one bit of a chunk's type or data, changes its CRC-32 (R206). -/
def Obligations.CrcDetectsAChangedByte : Prop :=
  (∀ (bs : List Byte) (i : Nat) (b : Byte) (h : i < bs.length), b ≠ bs[i] → crc32 (bs.set i b) ≠ crc32 bs) ∧
  (∀ (t t' : Word) (d : List Byte) (k : Nat), k < 32 → t' = t ^^^ (1#32 <<< k) → chunkCrc t' d ≠ chunkCrc t d) ∧
  (∀ (t : Word) (d : List Byte) (i : Nat) (b : Byte) (h : i < d.length), b ≠ d[i] →
    chunkCrc t (d.set i b) ≠ chunkCrc t d)

/-- CRC_INIT (R210): CRC_ACC is 0xFFFFFFFF. -/
def Obligations.CrcInitStartsAFreshCrc : Prop :=
  decode 0x00000001#32 = .ok .crcInit ∧
  ∀ s : State, ∃ t, exec .crcInit s = .next t ∧ t.reg .crcAcc = 0xFFFFFFFF#32 ∧ EndedOk s t ∧ OnlyRegs [.crcAcc] s t

/-- CRC_UPDATE (R211): the window is folded into CRC_ACC, any value of it; a window outside the buffer is RANGE and
changes nothing. -/
def Obligations.CrcUpdateFoldsTheWindow : Prop :=
  decode 0x00000002#32 = .ok .crcUpdate ∧
  ∀ s : State,
    (s.num .src + s.num .len ≤ s.bufSize →
      ∃ t, exec .crcUpdate s = .next t ∧
        t.reg .crcAcc = (bytesAt s.buf (s.num .src) (s.num .len)).foldl crcByte (s.reg .crcAcc) ∧
        EndedOk s t ∧ OnlyRegs [.crcAcc] s t) ∧
    (s.bufSize < s.num .src + s.num .len → FailsWith .crcUpdate s 9#4)

/-- CRC_FINAL (R212): CRC_RESULT is CRC_ACC inverted, and CRC_ACC stays. -/
def Obligations.CrcFinalInvertsTheState : Prop :=
  decode 0x00000003#32 = .ok .crcFinal ∧
  ∀ s : State, ∃ t, exec .crcFinal s = .next t ∧ t.reg .crcResult = s.reg .crcAcc ^^^ 0xFFFFFFFF#32 ∧ EndedOk s t ∧
    OnlyRegs [.crcResult] s t

/-- CRC_BLOCK (R213): CRC_RESULT is the CRC-32 of the window; CRC_ACC is neither read nor written. -/
def Obligations.CrcBlockIsTheCrcOfTheWindow : Prop :=
  decode 0x00000004#32 = .ok .crcBlock ∧
  ∀ s : State,
    (s.num .src + s.num .len ≤ s.bufSize →
      ∃ t, exec .crcBlock s = .next t ∧ t.reg .crcResult = crc32 (bytesAt s.buf (s.num .src) (s.num .len)) ∧
        EndedOk s t ∧ OnlyRegs [.crcResult] s t) ∧
    (s.bufSize < s.num .src + s.num .len → FailsWith .crcBlock s 9#4)

/-- CRC_CHUNK (R214): CRC_RESULT is the CRC-32 of the four type bytes, TYPE[31:24] first, and the window. -/
def Obligations.CrcChunkCoversTypeAndData : Prop :=
  decode 0x00000005#32 = .ok .crcChunk ∧
  ∀ s : State,
    (s.num .src + s.num .len ≤ s.bufSize →
      ∃ t, exec .crcChunk s = .next t ∧
        t.reg .crcResult =
          crc32 ([(s.reg .type).extractLsb' 24 8, (s.reg .type).extractLsb' 16 8, (s.reg .type).extractLsb' 8 8,
            (s.reg .type).extractLsb' 0 8] ++ bytesAt s.buf (s.num .src) (s.num .len)) ∧
        EndedOk s t ∧ OnlyRegs [.crcResult] s t) ∧
    (s.bufSize < s.num .src + s.num .len → FailsWith .crcChunk s 9#4)

/-- An incremental CRC over a window split in two equals the one-shot CRC over the whole window (R202, R210 to R213).
`a` and `b` are the states in which the host has set SRC and LEN for the second update and for CRC_BLOCK. -/
def Obligations.SplitCrcEqualsBlockCrc : Prop :=
  ∀ (s t1 t2 t3 t4 v : State) (n m : Nat), s.num .src + n + m ≤ s.bufSize → s.num .len = n →
    exec .crcInit s = .next t1 → exec .crcUpdate t1 = .next t2 →
    exec .crcUpdate ((t2.setReg .src (BitVec.ofNat 32 (s.num .src + n))).setReg .len (BitVec.ofNat 32 m)) = .next t3 →
    exec .crcFinal t3 = .next t4 →
    exec .crcBlock (s.setReg .len (BitVec.ofNat 32 (n + m))) = .next v →
    t4.reg .crcResult = v.reg .crcResult

/-! ## Chunk type (40_chunk_type.md) -/

/-- TYPE_FROM_TEXT (R180): RANGE, then FORMAT_LENGTH, then FORMAT_CHAR, each leaving TYPE as it was, and else TYPE is
the four bytes, the first in [31:24]; ALPHA is then set. -/
def Obligations.TypeFromTextLoadsCheckedText : Prop :=
  decode 0x00000010#32 = .ok .typeFromText ∧
  ∀ s : State,
    (s.bufSize < s.num .src + s.num .len → FailsWith .typeFromText s 9#4) ∧
    (s.num .src + s.num .len ≤ s.bufSize → s.num .len ≠ 4 → FailsWith .typeFromText s 1#4) ∧
    (s.num .src + s.num .len ≤ s.bufSize → s.num .len = 4 →
      (∃ k, k < 4 ∧ alpha (byteAt s.buf (s.num .src + k)) = false) → FailsWith .typeFromText s 2#4) ∧
    (s.num .src + s.num .len ≤ s.bufSize → s.num .len = 4 →
      (∀ k, k < 4 → alpha (byteAt s.buf (s.num .src + k)) = true) →
      ∃ t, exec .typeFromText s = .next t ∧
        (t.reg .type).toNat =
          (byteAt s.buf (s.num .src)).toNat * 2 ^ 24 + (byteAt s.buf (s.num .src + 1)).toNat * 2 ^ 16 +
            (byteAt s.buf (s.num .src + 2)).toNat * 2 ^ 8 + (byteAt s.buf (s.num .src + 3)).toNat ∧
        (t.readReg .typeFlags).getLsbD 0 = true ∧ EndedOk s t ∧ OnlyRegs [.type] s t)

/-! ## Chunks (42_chunk.md) -/

/-- CHUNK_EMIT (R240, R241): LENGTH_LIMIT under STRICT_LEN, then RANGE for either window, each writing nothing; else the
on-wire chunk of TYPE and of the data as they stood before the step is at DST, CRC_RESULT is its CRC, NEXT_OFF is the
offset after it, and no other byte changes. -/
def Obligations.ChunkEmitWritesTheChunk : Prop :=
  decode 0x00000020#32 = .ok .chunkEmit ∧
  ∀ s : State, s.buf.wf s.bufSize = true →
    (OverLimit s (s.num .len) → FailsWith .chunkEmit s 11#4) ∧
    (¬ OverLimit s (s.num .len) →
      (s.bufSize < s.num .src + s.num .len ∨ s.bufSize < s.num .dst + 12 + s.num .len) →
      FailsWith .chunkEmit s 9#4) ∧
    (¬ OverLimit s (s.num .len) → s.num .src + s.num .len ≤ s.bufSize →
      s.num .dst + 12 + s.num .len ≤ s.bufSize →
      ∃ t, exec .chunkEmit s = .next t ∧
        HoldsAt t.buf (s.num .dst)
          (bytesBe32 (s.reg .len) ++ bytesBe32 (s.reg .type) ++ bytesAt s.buf (s.num .src) (s.num .len) ++
            bytesBe32 (crc32 (bytesBe32 (s.reg .type) ++ bytesAt s.buf (s.num .src) (s.num .len)))) ∧
        t.reg .crcResult = crc32 (bytesBe32 (s.reg .type) ++ bytesAt s.buf (s.num .src) (s.num .len)) ∧
        (t.reg .nextOff).toNat = s.num .dst + 12 + s.num .len ∧
        EndedOk s t ∧ SameRegsBut [.crcResult, .nextOff] s t ∧
        SameBufOutside (s.num .dst) (12 + s.num .len) s t ∧ SameDesc s t ∧ SameRest s t)

/-- CHUNK_PARSE (R250, R232, R233): RANGE; TRUNCATED with no length field; LENGTH_LIMIT; TRUNCATED; each writing nothing;
else the five registers show the chunk, and the command ends with CRC_MISMATCH exactly when its stored and computed CRCs
differ. Bytes after the chunk are ignored (R235). -/
def Obligations.ChunkParseValidatesTheChunk : Prop :=
  decode 0x00000021#32 = .ok .chunkParse ∧
  ∀ s : State,
    (s.bufSize < s.num .src + s.num .len → FailsWith .chunkParse s 9#4) ∧
    (s.num .src + s.num .len ≤ s.bufSize → ∀ code, ChunkUnreadable s (s.num .src) (s.num .src + s.num .len) code →
      FailsWith .chunkParse s code) ∧
    (s.num .src + s.num .len ≤ s.bufSize → ChunkFits s (s.num .src) (s.num .src + s.num .len) →
      ∃ t, exec .chunkParse s = .next t ∧ ChunkRegs s.buf (s.num .src) t ∧ OnlyRegs chunkRegList s t ∧
        (storedCrcAt s.buf (s.num .src) = computedCrcAt s.buf (s.num .src) → EndedOk s t) ∧
        (storedCrcAt s.buf (s.num .src) ≠ computedCrcAt s.buf (s.num .src) → EndedWith 3#4 s t))

/-- Round trip (R242): a chunk emitted without error parses without error, from its own bytes in a window at least as
long, to the same length, type and CRC, and its data stand at DST + 8. -/
def Obligations.EmittedChunkParses : Prop :=
  ∀ s t u : State, s.Inv → exec .chunkEmit s = .next t → t.status.err = false →
    u.params = s.params → u.cfg.strictLen = s.cfg.strictLen → u.reg .src = s.reg .dst →
    12 + s.num .len ≤ u.num .len → u.num .src + u.num .len ≤ u.bufSize →
    (∀ a, s.num .dst ≤ a → a < s.num .dst + 12 + s.num .len → byteAt u.buf a = byteAt t.buf a) →
    ∃ v, exec .chunkParse u = .next v ∧ EndedOk u v ∧ v.reg .chunkLen = s.reg .len ∧ v.reg .chunkType = s.reg .type ∧
      v.reg .chunkCrc = t.reg .crcResult ∧ v.reg .calcCrc = t.reg .crcResult ∧
      (v.reg .nextOff).toNat = s.num .dst + 12 + s.num .len ∧
      bytesAt u.buf (s.num .dst + 8) (s.num .len) = bytesAt s.buf (s.num .src) (s.num .len)

/-- STRICT_LEN changes only which error is reported (R236): on a machine that meets R6, CHUNK_PARSE with STRICT_LEN = 1
ends as with STRICT_LEN = 0, but for LENGTH_LIMIT in place of TRUNCATED. -/
def Obligations.StrictLenChangesOnlyTheError : Prop :=
  ∀ s t u : State, s.params.wellFormed = true → s.cfg.strictLen = true →
    exec .chunkParse s = .next t → exec .chunkParse { s with cfg := { s.cfg with strictLen := false } } = .next u →
    t.regs = u.regs ∧ t.buf = u.buf ∧ t.desc = u.desc ∧
    (t.status = u.status ∨ (t.status.errCode = 11#4 ∧ u.status.errCode = 4#4))

/-! ## Streams (43_container.md) -/

/-- SIG_EMIT (R270): the eight signature bytes at DST and NEXT_OFF = DST + 8, or RANGE with nothing written. -/
def Obligations.SigEmitWritesTheSignature : Prop :=
  decode 0x00000030#32 = .ok .sigEmit ∧
  ∀ s : State, s.buf.wf s.bufSize = true →
    (s.num .dst + 8 ≤ s.bufSize →
      ∃ t, exec .sigEmit s = .next t ∧
        HoldsAt t.buf (s.num .dst) [0x89#8, 0x50#8, 0x4E#8, 0x47#8, 0x0D#8, 0x0A#8, 0x1A#8, 0x0A#8] ∧
        (t.reg .nextOff).toNat = s.num .dst + 8 ∧ EndedOk s t ∧ SameRegsBut [.nextOff] s t ∧
        SameBufOutside (s.num .dst) 8 s t ∧ SameDesc s t ∧ SameRest s t) ∧
    (s.bufSize < s.num .dst + 8 → FailsWith .sigEmit s 9#4)

/-- STREAM_PARSE that succeeds (R275): if the walk passes `n` chunks and then stands at the end of the stream, CHUNK_COUNT
is `n`, the descriptors are those of the chunks in stream order and the others stay, FAIL_INDEX and FAIL_OFF are
0xFFFFFFFF, NEXT_OFF is the end, and the chunk registers show the last chunk, or stay if there is none. -/
def Obligations.StreamParseDescribesEveryChunk : Prop :=
  decode 0x00000031#32 = .ok .streamParse ∧
  ∀ (s : State) (n : Nat), s.desc.wf s.descCap = true → WalkReaches s n →
    cursor s.buf (firstChunk s) n = streamEnd s →
    ∃ t, exec .streamParse s = .next t ∧ EndedOk s t ∧ s.num .src + s.num .len = (t.reg .nextOff).toNat ∧
      t.num .chunkCount = n ∧ t.reg .failIndex = 0xFFFFFFFF#32 ∧ t.reg .failOff = 0xFFFFFFFF#32 ∧ DescsWritten n s t ∧
      (∀ k, n = k + 1 → ChunkRegs s.buf (cursor s.buf (firstChunk s) k) t) ∧
      (n = 0 → ∀ r, r ∈ chunkValueRegs → t.reg r = s.reg r) ∧
      SameRegsBut streamRegs s t ∧ SameBuf s t ∧ SameRest s t

/-- STREAM_PARSE that fails before the walk (R275): RANGE writes nothing; a short window or a wrong signature is
SIG_MISMATCH with CHUNK_COUNT = 0, FAIL_INDEX = 0 and FAIL_OFF = SRC. -/
def Obligations.StreamParseChecksTheSignature : Prop :=
  ∀ s : State,
    (s.bufSize < s.num .src + s.num .len → FailsWith .streamParse s 9#4) ∧
    (s.num .src + s.num .len ≤ s.bufSize → ¬ SigPresent s →
      ∃ t, exec .streamParse s = .next t ∧ EndedWith 5#4 s t ∧ t.reg .chunkCount = 0#32 ∧ t.reg .failIndex = 0#32 ∧
        t.reg .failOff = s.reg .src ∧ OnlyRegs [.chunkCount, .failIndex, .failOff] s t)

/-- STREAM_PARSE that fails at chunk `n` (R275, R276, R340): DESC_OVERFLOW when the table is full, then the error of
ParseChunk; CHUNK_COUNT = 0, FAIL_INDEX = `n`, FAIL_OFF is the chunk's offset, the descriptors below `n` are those of
the chunks before it and the others stay; for CRC_MISMATCH the five registers show the failing chunk, otherwise they
show the one before it, or stay. -/
def Obligations.StreamParseFailsAtTheFirstBadChunk : Prop :=
  ∀ (s : State) (n off : Nat) (code : BitVec 4), s.desc.wf s.descCap = true → WalkReaches s n →
    off = cursor s.buf (firstChunk s) n → off < streamEnd s →
    (n = s.descCap ∧ code = 10#4 ∨
      n < s.descCap ∧ ChunkUnreadable s off (streamEnd s) code ∨
      n < s.descCap ∧ ChunkFits s off (streamEnd s) ∧ storedCrcAt s.buf off ≠ computedCrcAt s.buf off ∧ code = 3#4) →
    ∃ t, exec .streamParse s = .next t ∧ EndedWith code s t ∧ t.reg .chunkCount = 0#32 ∧ t.num .failIndex = n ∧
      t.num .failOff = off ∧ DescsWritten n s t ∧
      (code = 3#4 → ChunkRegs s.buf off t) ∧
      (code ≠ 3#4 → ∀ k, n = k + 1 → ChunkRegs s.buf (cursor s.buf (firstChunk s) k) t) ∧
      (code ≠ 3#4 → n = 0 → ∀ r, r ∈ chunkRegList → t.reg r = s.reg r) ∧
      SameRegsBut streamRegs s t ∧ SameBuf s t ∧ SameRest s t

/-- After a STREAM_PARSE that failed, FIND_TYPE finds nothing, unless the error was RANGE, which leaves the last parse
(R276). -/
def Obligations.FailedParseLeavesNoContainer : Prop :=
  ∀ s t : State, exec .streamParse s = .next t → t.status.err = true → t.status.errCode ≠ 9#4 →
    t.reg .chunkCount = 0#32 ∧
    ∀ w : Word, ∃ u, exec .findType (t.setReg .type w) = .next u ∧ u.reg .findIndex = 0xFFFFFFFF#32 ∧
      u.status.err = false

/-- A walk that succeeds parses at most (LEN - 8) / 12 chunks, and its descriptors lead from the end of the signature to
the end of the stream, each cursor 12 + L after the one before (R277). -/
def Obligations.SuccessfulWalkTilesTheStream : Prop :=
  ∀ s t : State, s.desc.wf s.descCap = true → exec .streamParse s = .next t → t.status.err = false →
    8 ≤ s.num .len ∧ t.num .chunkCount ≤ (s.num .len - 8) / 12 ∧ t.num .chunkCount ≤ s.descCap ∧
    (0 < t.num .chunkCount → (descAt t.desc 0).off.toNat = s.num .src + 8) ∧
    (∀ k, k < t.num .chunkCount →
      (descAt t.desc k).off.toNat + 12 + (descAt t.desc k).len.toNat =
        if k + 1 < t.num .chunkCount then (descAt t.desc (k + 1)).off.toNat else s.num .src + s.num .len) ∧
    (t.num .chunkCount = 0 → s.num .len = 8)

/-- Round trip of a stream (R278): a window that holds the signature and then the on-wire chunks of `cs` parses without
error to one descriptor per chunk, in order. -/
def Obligations.GeneratedStreamParses : Prop :=
  ∀ (s : State) (cs : List (Word × List Byte)), s.desc.wf s.descCap = true →
    s.num .src + s.num .len ≤ s.bufSize →
    s.num .len = (sigBytes ++ cs.flatMap (fun c => chunkBytes c.1 c.2)).length →
    HoldsAt s.buf (s.num .src) (sigBytes ++ cs.flatMap (fun c => chunkBytes c.1 c.2)) →
    cs.length ≤ s.descCap → (s.cfg.strictLen = true → ∀ c, c ∈ cs → c.2.length < 2 ^ 31) →
    ∃ t, exec .streamParse s = .next t ∧ EndedOk s t ∧ t.num .chunkCount = cs.length ∧
      ∀ (j : Nat) (h : j < cs.length),
        descAt t.desc j =
          { off := BitVec.ofNat 32 (s.num .src + 8 + ((cs.take j).map (fun c => 12 + c.2.length)).sum)
            len := BitVec.ofNat 32 cs[j].2.length
            type := cs[j].1
            crc := chunkCrc cs[j].1 cs[j].2 }

/-- FIND_TYPE (R290, R291): FIND_INDEX is the lowest index below CHUNK_COUNT whose D_TYPE is TYPE, all 32 bits compared,
or 0xFFFFFFFF where there is none, with no error either way. -/
def Obligations.FindTypeFindsTheFirst : Prop :=
  decode 0x00000032#32 = .ok .findType ∧
  ∀ s : State,
    (∀ i, i < s.num .chunkCount → (descAt s.desc i).type = s.reg .type →
      (∀ j, j < i → (descAt s.desc j).type ≠ s.reg .type) →
      ∃ t, exec .findType s = .next t ∧ t.num .findIndex = i ∧ EndedOk s t ∧ OnlyRegs [.findIndex] s t) ∧
    ((∀ i, i < s.num .chunkCount → (descAt s.desc i).type ≠ s.reg .type) →
      ∃ t, exec .findType s = .next t ∧ t.reg .findIndex = 0xFFFFFFFF#32 ∧ EndedOk s t ∧ OnlyRegs [.findIndex] s t)

/-! ## Host programs (30_encoding.md R150, R151) -/

/-- What the statements and pseudo-instructions of a host program put on the bus (R150, R151), for every address
expression: each register name, `buf+N`, `desc[i].D_x` and number stands for its address, which is below 2^32 where the
expression is well-formed; the statements of a program follow each other in its order. Two clauses are the model's
readings: `wait` is one operation (notes/assumptions/14.md, DEDUCED), and the bytes of the text of a `put` are the
ASCII codes of its characters (notes/assumptions/10.md, PRESUMED). -/
def Obligations.HostStatementsExpand : Prop :=
  (∀ (a : Loc) (v : Word),
    expandStmt (.sw a v) = [busWrite (addressOf a) .w4 v] ∧ expandStmt (.sh a v) = [busWrite (addressOf a) .w2 v] ∧
    expandStmt (.sb a v) = [busWrite (addressOf a) .w1 v]) ∧
  (∀ a : Loc,
    expandStmt (.lw a) = [busRead (addressOf a) .w4] ∧ expandStmt (.lh a) = [busRead (addressOf a) .w2] ∧
    expandStmt (.lb a) = [busRead (addressOf a) .w1]) ∧
  (∀ a : Loc, a.wellFormed = true → addressOf a < 2 ^ 32) ∧
  (∀ i : Instr, expandStmt (.cmd i) = [busWrite 0x004 .w4 (encode i)] ∧
    expandStmt (.run i) = [busWrite 0x004 .w4 (encode i)] ++ expandStmt .wait) ∧
  expandStmt .wait = [.wait] ∧
  expandStmt .clr = [busWrite 0x008 .w4 0x0000001E#32] ∧
  (∀ (n : Nat) (bytes : List Byte),
    expandStmt (.putBytes n bytes) =
      bytes.mapIdx (fun i b => busWrite (0x80000000 + (n + i)) .w1 (b.setWidth 32))) ∧
  (∀ (n : Nat) (text : List Char), (∀ c, c ∈ text → c.toNat < 128) →
    expandStmt (.putText n text) =
      text.mapIdx (fun i c => busWrite (0x80000000 + (n + i)) .w1 (BitVec.ofNat 32 c.toNat))) ∧
  (∀ (st : Stmt) (prog : List Stmt), expandProgram (st :: prog) = expandStmt st ++ expandProgram prog) ∧
  expandProgram [] = []
end

