-- ==== Sys2Proof/Laws/Tables.lean ====
section
/-!
SUPPORT. The laws of the sparse tables: a read after a write, what a write leaves alone, the canonical form, and that
two tables in canonical form that read the same are the same data.
-/
namespace Sys2Proof.Machine

variable {α : Type} [DecidableEq α]

theorem tableGet_cons_ne (d : α) (k j : Nat) (v : α) (rest : List (Nat × α)) (h : j ≠ k) :
    tableGet d (tableCons d k v rest) j = tableGet d rest j := by
  unfold tableCons; split <;> simp [tableGet, h]

/-- A write leaves every other key alone, whatever the form of the table. -/
theorem tableGet_set_ne (d : α) (t : List (Nat × α)) (k j : Nat) (v : α) (h : j ≠ k) :
    tableGet d (tableSet d t k v) j = tableGet d t j := by
  induction t with
  | nil => exact tableGet_cons_ne d k j v [] h
  | cons e rest ih =>
    obtain ⟨i, u⟩ := e
    simp only [tableSet]
    split
    · exact tableGet_cons_ne d k j v _ h
    · split
      · next hk => subst hk; rw [tableGet_cons_ne d k j v rest h]; simp [tableGet, h]
      · simp only [tableGet, ih]

theorem tableWf_mono (d : α) (hi lo lo' : Nat) (t : List (Nat × α)) (h : tableWf d hi lo t = true) (hl : lo' ≤ lo) :
    tableWf d hi lo' t = true := by
  cases t with
  | nil => rfl
  | cons e rest =>
    obtain ⟨k, v⟩ := e
    simp only [tableWf, Bool.and_eq_true, decide_eq_true_eq] at h ⊢
    exact ⟨⟨⟨by omega, h.1.1.2⟩, h.1.2⟩, h.2⟩

/-- A key below every entry is not listed. -/
theorem tableGet_below (d : α) (hi lo k : Nat) (t : List (Nat × α)) (h : tableWf d hi lo t = true) (hk : k < lo) :
    tableGet d t k = d := by
  induction t generalizing lo with
  | nil => rfl
  | cons e rest ih =>
    obtain ⟨i, u⟩ := e
    simp only [tableWf, Bool.and_eq_true, decide_eq_true_eq] at h
    have : k ≠ i := by omega
    simp only [tableGet, this, if_false]
    exact ih (i + 1) h.2 (by omega)

/-- A key outside the table's range is not listed. -/
theorem tableGet_above (d : α) (hi lo k : Nat) (t : List (Nat × α)) (h : tableWf d hi lo t = true) (hk : hi ≤ k) :
    tableGet d t k = d := by
  induction t generalizing lo with
  | nil => rfl
  | cons e rest ih =>
    obtain ⟨i, u⟩ := e
    simp only [tableWf, Bool.and_eq_true, decide_eq_true_eq] at h
    have : k ≠ i := by omega
    simp only [tableGet, this, if_false]
    exact ih (i + 1) h.2

theorem tableGet_cons_self (d : α) (hi k : Nat) (v : α) (rest : List (Nat × α))
    (h : tableWf d hi (k + 1) rest = true) : tableGet d (tableCons d k v rest) k = v := by
  unfold tableCons; split
  · next hv => rw [hv]; exact tableGet_below d hi (k + 1) k rest h (by omega)
  · simp [tableGet]

/-- A read after a write to the same key gives the value written. -/
theorem tableGet_set_self (d : α) (hi lo : Nat) (t : List (Nat × α)) (k : Nat) (v : α)
    (h : tableWf d hi lo t = true) : tableGet d (tableSet d t k v) k = v := by
  induction t generalizing lo with
  | nil => exact tableGet_cons_self d hi k v [] rfl
  | cons e rest ih =>
    obtain ⟨i, u⟩ := e
    have hw := h
    simp only [tableWf, Bool.and_eq_true, decide_eq_true_eq] at h
    simp only [tableSet]
    split
    · next hlt =>
      refine tableGet_cons_self d hi k v _ ?_
      simp only [tableWf, Bool.and_eq_true, decide_eq_true_eq]
      exact ⟨⟨⟨by omega, h.1.1.2⟩, h.1.2⟩, h.2⟩
    · split
      · next hk => subst hk; exact tableGet_cons_self d hi k v rest h.2
      · next hne => simp only [tableGet, hne, if_false]; exact ih (i + 1) h.2

theorem tableCons_wf (d : α) (hi lo k : Nat) (v : α) (rest : List (Nat × α)) (hk : k < hi) (hl : lo ≤ k)
    (h : tableWf d hi (k + 1) rest = true) : tableWf d hi lo (tableCons d k v rest) = true := by
  unfold tableCons; split
  · exact tableWf_mono d hi (k + 1) lo rest h (by omega)
  · next hv => simp [tableWf, hk, hl, hv, h]

/-- A write keeps the canonical form. -/
theorem tableSet_wf (d : α) (hi lo : Nat) (t : List (Nat × α)) (k : Nat) (v : α) (hk : k < hi) (hl : lo ≤ k)
    (h : tableWf d hi lo t = true) : tableWf d hi lo (tableSet d t k v) = true := by
  induction t generalizing lo with
  | nil => exact tableCons_wf d hi lo k v [] hk hl rfl
  | cons e rest ih =>
    obtain ⟨i, u⟩ := e
    simp only [tableWf, Bool.and_eq_true, decide_eq_true_eq] at h
    simp only [tableSet]
    split
    · refine tableCons_wf d hi lo k v _ hk hl ?_
      simp only [tableWf, Bool.and_eq_true, decide_eq_true_eq]
      exact ⟨⟨⟨by omega, h.1.1.2⟩, h.1.2⟩, h.2⟩
    · split
      · next hki => subst hki; exact tableCons_wf d hi lo k v rest hk hl h.2
      · simp only [tableWf, Bool.and_eq_true, decide_eq_true_eq]
        exact ⟨⟨⟨h.1.1.1, h.1.1.2⟩, h.1.2⟩, ih (i + 1) (by omega) h.2⟩

/-- The table of a function reads as the function on its keys. -/
theorem tableOfFn_wf (d : α) (f : Nat → α) (hi lo k n : Nat) (hl : lo ≤ k) (hk : k + n ≤ hi) :
    tableWf d hi lo (tableOfFn d f k n) = true := by
  induction n generalizing k lo with
  | zero => rfl
  | succ n ih => exact tableCons_wf d hi lo k (f k) _ (by omega) hl (ih (k + 1) (k + 1) (by omega) (by omega))

theorem tableGet_ofFn (d : α) (f : Nat → α) (k n j : Nat) (h1 : k ≤ j) (h2 : j < k + n) :
    tableGet d (tableOfFn d f k n) j = f j := by
  induction n generalizing k with
  | zero => omega
  | succ n ih =>
    simp only [tableOfFn]
    by_cases hj : j = k
    · subst hj
      exact tableGet_cons_self d (j + 1 + n) j (f j) _ (tableOfFn_wf d f _ _ (j + 1) n (by omega) (by omega))
    · rw [tableGet_cons_ne d k j (f k) _ hj]; exact ih (k + 1) (by omega) (by omega)

/-- The table of the default everywhere lists nothing. -/
theorem tableOfFn_default (d : α) (f : Nat → α) (hf : ∀ i, f i = d) (k n : Nat) : tableOfFn d f k n = [] := by
  induction n generalizing k with
  | zero => rfl
  | succ n ih => simp [tableOfFn, tableCons, hf, ih]

theorem table_eq_of_get_lt (d : α) (hi lo k : Nat) (v : α) (r t : List (Nat × α))
    (hv : v ≠ d) (ht : tableWf d hi lo t = true) (hk : k < lo)
    (h : ∀ j, tableGet d ((k, v) :: r) j = tableGet d t j) : False := by
  have h1 := h k
  rw [tableGet_below d hi lo k t ht hk] at h1
  simp [tableGet] at h1
  exact hv h1

/-- Two tables in canonical form that read the same are the same data. -/
theorem table_ext (d : α) (hi lo : Nat) (s t : List (Nat × α)) (hs : tableWf d hi lo s = true)
    (ht : tableWf d hi lo t = true) (h : ∀ j, tableGet d s j = tableGet d t j) : s = t := by
  induction s generalizing lo t with
  | nil =>
    cases t with
    | nil => rfl
    | cons e r =>
      obtain ⟨k, v⟩ := e
      simp only [tableWf, Bool.and_eq_true, decide_eq_true_eq] at ht
      exact (table_eq_of_get_lt d hi (k + 1) k v r [] ht.1.2 rfl (by omega) (fun j => (h j).symm)).elim
  | cons e r ih =>
    obtain ⟨k, v⟩ := e
    simp only [tableWf, Bool.and_eq_true, decide_eq_true_eq] at hs
    cases t with
    | nil => exact (table_eq_of_get_lt d hi (k + 1) k v r [] hs.1.2 rfl (by omega) h).elim
    | cons e' r' =>
      obtain ⟨k', v'⟩ := e'
      have ht0 := ht
      simp only [tableWf, Bool.and_eq_true, decide_eq_true_eq] at ht
      rcases Nat.lt_trichotomy k k' with hlt | heq | hgt
      · refine (table_eq_of_get_lt d hi (k + 1) k v r ((k', v') :: r') hs.1.2 ?_ (by omega) h).elim
        simp only [tableWf, Bool.and_eq_true, decide_eq_true_eq]
        exact ⟨⟨⟨by omega, ht.1.1.2⟩, ht.1.2⟩, ht.2⟩
      · subst heq
        have hv : v = v' := by simpa [tableGet] using h k
        subst hv
        have : r = r' := by
          refine ih (k + 1) r' hs.2 ht.2 (fun j => ?_)
          by_cases hj : j = k
          · subst hj
            rw [tableGet_below d hi (j + 1) j r hs.2 (by omega), tableGet_below d hi (j + 1) j r' ht.2 (by omega)]
          · simpa [tableGet, hj] using h j
        rw [this]
      · refine (table_eq_of_get_lt d hi (k' + 1) k' v' r' ((k, v) :: r) ht.1.2 ?_ (by omega) (fun j => (h j).symm)).elim
        simp only [tableWf, Bool.and_eq_true, decide_eq_true_eq]
        exact ⟨⟨⟨by omega, hs.1.1.2⟩, hs.1.2⟩, hs.2⟩

end Sys2Proof.Machine
end

