-- ==== Sys2Proof/Laws/Memory.lean ====
section
/-!
SUPPORT. The laws of the buffer memory and the descriptor table, and of the byte sequences of R11.
-/
namespace Sys2Proof.Machine

/-! ### Single bytes -/

theorem byteAt_setByte_ne (m : Memory) (a b : Nat) (v : Byte) (h : b ≠ a) : byteAt (setByte m a v) b = byteAt m b :=
  tableGet_set_ne _ m a b v h

theorem byteAt_setByte_self (size : Nat) (m : Memory) (a : Nat) (v : Byte) (h : m.wf size = true) :
    byteAt (setByte m a v) a = v := tableGet_set_self _ size 0 m a v h

theorem setByte_wf (size : Nat) (m : Memory) (a : Nat) (v : Byte) (ha : a < size) (h : m.wf size = true) :
    Memory.wf size (setByte m a v) = true := tableSet_wf _ size 0 m a v ha (by omega) h

/-! ### Byte ranges -/

@[simp] theorem memRead_length (m : Memory) (off n : Nat) : (memRead m off n).length = n := by
  induction n generalizing off with
  | zero => rfl
  | succ n ih => simp [memRead, ih]

theorem memRead_getElem (m : Memory) (off n i : Nat) (h : i < (memRead m off n).length) :
    (memRead m off n)[i] = byteAt m (off + i) := by
  induction n generalizing off i with
  | zero => simp [memRead] at h
  | succ n ih =>
    cases i with
    | zero => simp [memRead]
    | succ i =>
      simp only [memRead, List.getElem_cons_succ]
      rw [ih (off + 1) i (by simpa [memRead] using h)]
      congr 1; omega

theorem memRead_add (m : Memory) (off a b : Nat) :
    memRead m off (a + b) = memRead m off a ++ memRead m (off + a) b := by
  induction a generalizing off with
  | zero => simp [memRead]
  | succ a ih =>
    have : off + 1 + a = off + (a + 1) := by omega
    simp [Nat.succ_add, memRead, ih, this]

/-- A read depends on the bytes of its range alone. -/
theorem memRead_congr (m m' : Memory) (off n : Nat) (h : ∀ a, off ≤ a → a < off + n → byteAt m a = byteAt m' a) :
    memRead m off n = memRead m' off n := by
  induction n generalizing off with
  | zero => rfl
  | succ n ih =>
    simp only [memRead]
    rw [h off (by omega) (by omega), ih (off + 1) (fun a h1 h2 => h a (by omega) (by omega))]

/-- `MemRead(off, n)` lists the bytes at `off` to `off + n - 1` (R12). -/
theorem memRead_eq_map (m : Memory) (off n : Nat) :
    memRead m off n = (List.range n).map (fun i => byteAt m (off + i)) := by
  apply List.ext_getElem
  · simp
  · intro i h1 h2
    rw [memRead_getElem]; simp

/-- A write leaves every byte outside its range alone. -/
theorem byteAt_memWrite_outside (m : Memory) (off : Nat) (bs : List Byte) (a : Nat)
    (h : a < off ∨ off + bs.length ≤ a) : byteAt (memWrite m off bs) a = byteAt m a := by
  induction bs generalizing m off with
  | nil => rfl
  | cons b bs ih =>
    simp only [List.length_cons] at h
    simp only [memWrite]
    rw [ih (setByte m off b) (off + 1) (by omega), byteAt_setByte_ne m off a b (by omega)]

theorem memWrite_wf (size : Nat) (m : Memory) (off : Nat) (bs : List Byte) (h : m.wf size = true)
    (hs : off + bs.length ≤ size) : Memory.wf size (memWrite m off bs) = true := by
  induction bs generalizing m off with
  | nil => exact h
  | cons b bs ih =>
    simp only [List.length_cons] at hs
    exact ih (setByte m off b) (off + 1) (setByte_wf size m off b (by omega) h) (by omega)

/-- A write stores byte `i` of the sequence at offset `off + i`. -/
theorem byteAt_memWrite_inside (size : Nat) (m : Memory) (off : Nat) (bs : List Byte) (h : m.wf size = true)
    (hs : off + bs.length ≤ size) (i : Nat) (hi : i < bs.length) : byteAt (memWrite m off bs) (off + i) = bs[i] := by
  induction bs generalizing m off i with
  | nil => simp at hi
  | cons b bs ih =>
    simp only [List.length_cons] at hs hi
    have hw := setByte_wf size m off b (by omega) h
    simp only [memWrite]
    cases i with
    | zero =>
      rw [byteAt_memWrite_outside _ _ _ _ (by omega)]
      simpa using byteAt_setByte_self size m off b h
    | succ i =>
      have := ih (setByte m off b) (off + 1) hw (by omega) i (by omega)
      simpa [show off + 1 + i = off + (i + 1) by omega] using this

/-- Two memories read the same in the range of a write made to both. -/
theorem byteAt_memWrite_both (size : Nat) (m m' : Memory) (off : Nat) (bs : List Byte) (h : m.wf size = true)
    (h' : m'.wf size = true) (hs : off + bs.length ≤ size) (a : Nat) (h1 : off ≤ a) (h2 : a < off + bs.length) :
    byteAt (memWrite m off bs) a = byteAt (memWrite m' off bs) a := by
  obtain ⟨i, rfl⟩ := Nat.exists_eq_add_of_le h1
  rw [byteAt_memWrite_inside size m off bs h hs i (by omega), byteAt_memWrite_inside size m' off bs h' hs i (by omega)]

/-- A read after a write of the same range gives the bytes written. -/
theorem memRead_memWrite (size : Nat) (m : Memory) (off : Nat) (bs : List Byte) (h : m.wf size = true)
    (hs : off + bs.length ≤ size) : memRead (memWrite m off bs) off bs.length = bs := by
  apply List.ext_getElem
  · simp
  · intro i h1 h2
    rw [memRead_getElem, byteAt_memWrite_inside size m off bs h hs i h2]

/-- A part of what was written reads back as that part. -/
theorem memRead_memWrite_part (size : Nat) (m : Memory) (off : Nat) (xs ys zs : List Byte) (h : m.wf size = true)
    (hs : off + (xs ++ ys ++ zs).length ≤ size) :
    memRead (memWrite m off (xs ++ ys ++ zs)) (off + xs.length) ys.length = ys := by
  apply List.ext_getElem
  · simp
  · intro i h1 h2
    have h3 : xs.length + i < (xs ++ ys ++ zs).length := by simp; omega
    rw [memRead_getElem, Nat.add_assoc, byteAt_memWrite_inside size m off _ h hs _ h3]
    simp [h2]

/-! ### Descriptors -/

theorem descAt_setDesc_ne (t : DescTable) (i j : Nat) (e : Desc) (h : j ≠ i) :
    descAt (setDesc t i e) j = descAt t j := tableGet_set_ne _ t i j e h

theorem descAt_setDesc_self (cap : Nat) (t : DescTable) (i : Nat) (e : Desc) (h : t.wf cap = true) :
    descAt (setDesc t i e) i = e := tableGet_set_self _ cap 0 t i e h

theorem setDesc_wf (cap : Nat) (t : DescTable) (i : Nat) (e : Desc) (hi : i < cap) (h : t.wf cap = true) :
    DescTable.wf cap (setDesc t i e) = true := tableSet_wf _ cap 0 t i e hi (by omega) h

/-! ### Big-endian byte sequences -/

@[simp] theorem laneBytes_length (v : Word) (n : Nat) : (laneBytes v n).length = n := by
  induction n with
  | zero => rfl
  | succ n ih => simp [laneBytes, ih]

@[simp] theorem bytesBe32_length (v : Word) : (bytesBe32 v).length = 4 := laneBytes_length v 4

@[simp] theorem typeBytes_length (t : Word) : (typeBytes t).length = 4 := laneBytes_length t 4

theorem beNat_foldl (bs : List Byte) (n : Nat) :
    bs.foldl (fun n b => n * 256 + b.toNat) n = n * 256 ^ bs.length + beNat bs := by
  induction bs generalizing n with
  | nil => simp [beNat]
  | cons b bs ih =>
    simp only [beNat, List.foldl_cons, List.length_cons]
    rw [ih, ih (0 * 256 + b.toNat)]
    ring

theorem beNat_cons (b : Byte) (bs : List Byte) : beNat (b :: bs) = b.toNat * 256 ^ bs.length + beNat bs := by
  have := beNat_foldl bs b.toNat
  simpa [beNat] using this

theorem beNat_lt (bs : List Byte) : beNat bs < 256 ^ bs.length := by
  induction bs with
  | nil => simp [beNat]
  | cons b bs ih =>
    rw [beNat_cons, List.length_cons, pow_succ]
    have hb := b.isLt
    nlinarith [Nat.pow_pos (n := bs.length) (show 0 < 256 by omega)]

theorem beNat_laneBytes (v : Word) (n : Nat) (_ : n ≤ 4) : beNat (laneBytes v n) = v.toNat % 256 ^ n := by
  induction n with
  | zero => simp [laneBytes, beNat, Nat.mod_one]
  | succ n ih =>
    simp only [laneBytes]
    rw [beNat_cons, ih (by omega), laneBytes_length]
    simp only [BitVec.toNat_setWidth, BitVec.toNat_ushiftRight, Nat.shiftRight_eq_div_pow]
    rw [show (2 : Nat) ^ (8 * n) = 256 ^ n by rw [pow_mul]; norm_num, show (2 : Nat) ^ 8 = 256 by norm_num,
      show (256 : Nat) ^ (n + 1) = 256 ^ n * 256 from pow_succ 256 n, Nat.mod_mul]
    ring

/-- `be32(bytes_be32(v)) = v` (R11). -/
@[simp] theorem be32_bytesBe32 (v : Word) : be32 (bytesBe32 v) = v := by
  apply BitVec.eq_of_toNat_eq
  have := v.isLt
  simp only [be32, bytesBe32, BitVec.toNat_ofNat, beNat_laneBytes v 4 (by omega)]
  omega

/-- A `w`-byte value reads back as its low bytes (R85). -/
theorem be32_laneBytes (v : Word) (n : Nat) (h : n ≤ 4) : be32 (laneBytes v n) = BitVec.ofNat 32 (v.toNat % 256 ^ n) := by
  rw [be32, beNat_laneBytes v n h]

theorem laneBytes_congr (v w : Word) (n : Nat) (hn : n ≤ 4) (h : v.toNat % 256 ^ n = w.toNat % 256 ^ n) :
    laneBytes v n = laneBytes w n := by
  induction n with
  | zero => rfl
  | succ n ih =>
    have e1 : v.toNat % 256 ^ n = w.toNat % 256 ^ n := by
      have := congrArg (· % 256 ^ n) h
      simpa [Nat.mod_mod_of_dvd _ (Dvd.intro _ (pow_succ 256 n).symm)] using this
    simp only [laneBytes, ih (by omega) e1, List.cons.injEq, and_true]
    apply BitVec.eq_of_toNat_eq
    simp only [BitVec.toNat_setWidth, BitVec.toNat_ushiftRight, Nat.shiftRight_eq_div_pow,
      show (2 : Nat) ^ (8 * n) = 256 ^ n by rw [pow_mul]; norm_num, show (2 : Nat) ^ 8 = 256 by norm_num]
    rw [show (256 : Nat) ^ (n + 1) = 256 ^ n * 256 from pow_succ 256 n, Nat.mod_mul, Nat.mod_mul, e1] at h
    have hp : 0 < 256 ^ n := Nat.pow_pos (by omega)
    exact Nat.eq_of_mul_eq_mul_left hp (by omega)

theorem be32_toNat (bs : List Byte) (h : bs.length = 4) : (be32 bs).toNat = beNat bs := by
  have := beNat_lt bs
  rw [h] at this
  simp only [be32, BitVec.toNat_ofNat]
  exact Nat.mod_eq_of_lt (by omega)

/-- Four bytes are the big-endian bytes of their value (R11). -/
theorem bytesBe32_be32 (bs : List Byte) (h : bs.length = 4) : bytesBe32 (be32 bs) = bs := by
  match bs, h with
  | [a, b, c, d], _ =>
    have ha := a.isLt
    have hb := b.isLt
    have hc := c.isLt
    have hd := d.isLt
    simp only [bytesBe32, laneBytes, be32, beNat, List.foldl_cons, List.foldl_nil, List.cons.injEq, and_true]
    refine ⟨?_, ?_, ?_, ?_⟩ <;> apply BitVec.eq_of_toNat_eq <;>
      simp only [BitVec.toNat_setWidth, BitVec.toNat_ushiftRight, BitVec.toNat_ofNat,
        Nat.shiftRight_eq_div_pow] <;> omega

end Sys2Proof.Machine
end

