-- ==== Sys2Proof/Laws/State.lean ====
section
/-!
SUPPORT. What each update of the state leaves of each field: one lemma per field and update, so that no later proof
unfolds a record update.
-/
namespace Sys2Proof.Machine

/-! ### Word registers -/

@[simp] theorem Regs.get_set (rs : Regs) (r q : StoreReg) (v : Word) :
    (rs.set r v).get q = if q = r then v else rs.get q := by
  cases r <;> cases q <;> rfl

@[simp] theorem setReg_reg (s : State) (r q : StoreReg) (v : Word) :
    (s.setReg r v).reg q = if q = r then v else s.reg q := Regs.get_set s.regs r q v
@[simp] theorem setReg_status (s : State) (r : StoreReg) (v : Word) : (s.setReg r v).status = s.status := rfl
@[simp] theorem setReg_cfg (s : State) (r : StoreReg) (v : Word) : (s.setReg r v).cfg = s.cfg := rfl
@[simp] theorem setReg_params (s : State) (r : StoreReg) (v : Word) : (s.setReg r v).params = s.params := rfl
@[simp] theorem setReg_buf (s : State) (r : StoreReg) (v : Word) : (s.setReg r v).buf = s.buf := rfl
@[simp] theorem setReg_desc (s : State) (r : StoreReg) (v : Word) : (s.setReg r v).desc = s.desc := rfl
@[simp] theorem setReg_hostProg (s : State) (r : StoreReg) (v : Word) : (s.setReg r v).hostProg = s.hostProg := rfl
@[simp] theorem setReg_turns (s : State) (r : StoreReg) (v : Word) : (s.setReg r v).turns = s.turns := rfl
@[simp] theorem setReg_readData (s : State) (r : StoreReg) (v : Word) : (s.setReg r v).readData = s.readData := rfl

/-! ### STATUS -/

@[simp] theorem setStatus_reg (s : State) (t : Status) (q : StoreReg) : (s.setStatus t).reg q = s.reg q := rfl
@[simp] theorem setStatus_status (s : State) (t : Status) : (s.setStatus t).status = t := rfl
@[simp] theorem setStatus_cfg (s : State) (t : Status) : (s.setStatus t).cfg = s.cfg := rfl
@[simp] theorem setStatus_params (s : State) (t : Status) : (s.setStatus t).params = s.params := rfl
@[simp] theorem setStatus_buf (s : State) (t : Status) : (s.setStatus t).buf = s.buf := rfl
@[simp] theorem setStatus_desc (s : State) (t : Status) : (s.setStatus t).desc = s.desc := rfl
@[simp] theorem setStatus_hostProg (s : State) (t : Status) : (s.setStatus t).hostProg = s.hostProg := rfl
@[simp] theorem setStatus_turns (s : State) (t : Status) : (s.setStatus t).turns = s.turns := rfl
@[simp] theorem setStatus_readData (s : State) (t : Status) : (s.setStatus t).readData = s.readData := rfl

/-! ### Buffer writes -/

@[simp] theorem writeBuf_reg (s : State) (o : Nat) (bs : List Byte) (q : StoreReg) :
    (s.writeBuf o bs).reg q = s.reg q := rfl
@[simp] theorem writeBuf_status (s : State) (o : Nat) (bs : List Byte) : (s.writeBuf o bs).status = s.status := rfl
@[simp] theorem writeBuf_cfg (s : State) (o : Nat) (bs : List Byte) : (s.writeBuf o bs).cfg = s.cfg := rfl
@[simp] theorem writeBuf_params (s : State) (o : Nat) (bs : List Byte) : (s.writeBuf o bs).params = s.params := rfl
@[simp] theorem writeBuf_buf (s : State) (o : Nat) (bs : List Byte) :
    (s.writeBuf o bs).buf = memWrite s.buf o bs := rfl
@[simp] theorem writeBuf_desc (s : State) (o : Nat) (bs : List Byte) : (s.writeBuf o bs).desc = s.desc := rfl
@[simp] theorem writeBuf_hostProg (s : State) (o : Nat) (bs : List Byte) :
    (s.writeBuf o bs).hostProg = s.hostProg := rfl
@[simp] theorem writeBuf_turns (s : State) (o : Nat) (bs : List Byte) : (s.writeBuf o bs).turns = s.turns := rfl
@[simp] theorem writeBuf_readData (s : State) (o : Nat) (bs : List Byte) :
    (s.writeBuf o bs).readData = s.readData := rfl

/-! ### Descriptor writes -/

@[simp] theorem writeDesc_reg (s : State) (i : Nat) (e : Desc) (q : StoreReg) :
    (s.writeDesc i e).reg q = s.reg q := rfl
@[simp] theorem writeDesc_status (s : State) (i : Nat) (e : Desc) : (s.writeDesc i e).status = s.status := rfl
@[simp] theorem writeDesc_cfg (s : State) (i : Nat) (e : Desc) : (s.writeDesc i e).cfg = s.cfg := rfl
@[simp] theorem writeDesc_params (s : State) (i : Nat) (e : Desc) : (s.writeDesc i e).params = s.params := rfl
@[simp] theorem writeDesc_buf (s : State) (i : Nat) (e : Desc) : (s.writeDesc i e).buf = s.buf := rfl
@[simp] theorem writeDesc_desc (s : State) (i : Nat) (e : Desc) : (s.writeDesc i e).desc = setDesc s.desc i e := rfl
@[simp] theorem writeDesc_hostProg (s : State) (i : Nat) (e : Desc) : (s.writeDesc i e).hostProg = s.hostProg := rfl
@[simp] theorem writeDesc_turns (s : State) (i : Nat) (e : Desc) : (s.writeDesc i e).turns = s.turns := rfl
@[simp] theorem writeDesc_readData (s : State) (i : Nat) (e : Desc) : (s.writeDesc i e).readData = s.readData := rfl

/-! ### The end of a command -/

@[simp] theorem finish_reg (s : State) (e : Option ErrorKind) (q : StoreReg) : (s.finish e).reg q = s.reg q := rfl
@[simp] theorem finish_status (s : State) (e : Option ErrorKind) : (s.finish e).status = s.status.completed e := rfl
@[simp] theorem finish_cfg (s : State) (e : Option ErrorKind) : (s.finish e).cfg = s.cfg := rfl
@[simp] theorem finish_params (s : State) (e : Option ErrorKind) : (s.finish e).params = s.params := rfl
@[simp] theorem finish_buf (s : State) (e : Option ErrorKind) : (s.finish e).buf = s.buf := rfl
@[simp] theorem finish_desc (s : State) (e : Option ErrorKind) : (s.finish e).desc = s.desc := rfl
@[simp] theorem finish_hostProg (s : State) (e : Option ErrorKind) : (s.finish e).hostProg = s.hostProg := rfl
@[simp] theorem finish_turns (s : State) (e : Option ErrorKind) : (s.finish e).turns = s.turns := rfl
@[simp] theorem finish_readData (s : State) (e : Option ErrorKind) : (s.finish e).readData = s.readData := rfl

@[simp] theorem completed_busy (t : Status) (e : Option ErrorKind) : (t.completed e).busy = false := by cases e <;> rfl
@[simp] theorem completed_done (t : Status) (e : Option ErrorKind) : (t.completed e).done = true := by cases e <;> rfl
@[simp] theorem completed_err (t : Status) (e : Option ErrorKind) : (t.completed e).err = e.isSome := by cases e <;> rfl
@[simp] theorem completed_haz (t : Status) (e : Option ErrorKind) : (t.completed e).haz = t.haz := by cases e <;> rfl
@[simp] theorem completed_busErr (t : Status) (e : Option ErrorKind) : (t.completed e).busErr = t.busErr := by
  cases e <;> rfl
@[simp] theorem completed_errCode_none (t : Status) : (t.completed none).errCode = 0#4 := rfl
@[simp] theorem completed_errCode_some (t : Status) (e : ErrorKind) :
    (t.completed (some e)).errCode = errorCode e := rfl

/-! ### The sizes and the operands as naturals -/

@[simp] theorem setReg_num (s : State) (r q : StoreReg) (v : Word) :
    (s.setReg r v).num q = if q = r then v.toNat else s.num q := by
  simp only [State.num, setReg_reg]; split <;> rfl
@[simp] theorem setStatus_num (s : State) (t : Status) (q : StoreReg) : (s.setStatus t).num q = s.num q := rfl
@[simp] theorem writeBuf_num (s : State) (o : Nat) (bs : List Byte) (q : StoreReg) :
    (s.writeBuf o bs).num q = s.num q := rfl
@[simp] theorem writeDesc_num (s : State) (i : Nat) (e : Desc) (q : StoreReg) :
    (s.writeDesc i e).num q = s.num q := rfl
@[simp] theorem finish_num (s : State) (e : Option ErrorKind) (q : StoreReg) : (s.finish e).num q = s.num q := rfl
@[simp] theorem setReg_bufSize (s : State) (r : StoreReg) (v : Word) : (s.setReg r v).bufSize = s.bufSize := rfl
@[simp] theorem setStatus_bufSize (s : State) (t : Status) : (s.setStatus t).bufSize = s.bufSize := rfl
@[simp] theorem writeBuf_bufSize (s : State) (o : Nat) (bs : List Byte) : (s.writeBuf o bs).bufSize = s.bufSize := rfl
@[simp] theorem writeDesc_bufSize (s : State) (i : Nat) (e : Desc) : (s.writeDesc i e).bufSize = s.bufSize := rfl
@[simp] theorem finish_bufSize (s : State) (e : Option ErrorKind) : (s.finish e).bufSize = s.bufSize := rfl
@[simp] theorem setReg_descCap (s : State) (r : StoreReg) (v : Word) : (s.setReg r v).descCap = s.descCap := rfl
@[simp] theorem setStatus_descCap (s : State) (t : Status) : (s.setStatus t).descCap = s.descCap := rfl
@[simp] theorem writeBuf_descCap (s : State) (o : Nat) (bs : List Byte) : (s.writeBuf o bs).descCap = s.descCap := rfl
@[simp] theorem writeDesc_descCap (s : State) (i : Nat) (e : Desc) : (s.writeDesc i e).descCap = s.descCap := rfl
@[simp] theorem finish_descCap (s : State) (e : Option ErrorKind) : (s.finish e).descCap = s.descCap := rfl

/-- A natural below 2^32 is the register's value (R10). -/
theorem toWord_toNat {n : Nat} (h : n < 2 ^ 32) : (toWord n).toNat = n := by
  rw [toWord, BitVec.toNat_ofNat, Nat.mod_eq_of_lt h]

/-! ### The host's and the environment's fields -/

@[simp] theorem turns_reg (s : State) (l : List Turn) (q : StoreReg) : { s with turns := l }.reg q = s.reg q := rfl
@[simp] theorem hostProg_reg (s : State) (l : List HostOp) (q : StoreReg) :
    { s with hostProg := l }.reg q = s.reg q := rfl
@[simp] theorem readData_reg (s : State) (v : Word) (q : StoreReg) : { s with readData := v }.reg q = s.reg q := rfl
@[simp] theorem cfg_reg (s : State) (c : Cfg) (q : StoreReg) : { s with cfg := c }.reg q = s.reg q := rfl

/-! ### Flags of the host port -/

@[simp] theorem setHaz_eq (s : State) : s.setHaz = s.setStatus { s.status with haz := true } := rfl
@[simp] theorem setBusErr_eq (s : State) : s.setBusErr = s.setStatus { s.status with busErr := true } := rfl

/-! ### Reset -/

@[simp] theorem resetEvent_regs (s : State) : s.resetEvent.regs = Regs.atReset := rfl
@[simp] theorem resetEvent_status (s : State) : s.resetEvent.status = Status.atReset := rfl
@[simp] theorem resetEvent_cfg (s : State) : s.resetEvent.cfg = Cfg.atReset := rfl
@[simp] theorem resetEvent_params (s : State) : s.resetEvent.params = s.params := rfl
@[simp] theorem resetEvent_buf (s : State) : s.resetEvent.buf = s.buf := rfl
@[simp] theorem resetEvent_desc (s : State) : s.resetEvent.desc = s.desc := rfl
@[simp] theorem resetEvent_hostProg (s : State) : s.resetEvent.hostProg = s.hostProg := rfl
@[simp] theorem resetEvent_turns (s : State) : s.resetEvent.turns = s.turns := rfl

end Sys2Proof.Machine
end

