-- ==== Sys2Proof/Laws/Commands.lean ====
section
/-!
SUPPORT. Everything a command can do, said once: each meaning ends with `finish` of a state that differs from the one
before in the command's registers, and where it says so in the buffer or the descriptor table.
-/
namespace Sys2Proof.Machine
open Sys2Proof.Claims

/-- What a command leaves alone before its completion: STATUS, CFG, the sizes, the model's own fields, and every word
register but those it writes. -/
structure CommandFrame (written : List StoreReg) (s u : State) : Prop where
  regs : ∀ r, r ∉ written → u.reg r = s.reg r
  status : u.status = s.status
  cfg : u.cfg = s.cfg
  params : u.params = s.params
  hostProg : u.hostProg = s.hostProg
  turns : u.turns = s.turns
  readData : u.readData = s.readData

theorem CommandFrame.refl (l : List StoreReg) (s : State) : CommandFrame l s s :=
  ⟨fun _ _ => rfl, rfl, rfl, rfl, rfl, rfl, rfl⟩

theorem CommandFrame.trans {l : List StoreReg} {s t u : State} (h : CommandFrame l s t) (k : CommandFrame l t u) :
    CommandFrame l s u :=
  ⟨fun r hr => (k.regs r hr).trans (h.regs r hr), k.status.trans h.status, k.cfg.trans h.cfg, k.params.trans h.params,
    k.hostProg.trans h.hostProg, k.turns.trans h.turns, k.readData.trans h.readData⟩

theorem CommandFrame.mono {l l' : List StoreReg} {s t : State} (h : CommandFrame l s t) (hl : l ⊆ l') :
    CommandFrame l' s t :=
  ⟨fun r hr => h.regs r (fun hm => hr (hl hm)), h.status, h.cfg, h.params, h.hostProg, h.turns, h.readData⟩

theorem CommandFrame.setReg {l : List StoreReg} {s t : State} (h : CommandFrame l s t) {r : StoreReg} (hr : r ∈ l)
    (v : Word) : CommandFrame l s (t.setReg r v) :=
  ⟨fun q hq => by
    have : q ≠ r := fun e => hq (e ▸ hr)
    simp [this, h.regs q hq], h.status, h.cfg, h.params, h.hostProg, h.turns, h.readData⟩

theorem CommandFrame.writeBuf {l : List StoreReg} {s t : State} (h : CommandFrame l s t) (o : Nat) (bs : List Byte) :
    CommandFrame l s (t.writeBuf o bs) :=
  ⟨h.regs, h.status, h.cfg, h.params, h.hostProg, h.turns, h.readData⟩

theorem CommandFrame.writeDesc {l : List StoreReg} {s t : State} (h : CommandFrame l s t) (i : Nat) (e : Desc) :
    CommandFrame l s (t.writeDesc i e) :=
  ⟨h.regs, h.status, h.cfg, h.params, h.hostProg, h.turns, h.readData⟩

/-- A meaning ends with `finish`: of a state in the command's frame, whose buffer and descriptor table are the given
ones, and with no error or one of those given. -/
def Ends (a : Answer) (written : List StoreReg) (errors : List ErrorKind) (s : State) (buf : Memory → Prop)
    (desc : DescTable → Prop) : Prop :=
  ∃ (u : State) (e : Option ErrorKind), a = .next (u.finish e) ∧ CommandFrame written s u ∧ buf u.buf ∧ desc u.desc ∧
    ∀ k, e = some k → k ∈ errors

theorem complete_ends {written : List StoreReg} {errors : List ErrorKind} {s u : State} {buf : Memory → Prop}
    {desc : DescTable → Prop} (h : CommandFrame written s u) (hb : buf u.buf) (hd : desc u.desc) :
    Ends (complete u) written errors s buf desc :=
  ⟨u, none, rfl, h, hb, hd, fun _ hk => nomatch hk⟩

theorem raise_ends {written : List StoreReg} {errors : List ErrorKind} {s u : State} {buf : Memory → Prop}
    {desc : DescTable → Prop} {e : ErrorKind} (h : CommandFrame written s u) (hb : buf u.buf) (hd : desc u.desc)
    (he : e ∈ errors) : Ends (raise e u) written errors s buf desc :=
  ⟨u, some e, rfl, h, hb, hd, fun k hk => by rw [← Option.some.inj hk]; exact he⟩

/-! ### Commands that write word registers alone -/

theorem execNop_ends (s : State) : Ends (execNop s) [] [] s (· = s.buf) (· = s.desc) :=
  complete_ends (.refl _ s) rfl rfl

theorem execIllegal_ends (s : State) : Ends (execIllegal s) [] [.illegalCmd] s (· = s.buf) (· = s.desc) :=
  raise_ends (.refl _ s) rfl rfl (by simp)

theorem execCrcInit_ends (s : State) : Ends (execCrcInit s) [.crcAcc] [] s (· = s.buf) (· = s.desc) :=
  complete_ends ((CommandFrame.refl _ s).setReg (by simp) _) rfl rfl

theorem execCrcUpdate_ends (s : State) : Ends (execCrcUpdate s) [.crcAcc] [.range] s (· = s.buf) (· = s.desc) := by
  unfold execCrcUpdate; split
  · exact complete_ends ((CommandFrame.refl _ s).setReg (by simp) _) rfl rfl
  · exact raise_ends (.refl _ s) rfl rfl (by simp)

theorem execCrcFinal_ends (s : State) : Ends (execCrcFinal s) [.crcResult] [] s (· = s.buf) (· = s.desc) :=
  complete_ends ((CommandFrame.refl _ s).setReg (by simp) _) rfl rfl

theorem execCrcBlock_ends (s : State) : Ends (execCrcBlock s) [.crcResult] [.range] s (· = s.buf) (· = s.desc) := by
  unfold execCrcBlock; split
  · exact complete_ends ((CommandFrame.refl _ s).setReg (by simp) _) rfl rfl
  · exact raise_ends (.refl _ s) rfl rfl (by simp)

theorem execCrcChunk_ends (s : State) : Ends (execCrcChunk s) [.crcResult] [.range] s (· = s.buf) (· = s.desc) := by
  unfold execCrcChunk; split
  · exact complete_ends ((CommandFrame.refl _ s).setReg (by simp) _) rfl rfl
  · exact raise_ends (.refl _ s) rfl rfl (by simp)

theorem execTypeFromText_ends (s : State) :
    Ends (execTypeFromText s) [.type] [.range, .formatLength, .formatChar] s (· = s.buf) (· = s.desc) := by
  unfold execTypeFromText; split
  · split
    · split
      · exact complete_ends ((CommandFrame.refl _ s).setReg (by simp) _) rfl rfl
      · exact raise_ends (.refl _ s) rfl rfl (by simp)
    · exact raise_ends (.refl _ s) rfl rfl (by simp)
  · exact raise_ends (.refl _ s) rfl rfl (by simp)

theorem execFindType_ends (s : State) : Ends (execFindType s) [.findIndex] [] s (· = s.buf) (· = s.desc) := by
  unfold execFindType; split
  · exact complete_ends ((CommandFrame.refl _ s).setReg (by simp) _) rfl rfl
  · exact complete_ends ((CommandFrame.refl _ s).setReg (by simp) _) rfl rfl

/-! ### Commands that write the buffer -/

@[simp] theorem chunkBytes_length (t : Word) (d : List Byte) : (chunkBytes t d).length = 12 + d.length := by
  simp [chunkBytes]; omega

@[simp] theorem window_length (s : State) : s.window.length = s.num .len := memRead_length _ _ _

theorem execChunkEmit_ends (s : State) :
    Ends (execChunkEmit s) [.crcResult, .nextOff] [.lengthLimit, .range] s
      (fun m => m = s.buf ∨ s.num .dst + 12 + s.num .len ≤ s.bufSize ∧
        m = memWrite s.buf (s.num .dst) (chunkBytes (s.reg .type) s.window)) (· = s.desc) := by
  unfold execChunkEmit; split
  · exact raise_ends (.refl _ s) (.inl rfl) rfl (by simp)
  · split
    · split
      · next hf =>
        have hf' : s.num .dst + (12 + s.num .len) ≤ s.bufSize := by simpa [State.fits] using hf
        exact complete_ends ((((CommandFrame.refl _ s).writeBuf _ _).setReg (by simp) _).setReg (by simp) _)
          (.inr ⟨by omega, rfl⟩) rfl
      · exact raise_ends (.refl _ s) (.inl rfl) rfl (by simp)
    · exact raise_ends (.refl _ s) (.inl rfl) rfl (by simp)

theorem execSigEmit_ends (s : State) :
    Ends (execSigEmit s) [.nextOff] [.range] s
      (fun m => m = s.buf ∨ s.num .dst + 8 ≤ s.bufSize ∧ m = memWrite s.buf (s.num .dst) sigBytes) (· = s.desc) := by
  unfold execSigEmit; split
  · next hf =>
    exact complete_ends (((CommandFrame.refl _ s).writeBuf _ _).setReg (by simp) _)
      (.inr ⟨by simpa [State.fits] using hf, rfl⟩) rfl
  · exact raise_ends (.refl _ s) (.inl rfl) rfl (by simp)

/-! ### The parsers -/

/-- The errors of ParseChunk (R232). -/
def parseErrors : List ErrorKind := [.truncated, .lengthLimit, .crcMismatch]

theorem parseChunk_errors {s : State} {base w : Nat} {e : ErrorKind} {i : Option ChunkInfo}
    (h : parseChunk s base w = .err e i) : e ∈ parseErrors := by
  unfold parseChunk at h
  split at h
  · cases h; simp [parseErrors]
  · simp only at h
    split at h
    · cases h; simp [parseErrors]
    · split at h
      · cases h; simp [parseErrors]
      · split at h <;> cases h
        simp [parseErrors]

theorem writeChunkRegs_frame (base : Nat) (i : ChunkInfo) (s : State) :
    CommandFrame chunkRegList s (writeChunkRegs base i s) :=
  (((((CommandFrame.refl _ s).setReg (by simp [chunkRegList]) _).setReg (by simp [chunkRegList]) _).setReg
    (by simp [chunkRegList]) _).setReg (by simp [chunkRegList]) _).setReg (by simp [chunkRegList]) _

@[simp] theorem writeChunkRegs_buf (base : Nat) (i : ChunkInfo) (s : State) : (writeChunkRegs base i s).buf = s.buf := rfl
@[simp] theorem writeChunkRegs_desc (base : Nat) (i : ChunkInfo) (s : State) :
    (writeChunkRegs base i s).desc = s.desc := rfl
@[simp] theorem writeChunkRegs_cfg (base : Nat) (i : ChunkInfo) (s : State) : (writeChunkRegs base i s).cfg = s.cfg := rfl
@[simp] theorem writeChunkRegs_params (base : Nat) (i : ChunkInfo) (s : State) :
    (writeChunkRegs base i s).params = s.params := rfl
@[simp] theorem writeChunkRegs_bufSize (base : Nat) (i : ChunkInfo) (s : State) :
    (writeChunkRegs base i s).bufSize = s.bufSize := rfl
@[simp] theorem writeChunkRegs_descCap (base : Nat) (i : ChunkInfo) (s : State) :
    (writeChunkRegs base i s).descCap = s.descCap := rfl
@[simp] theorem writeChunkRegs_status (base : Nat) (i : ChunkInfo) (s : State) :
    (writeChunkRegs base i s).status = s.status := rfl
@[simp] theorem writeChunkRegs_chunkLen (base : Nat) (i : ChunkInfo) (s : State) :
    (writeChunkRegs base i s).reg .chunkLen = i.len := by simp [writeChunkRegs]
@[simp] theorem writeChunkRegs_chunkType (base : Nat) (i : ChunkInfo) (s : State) :
    (writeChunkRegs base i s).reg .chunkType = i.type := by simp [writeChunkRegs]
@[simp] theorem writeChunkRegs_chunkCrc (base : Nat) (i : ChunkInfo) (s : State) :
    (writeChunkRegs base i s).reg .chunkCrc = i.stored := by simp [writeChunkRegs]
@[simp] theorem writeChunkRegs_calcCrc (base : Nat) (i : ChunkInfo) (s : State) :
    (writeChunkRegs base i s).reg .calcCrc = i.computed := by simp [writeChunkRegs]
@[simp] theorem writeChunkRegs_nextOff (base : Nat) (i : ChunkInfo) (s : State) :
    (writeChunkRegs base i s).reg .nextOff = toWord (base + 12 + i.len.toNat) := by simp [writeChunkRegs]

theorem execChunkParse_ends (s : State) :
    Ends (execChunkParse s) chunkRegList (.range :: parseErrors) s (· = s.buf) (· = s.desc) := by
  unfold execChunkParse; split
  · cases hp : parseChunk s (s.num .src) (s.num .len) with
    | ok i => exact complete_ends (writeChunkRegs_frame _ i s) (writeChunkRegs_buf _ i s) (writeChunkRegs_desc _ i s)
    | err e info =>
      have he := List.mem_cons_of_mem .range (parseChunk_errors hp)
      cases info with
      | some i => dsimp only; exact raise_ends (writeChunkRegs_frame _ i s) (writeChunkRegs_buf _ i s) (writeChunkRegs_desc _ i s) he
      | none => dsimp only; exact raise_ends (.refl _ s) rfl rfl he
  · exact raise_ends (.refl _ s) rfl rfl (by simp)

theorem chunkRegList_subset : chunkRegList ⊆ streamRegs := by decide

theorem streamFail_frame {s u : State} (h : CommandFrame streamRegs s u) (k off : Nat) :
    CommandFrame streamRegs s
      (((u.setReg .chunkCount 0#32).setReg .failIndex (toWord k)).setReg .failOff (toWord off)) :=
  ((h.setReg (by simp [streamRegs]) _).setReg (by simp [streamRegs]) _).setReg (by simp [streamRegs]) _

theorem streamDone_frame {s u : State} (h : CommandFrame streamRegs s u) (k stop : Nat) :
    CommandFrame streamRegs s
      ((((u.setReg .chunkCount (toWord k)).setReg .failIndex noneWord).setReg .failOff noneWord).setReg .nextOff
        (toWord stop)) :=
  (((h.setReg (by simp [streamRegs]) _).setReg (by simp [streamRegs]) _).setReg (by simp [streamRegs]) _).setReg
    (by simp [streamRegs]) _

theorem recordChunk_frame (k off : Nat) (i : ChunkInfo) (s : State) : CommandFrame streamRegs s (recordChunk k off i s) :=
  ((writeChunkRegs_frame off i s).mono chunkRegList_subset).writeDesc _ _

@[simp] theorem recordChunk_buf (k off : Nat) (i : ChunkInfo) (s : State) : (recordChunk k off i s).buf = s.buf := rfl
@[simp] theorem recordChunk_desc (k off : Nat) (i : ChunkInfo) (s : State) :
    (recordChunk k off i s).desc =
      setDesc s.desc k { off := toWord off, len := i.len, type := i.type, crc := i.stored } := rfl
@[simp] theorem recordChunk_cfg (k off : Nat) (i : ChunkInfo) (s : State) : (recordChunk k off i s).cfg = s.cfg := rfl
@[simp] theorem recordChunk_params (k off : Nat) (i : ChunkInfo) (s : State) :
    (recordChunk k off i s).params = s.params := rfl
@[simp] theorem recordChunk_bufSize (k off : Nat) (i : ChunkInfo) (s : State) :
    (recordChunk k off i s).bufSize = s.bufSize := rfl
@[simp] theorem recordChunk_descCap (k off : Nat) (i : ChunkInfo) (s : State) :
    (recordChunk k off i s).descCap = s.descCap := rfl
@[simp] theorem recordChunk_reg (k off : Nat) (i : ChunkInfo) (s : State) (r : StoreReg) :
    (recordChunk k off i s).reg r = (writeChunkRegs off i s).reg r := rfl

/-- The errors of a stream's walk (R340). -/
def walkErrors : List ErrorKind := .descOverflow :: parseErrors

/-- A walk ends in the frame of STREAM_PARSE, with the buffer as it was. -/
theorem streamWalk_ends (stop room k off : Nat) (s : State) :
    Ends (streamWalk stop room k off s) streamRegs walkErrors s (· = s.buf) (fun _ => True) := by
  induction room generalizing k off s with
  | zero =>
    simp only [streamWalk]; split
    · exact raise_ends (streamFail_frame (.refl _ s) k off) rfl trivial (by simp [walkErrors])
    · exact complete_ends (streamDone_frame (.refl _ s) k stop) rfl trivial
  | succ room ih =>
    simp only [streamWalk]; split
    · cases hp : parseChunk s off (stop - off) with
      | ok i =>
        obtain ⟨u, e, h1, h2, h3, h4, h5⟩ := ih (k + 1) (off + 12 + i.len.toNat) (recordChunk k off i s)
        exact ⟨u, e, h1, (recordChunk_frame k off i s).trans h2, h3, h4, h5⟩
      | err e info =>
        have he := List.mem_cons_of_mem .descOverflow (parseChunk_errors hp)
        cases info with
        | some i =>
          dsimp only
          exact raise_ends (streamFail_frame ((writeChunkRegs_frame off i s).mono chunkRegList_subset) k off)
            (by simp) trivial he
        | none =>
          dsimp only
          exact raise_ends (streamFail_frame (.refl _ s) k off) rfl trivial he
    · exact complete_ends (streamDone_frame (.refl _ s) k stop) rfl trivial

/-- The errors of STREAM_PARSE (R340). -/
def streamErrors : List ErrorKind := .range :: .sigMismatch :: walkErrors

theorem execStreamParse_ends (s : State) :
    Ends (execStreamParse s) streamRegs streamErrors s (· = s.buf) (fun _ => True) := by
  unfold execStreamParse; split
  · split
    · exact raise_ends (streamFail_frame (.refl _ s) 0 _) rfl trivial (by simp [streamErrors])
    · obtain ⟨u, e, h1, h2, h3, h4, h5⟩ := streamWalk_ends (s.num .src + s.num .len) s.descCap 0 (s.num .src + 8) s
      exact ⟨u, e, h1, h2, h3, h4, fun k hk => List.mem_cons_of_mem _ (List.mem_cons_of_mem _ (h5 k hk))⟩
  · exact raise_ends (.refl _ s) rfl trivial (by simp [streamErrors])

/-! ### Any command -/

theorem Ends.answers {a : Answer} {l : List StoreReg} {errors : List ErrorKind} {s : State} {b : Memory → Prop}
    {d : DescTable → Prop} (h : Ends a l errors s b d) : ∃ t, a = .next t := by
  obtain ⟨u, e, h, _⟩ := h
  exact ⟨_, h⟩

/-- Whatever the command: its step ends with `finish`, in the frame of its R60 row, with no error or one of its R330
row. -/
theorem exec_ends {i : Instr} {s t : State} (h : exec i s = .next t) :
    ∃ u e, t = u.finish e ∧ CommandFrame (writesRegs i) s u ∧ ∀ k, e = some k → errorCode k ∈ raises i := by
  have key : ∀ {l errs b d}, Ends (exec i s) l errs s b d → l ⊆ writesRegs i →
      (∀ k ∈ errs, errorCode k ∈ raises i) →
      ∃ u e, t = u.finish e ∧ CommandFrame (writesRegs i) s u ∧ ∀ k, e = some k → errorCode k ∈ raises i := by
    intro l errs b d ⟨u, e, h1, h2, _, _, h5⟩ hl he
    rw [h1] at h
    cases h
    exact ⟨u, e, rfl, h2.mono hl, fun k hk => he k (h5 k hk)⟩
  cases i with
  | nop => exact key (execNop_ends s) (by decide) (by decide)
  | crcInit => exact key (execCrcInit_ends s) (by decide) (by decide)
  | crcUpdate => exact key (execCrcUpdate_ends s) (by decide) (by decide)
  | crcFinal => exact key (execCrcFinal_ends s) (by decide) (by decide)
  | crcBlock => exact key (execCrcBlock_ends s) (by decide) (by decide)
  | crcChunk => exact key (execCrcChunk_ends s) (by decide) (by decide)
  | typeFromText => exact key (execTypeFromText_ends s) (by decide) (by decide)
  | chunkEmit => exact key (execChunkEmit_ends s) (by decide) (by decide)
  | chunkParse => exact key (execChunkParse_ends s) (by decide) (by decide)
  | sigEmit => exact key (execSigEmit_ends s) (by decide) (by decide)
  | streamParse => exact key (execStreamParse_ends s) (by decide) (by decide)
  | findType => exact key (execFindType_ends s) (by decide) (by decide)

theorem errorCode_ne_zero (e : ErrorKind) : errorCode e ≠ 0#4 := by cases e <;> decide

end Sys2Proof.Machine
end

