-- ==== Sys2Proof/Laws/Crc.lean ====
section
/-!
SUPPORT. The laws of the CRC function: what it does on a concatenation (R202), that one round keeps different states
different, and what one round is in normal bit order (R200, R201).
-/
namespace Sys2Proof.Machine

/-- `CrcUpd(c, s1 ++ s2) = CrcUpd(CrcUpd(c, s1), s2)` (R202). -/
theorem crcUpd_append (c : Word) (xs ys : List Byte) : crcUpd c (xs ++ ys) = crcUpd (crcUpd c xs) ys :=
  List.foldl_append

/-- Bit `i` of one round: the shifted state, and the polynomial where bit 0 was set. -/
theorem crcBit_getLsbD (c : Word) (i : Nat) :
    (crcBit c).getLsbD i = ((c.getLsbD (i + 1)).xor (c.getLsbD 0 && crcPoly.getLsbD i)) := by
  unfold crcBit
  split
  · next h => simp [h, Nat.add_comm]
  · next h =>
    have h' : c.getLsbD 0 = false := by simpa using h
    rw [h']; simp [Nat.add_comm]

/-- One round tells different states apart: the polynomial's bit 31 is set, so bit 31 of the result is bit 0 of the
state. -/
theorem crcBit_injective {c d : Word} (h : crcBit c = crcBit d) : c = d := by
  have hb : ∀ i, (crcBit c).getLsbD i = (crcBit d).getLsbD i := fun i => by rw [h]
  have h31 := hb 31
  rw [crcBit_getLsbD, crcBit_getLsbD] at h31
  have hp : crcPoly.getLsbD 31 = true := by decide
  have hc : c.getLsbD 32 = false := BitVec.getLsbD_of_ge c 32 (by omega)
  have hd : d.getLsbD 32 = false := BitVec.getLsbD_of_ge d 32 (by omega)
  have h0 : c.getLsbD 0 = d.getLsbD 0 := by
    rw [hp, hc, hd, Bool.and_true, Bool.and_true, Bool.false_xor, Bool.false_xor] at h31
    exact h31
  apply BitVec.eq_of_getLsbD_eq
  intro i _
  cases i with
  | zero => exact h0
  | succ i =>
    have hi := hb i
    rw [crcBit_getLsbD, crcBit_getLsbD, h0] at hi
    simpa using hi

theorem crcBits_injective (n : Nat) {c d : Word} (h : crcBits c n = crcBits d n) : c = d := by
  induction n generalizing c d with
  | zero => exact h
  | succ n ih => exact crcBit_injective (ih h)

/-- A byte's step tells different states apart, on the same byte. -/
theorem crcByte_injective {c d : Word} (b : Byte) (h : crcByte c b = crcByte d b) : c = d := by
  have := crcBits_injective 8 h
  exact BitVec.xor_right_inj (b.setWidth 32) |>.mp (by simpa [BitVec.xor_comm] using this)

/-- A byte's step tells different bytes apart, on the same state. -/
theorem crcByte_injective_byte (c : Word) {a b : Byte} (h : crcByte c a = crcByte c b) : a = b := by
  have h1 := crcBits_injective 8 h
  have h2 : a.setWidth 32 = b.setWidth 32 := (BitVec.xor_right_inj c).mp h1
  have h3 := congrArg BitVec.toNat h2
  apply BitVec.eq_of_toNat_eq
  have ha := a.isLt
  have hb := b.isLt
  simp only [BitVec.toNat_setWidth] at h3
  omega

theorem crcUpd_injective (bs : List Byte) {c d : Word} (h : crcUpd c bs = crcUpd d bs) : c = d := by
  induction bs generalizing c d with
  | nil => exact h
  | cons b bs ih => exact crcByte_injective b (ih h)

/-- Two messages that differ in one byte have different CRCs. -/
theorem crc32_ne_of_byte_ne (xs ys : List Byte) (a b : Byte) (h : a ≠ b) :
    crc32 (xs ++ a :: ys) ≠ crc32 (xs ++ b :: ys) := by
  intro he
  have h1 := (BitVec.xor_left_inj crcFinalXor).mp he
  rw [crcUpd_append, crcUpd_append] at h1
  exact h (crcByte_injective_byte _ (crcUpd_injective ys h1))

/-- One round in normal bit order: shift left, and the polynomial 0x04C11DB7 where bit 31 was set (R200). -/
theorem crcBit_reverse (c : Word) :
    (crcBit c).reverse = (c.reverse <<< 1) ^^^ (if c.reverse.getLsbD 31 then 0x04C11DB7#32 else 0#32) := by
  have hp : ∀ i : Fin 32, crcPoly.getLsbD i = (0x04C11DB7#32).getLsbD (31 - i) := by decide
  apply BitVec.eq_of_getLsbD_eq
  intro i hi
  have e : (if c.reverse.getLsbD 31 then 0x04C11DB7#32 else 0#32).getLsbD i =
      (c.getLsbD 0 && (0x04C11DB7#32).getLsbD i) := by
    have : c.reverse.getLsbD 31 = c.getLsbD 0 := by
      rw [BitVec.getLsbD_reverse, BitVec.getMsbD]; rfl
    rw [this]; split <;> simp_all
  rw [BitVec.getLsbD_xor, e, BitVec.getLsbD_reverse, BitVec.getMsbD, BitVec.getLsbD_shiftLeft, crcBit_getLsbD]
  have h31 := hp ⟨31 - i, by omega⟩
  simp only [show 31 - (31 - i) = i by omega] at h31
  rw [BitVec.getLsbD_reverse, BitVec.getMsbD, show 32 - 1 - i = 31 - i by omega, h31]
  rcases Nat.eq_zero_or_pos i with h0 | h0
  · subst h0; simp
  · have h2 : 32 - 1 - (i - 1) = 31 - i + 1 := by omega
    simp [hi, h2, show i - 1 < 32 by omega, show ¬ i < 1 by omega]

end Sys2Proof.Machine
end

