-- ==== Sys2Proof/Laws/Flags.lean ====
section
/-!
SUPPORT. The bits of the words the host reads: a one-bit field of a word, and the bytes of a chunk type.
-/
namespace Sys2Proof.Machine

/-- A one-bit field is set at its own position alone. -/
theorem bitAt_getLsbD (k i : Nat) (b : Bool) (hk : k < 32) : (bitAt k b).getLsbD i = (b && decide (i = k)) := by
  cases b with
  | false => simp [bitAt]
  | true =>
    have : (BitVec.ofNat 32 (2 ^ k)) = BitVec.twoPow 32 k := by
      apply BitVec.eq_of_toNat_eq; simp [BitVec.toNat_twoPow]
    simp only [bitAt, if_true, this, BitVec.getLsbD_twoPow, Bool.true_and]
    by_cases h : i = k
    · subst h; simp [hk]
    · simp [h, Ne.symm h]

/-- Byte `k` of a type, counted from its least significant end (R13). -/
theorem typeByte_toNat (t : Word) (k : Nat) : (typeByte t k).toNat = t.toNat >>> (8 * (3 - k)) % 256 := by
  simp [typeByte, BitVec.extractLsb'_toNat]

/-- A bit-5 test is the bit's value (R171 to R174). -/
theorem byte_and_0x20 (b : Byte) :
    (b &&& 0x20#8 == 0x00#8) = !b.getLsbD 5 ∧ (b &&& 0x20#8 == 0x20#8) = b.getLsbD 5 := by
  revert b; decide

end Sys2Proof.Machine
end

