-- ==== Sys2Proof/Laws/HostPort.lean ====
section
/-!
SUPPORT. What a host access can reach and everything it can do: where each address leads (R81, R87), and the cases of an
access, said once.
-/
namespace Sys2Proof.Machine

/-! ### The address map -/

theorem lookupReg_some {rows : List (Nat × Reg)} {a : Nat} {r : Reg} (h : lookupReg rows a = some r) :
    (a, r) ∈ rows := by
  induction rows with
  | nil => cases h
  | cons e rows ih =>
    obtain ⟨o, q⟩ := e
    simp only [lookupReg] at h
    split at h
    · next ho => cases h; subst ho; simp
    · exact List.mem_cons_of_mem _ (ih h)

/-- The offsets at which there is a register are the multiples of 4 up to 0x054 (R30). -/
theorem regAt_isSome (a : Nat) : (regAt a).isSome = true ↔ a ≤ 0x54 ∧ a % 4 = 0 := by
  constructor
  · intro h
    obtain ⟨r, hr⟩ := Option.isSome_iff_exists.mp h
    have := lookupReg_some hr
    simp only [registerMap, List.mem_cons, Prod.mk.injEq, List.not_mem_nil, or_false] at this
    omega
  · intro ⟨h1, h2⟩
    have : ∀ k : Fin 22, (regAt (4 * k.val)).isSome = true := by decide
    have h3 := this ⟨a / 4, by omega⟩
    rwa [show 4 * (a / 4) = a by omega] at h3

theorem target_reg {p : Params} {addr : Word} {w : Width} {r : Reg} (h : target p addr w = .reg r) :
    (addr.toNat, r) ∈ registerMap ∧ w = .w4 := by
  simp only [target] at h
  split at h
  · cases hr : regAt addr.toNat with
    | none => rw [hr] at h; cases h
    | some q =>
      rw [hr] at h
      cases w with
      | w1 => cases h
      | w2 => cases h
      | w4 => cases h; exact ⟨lookupReg_some hr, rfl⟩
  · split at h
    · split at h <;> cases h
    · split at h
      · split at h <;> cases h
      · cases h

theorem target_buf {p : Params} {addr : Word} {w : Width} {o : Nat} (h : target p addr w = .buf o) :
    addr.toNat = bufBase + o ∧ o + w.bytes ≤ p.bufSize.toNat ∧ addr.toNat % w.bytes = 0 := by
  simp only [target] at h
  split at h
  · split at h <;> cases h
  · split at h
    · split at h <;> cases h
    · split at h
      · next hb =>
        split at h
        · next hm =>
          have ho := Target.buf.inj h
          subst ho
          simp only [bufBase] at hb ⊢
          exact ⟨by omega, by omega, hm⟩
        · cases h
      · cases h

theorem target_desc {p : Params} {addr : Word} {w : Width} {i j : Nat} (h : target p addr w = .desc i j) :
    addr.toNat = descBase + 16 * i + 4 * j ∧ i < p.descCap.toNat ∧ j < 4 ∧ w = .w4 := by
  simp only [target] at h
  split at h
  · split at h <;> cases h
  · split at h
    · next hd =>
      split at h
      · next hm =>
        obtain ⟨hi, hj⟩ := Target.desc.inj h
        subst hi hj
        simp only [descBase] at hd ⊢
        exact ⟨by omega, by omega, by omega, hm.1⟩
      · cases h
    · split at h
      · split at h <;> cases h
      · cases h

theorem target_of_buf {p : Params} {addr : Word} {w : Width} (h : bufAccessOk p addr w = true) :
    target p addr w = .buf (addr.toNat - 0x80000000) := by
  simp only [bufAccessOk, Bool.and_eq_true, decide_eq_true_eq] at h
  have h1 : ¬ addr.toNat < 0x1000 := by omega
  have h2 : ¬ (descBase ≤ addr.toNat ∧ addr.toNat < descBase + 16 * p.descCap.toNat ∧ addr.toNat < bufBase) := by
    simp only [bufBase]; omega
  have h3 : bufBase ≤ addr.toNat ∧ addr.toNat + w.bytes ≤ bufBase + p.bufSize.toNat := by simp only [bufBase]; omega
  unfold target
  dsimp only
  rw [if_neg h1, if_neg h2, if_pos h3, if_pos h.2, bufBase]

theorem target_of_desc {p : Params} {addr : Word} {w : Width} (hp : p.wellFormed = true)
    (h : descAccessOk p addr w = true) :
    target p addr w = .desc ((addr.toNat - 0x00100000) / 16) ((addr.toNat - 0x00100000) / 4 % 4) := by
  simp only [descAccessOk, Params.wellFormed, Bool.and_eq_true, decide_eq_true_eq] at h hp
  have h1 : ¬ addr.toNat < 0x1000 := by omega
  have h2 : descBase ≤ addr.toNat ∧ addr.toNat < descBase + 16 * p.descCap.toNat ∧ addr.toNat < bufBase := by
    simp only [descBase, bufBase]; omega
  have h3 : w = .w4 ∧ addr.toNat % 4 = 0 := ⟨h.1.2, h.2⟩
  unfold target
  dsimp only
  rw [if_neg h1, if_pos h2, if_pos h3, descBase]

theorem target_of_reg {p : Params} {addr : Word} {r : Reg} (h : regAt addr.toNat = some r) :
    target p addr .w4 = .reg r := by
  have hs : (regAt addr.toNat).isSome = true := by rw [h]; rfl
  have := (regAt_isSome _).mp hs
  have h1 : addr.toNat < 0x1000 := by omega
  simp only [target, h1, if_true, h]

/-- The machine's sorting of accesses agrees with the table of R87. -/
theorem target_malformed_iff {p : Params} (hp : p.wellFormed = true) (addr : Word) (w : Width) :
    target p addr w = .malformed ↔ Access.wellFormed p (.read addr w) = false := by
  constructor
  · intro h
    simp only [Access.wellFormed, Bool.or_eq_false_iff]
    refine ⟨⟨?_, ?_⟩, ?_⟩
    · cases hr : regAccessOk addr w with
      | false => rfl
      | true =>
        simp only [regAccessOk, Bool.and_eq_true, decide_eq_true_eq] at hr
        obtain ⟨r, hr'⟩ := Option.isSome_iff_exists.mp ((regAt_isSome addr.toNat).mpr ⟨hr.1.1, hr.2⟩)
        rw [hr.1.2, target_of_reg hr'] at h; cases h
    · cases hd : descAccessOk p addr w with
      | false => rfl
      | true => rw [target_of_desc hp hd] at h; cases h
    · cases hb : bufAccessOk p addr w with
      | false => rfl
      | true => rw [target_of_buf hb] at h; cases h
  · intro h
    simp only [Access.wellFormed, Bool.or_eq_false_iff] at h
    cases ht : target p addr w with
    | malformed => rfl
    | reg r =>
      obtain ⟨hm, hw⟩ := target_reg ht
      have : regAccessOk addr w = true := by
        simp only [registerMap, List.mem_cons, Prod.mk.injEq, List.not_mem_nil, or_false] at hm
        simp only [regAccessOk, hw, Bool.and_eq_true, decide_eq_true_eq]
        refine ⟨⟨?_, trivial⟩, ?_⟩ <;> omega
      rw [this] at h; exact absurd h.1.1 (by simp)
    | desc i j =>
      obtain ⟨h1, h2, h3, h4⟩ := target_desc ht
      have : descAccessOk p addr w = true := by
        simp only [descBase] at h1
        simp only [descAccessOk, h4, Bool.and_eq_true, decide_eq_true_eq]
        refine ⟨⟨⟨?_, ?_⟩, trivial⟩, ?_⟩ <;> omega
      rw [this] at h; exact absurd h.1.2 (by simp)
    | buf o =>
      obtain ⟨h1, h2, h3⟩ := target_buf ht
      have : bufAccessOk p addr w = true := by
        simp only [bufBase] at h1
        simp only [bufAccessOk, h3, Bool.and_eq_true, decide_eq_true_eq]
        refine ⟨⟨?_, ?_⟩, trivial⟩ <;> omega
      rw [this] at h; exact absurd h.2 (by simp)

/-! ### The cases of an access -/

/-- The argument registers a host write stores to (R92). -/
def argRegs : List StoreReg := [.src, .len, .dst, .type, .crcAcc]

/-- Everything an access can do to the engine (R91 to R97, R139, R380). -/
inductive AccessCase (s : State) : Access → State → Prop
  | nothing (a : Access) : AccessCase s a s
  | busErr (a : Access) (h : target s.params (match a with | .read x _ => x | .write x _ _ => x)
      (match a with | .read _ w => w | .write _ w _ => w) = .malformed) :
      AccessCase s a (s.setStatus { s.status with busErr := true })
  | read (x : Word) (w : Width) (v : Word) (t : State) (h : AccessCase s (.read x w) t)
      (ht : t = s ∨ t = s.setStatus { s.status with busErr := true }) :
      AccessCase s (.read x w) { t with readData := v }
  | writeClear (w : Word) : AccessCase s (.write 0x00000008#32 .w4 w) (s.setStatus (s.status.writeClear w))
  | haz (x : Word) (w : Width) (v : Word) (hb : s.status.busy = true) :
      AccessCase s (.write x w v) (s.setStatus { s.status with haz := true })
  | issue (w : Word) (hb : s.status.busy = false) : AccessCase s (.write 0x00000004#32 .w4 w) (s.issue w)
  | config (w : Word) (hb : s.status.busy = false) :
      AccessCase s (.write 0x0000000C#32 .w4 w) { s with cfg := Cfg.ofWord w }
  | store (x w : Word) (q : StoreReg) (hb : s.status.busy = false) (hq : q ∈ argRegs) :
      AccessCase s (.write x .w4 w) (s.setReg q w)
  | buffer (x : Word) (w : Width) (v : Word) (o : Nat) (hb : s.status.busy = false)
      (ho : o + w.bytes ≤ s.params.bufSize.toNat) :
      AccessCase s (.write x w v) (s.writeBuf o (laneBytes v w.bytes))

theorem writeReg_cases (s : State) (addr v : Word) (r : Reg) (h : (addr.toNat, r) ∈ registerMap) :
    AccessCase s (.write addr .w4 v) (s.writeReg r v) := by
  have e : ∀ n, addr.toNat = n → n < 2 ^ 32 → addr = BitVec.ofNat 32 n := by
    intro n hn hl; apply BitVec.eq_of_toNat_eq; rw [hn, BitVec.toNat_ofNat, Nat.mod_eq_of_lt hl]
  simp only [registerMap, List.mem_cons, Prod.mk.injEq, List.not_mem_nil, or_false] at h
  rcases h with ⟨ha, rfl⟩ | ⟨ha, rfl⟩ | ⟨ha, rfl⟩ | ⟨ha, rfl⟩ | ⟨ha, rfl⟩ | ⟨ha, rfl⟩ | ⟨ha, rfl⟩ | ⟨ha, rfl⟩ |
    ⟨ha, rfl⟩ | ⟨ha, rfl⟩ | ⟨ha, rfl⟩ | ⟨ha, rfl⟩ | ⟨ha, rfl⟩ | ⟨ha, rfl⟩ | ⟨ha, rfl⟩ | ⟨ha, rfl⟩ | ⟨ha, rfl⟩ |
    ⟨ha, rfl⟩ | ⟨ha, rfl⟩ | ⟨ha, rfl⟩ | ⟨ha, rfl⟩ | ⟨ha, rfl⟩ <;> simp only [State.writeReg, writeRule]
  all_goals first
    | exact .nothing _
    | (rw [e _ ha (by omega)]; exact .writeClear v)
    | (simp only [State.unlessBusy]
       split
       · next hb => exact .haz _ _ _ hb
       · next hb =>
         have hb' : s.status.busy = false := by simpa using hb
         first
           | exact .store _ v _ hb' (by simp [argRegs])
           | (rw [e _ ha (by omega)]; exact .issue v hb')
           | (rw [e _ ha (by omega)]; exact .config v hb'))

/-- Every access does one of these things. -/
theorem access_cases (s : State) (lanes : Word) (a : Access) : AccessCase s a (s.access lanes a) := by
  cases a with
  | read x w =>
    simp only [State.access, State.readAccess]
    split
    · next h => exact .read x w _ _ (.busErr _ h) (.inr rfl)
    · exact .read x w _ _ (.nothing _) (.inl rfl)
  | write x w v =>
    simp only [State.access, State.writeAccess]
    cases ht : target s.params x w with
    | malformed => exact .busErr (.write x w v) ht
    | reg r =>
      obtain ⟨hm, rfl⟩ := target_reg ht
      exact writeReg_cases s x v r hm
    | desc i j => exact .nothing _
    | buf o =>
      obtain ⟨_, ho, _⟩ := target_buf ht
      simp only [State.unlessBusy]
      split
      · next hb => exact .haz _ _ _ hb
      · next hb => exact .buffer x w v o (by simpa using hb) ho

/-- The lanes of a turn matter only while a command is pending (R382). -/
theorem access_lanes {s : State} (h : s.status.busy = false) (l m : Word) (a : Access) :
    s.access l a = s.access m a := by
  cases a with
  | read x w => simp [State.access, State.readValue, h]
  | write x w v => rfl

end Sys2Proof.Machine
end

