-- ==== Sys2Proof/Laws/PerInstr.lean ====
section
/-!
SUPPORT. Statements about every command as syntax: its word, read back from its opcode-table row.
-/
namespace Sys2Proof.Laws.TableWord

/-- The command's word (R132) is well-formed, and reading it as its table row gives the command back. -/
def Statement (i : Instr) : Prop := i.wellFormed = true ∧ decodeTableWord 32 (encode i).toNat = some i

theorem nop : Statement .nop := ⟨rfl, by decide⟩
theorem crcInit : Statement .crcInit := ⟨rfl, by decide⟩
theorem crcUpdate : Statement .crcUpdate := ⟨rfl, by decide⟩
theorem crcFinal : Statement .crcFinal := ⟨rfl, by decide⟩
theorem crcBlock : Statement .crcBlock := ⟨rfl, by decide⟩
theorem crcChunk : Statement .crcChunk := ⟨rfl, by decide⟩
theorem typeFromText : Statement .typeFromText := ⟨rfl, by decide⟩
theorem chunkEmit : Statement .chunkEmit := ⟨rfl, by decide⟩
theorem chunkParse : Statement .chunkParse := ⟨rfl, by decide⟩
theorem sigEmit : Statement .sigEmit := ⟨rfl, by decide⟩
theorem streamParse : Statement .streamParse := ⟨rfl, by decide⟩
theorem findType : Statement .findType := ⟨rfl, by decide⟩

end Sys2Proof.Laws.TableWord
end

