-- ==== Sys2Proof/Laws/Walk.lean ====
section
/-!
SUPPORT. What ParseChunk and the walk of STREAM_PARSE do, said once: when ParseChunk answers what (R232), the chunks a
walk passes, what recording them leaves, and the ways a walk can end (R275).
-/
namespace Sys2Proof.Machine
open Sys2Proof.Claims

/-! ### ParseChunk -/

/-- The length field at `base` (R230). -/
def lenField (m : Memory) (base : Nat) : Word := be32 (memRead m base 4)

/-- ParseChunk looks at CFG and the buffer alone. -/
theorem parseChunk_congr {s u : State} (hc : u.cfg = s.cfg) (hb : u.buf = s.buf) (base w : Nat) :
    parseChunk u base w = parseChunk s base w := by
  simp only [parseChunk, State.overLimit, hc, hb]

theorem parseChunk_noLength {s : State} {base w : Nat} (h : w < 4) : parseChunk s base w = .err .truncated none := by
  simp [parseChunk, h]

theorem parseChunk_overLimit {s : State} {base w : Nat} (h : 4 ≤ w)
    (hl : s.overLimit (lenField s.buf base).toNat = true) : parseChunk s base w = .err .lengthLimit none := by
  simp only [lenField] at hl
  simp [parseChunk, Nat.not_lt.mpr h, hl]

theorem parseChunk_tooLong {s : State} {base w : Nat} (h : 4 ≤ w)
    (hl : s.overLimit (lenField s.buf base).toNat = false) (hw : w < 12 + (lenField s.buf base).toNat) :
    parseChunk s base w = .err .truncated none := by
  simp only [lenField] at hl hw
  simp [parseChunk, Nat.not_lt.mpr h, hl, hw]

theorem parseChunk_whole {s : State} {base w : Nat} (hl : s.overLimit (lenField s.buf base).toNat = false)
    (hw : 12 + (lenField s.buf base).toNat ≤ w) :
    parseChunk s base w =
      if (chunkInfoAt s.buf base (lenField s.buf base)).stored = (chunkInfoAt s.buf base (lenField s.buf base)).computed
      then .ok (chunkInfoAt s.buf base (lenField s.buf base))
      else .err .crcMismatch (some (chunkInfoAt s.buf base (lenField s.buf base))) := by
  simp only [lenField] at hl hw ⊢
  have h4 : ¬ w < 4 := by omega
  unfold parseChunk
  rw [if_neg h4]
  dsimp only
  rw [hl, if_neg (by simp), if_neg (Nat.not_lt.mpr hw)]
  exact if_congr Iff.rfl rfl rfl

/-- ParseChunk depends on CFG.STRICT_LEN and on the bytes of its window alone (R232). -/
theorem parseChunk_window {s u : State} {base w : Nat} (hc : u.cfg.strictLen = s.cfg.strictLen)
    (h : ∀ a, base ≤ a → a < base + w → byteAt u.buf a = byteAt s.buf a) : parseChunk u base w = parseChunk s base w := by
  have hr : ∀ off n, base ≤ off → off + n ≤ base + w → memRead u.buf off n = memRead s.buf off n := fun off n h1 h2 =>
    memRead_congr _ _ _ _ fun a h3 h4 => h a (by omega) (by omega)
  have hl : u.overLimit = s.overLimit := by funext n; simp only [State.overLimit, hc]
  rcases Nat.lt_or_ge w 4 with hw | hw
  · rw [parseChunk_noLength hw, parseChunk_noLength hw]
  have hf : lenField u.buf base = lenField s.buf base := by rw [lenField, lenField, hr _ _ le_rfl (by omega)]
  cases ho : s.overLimit (lenField s.buf base).toNat with
  | true => rw [parseChunk_overLimit hw ho, parseChunk_overLimit hw (by rw [hf, hl, ho])]
  | false =>
    have ho' : u.overLimit (lenField u.buf base).toNat = false := by rw [hf, hl, ho]
    rcases Nat.lt_or_ge w (12 + (lenField s.buf base).toNat) with hw' | hw'
    · rw [parseChunk_tooLong hw ho hw', parseChunk_tooLong hw ho' (by rw [hf]; exact hw')]
    · have hi : chunkInfoAt u.buf base (lenField s.buf base) = chunkInfoAt s.buf base (lenField s.buf base) := by
        simp only [chunkInfoAt]
        rw [hr (base + 4) 4 (by omega) (by omega), hr (base + 8) _ (by omega) (by omega),
          hr (base + 8 + (lenField s.buf base).toNat) 4 (by omega) (by omega)]
      rw [parseChunk_whole ho hw', parseChunk_whole ho' (by rw [hf]; exact hw'), hf, hi]

/-- When ParseChunk answers `Ok`, and with what. -/
theorem parseChunk_ok {s : State} {base w : Nat} {i : ChunkInfo} (h : parseChunk s base w = .ok i) :
    12 + i.len.toNat ≤ w ∧ s.overLimit i.len.toNat = false ∧ i.len = lenField s.buf base ∧
      i = chunkInfoAt s.buf base (lenField s.buf base) ∧ i.stored = i.computed := by
  rcases Nat.lt_or_ge w 4 with h4 | h4
  · rw [parseChunk_noLength h4] at h; cases h
  · cases hl : s.overLimit (lenField s.buf base).toNat with
    | true => rw [parseChunk_overLimit h4 hl] at h; cases h
    | false =>
      rcases Nat.lt_or_ge w (12 + (lenField s.buf base).toNat) with hw | hw
      · rw [parseChunk_tooLong h4 hl hw] at h; cases h
      · rw [parseChunk_whole hl hw] at h
        split at h
        · next hc => cases h; exact ⟨hw, hl, rfl, rfl, hc⟩
        · cases h

/-- When ParseChunk reports the values of a chunk that fails, it is a CRC mismatch of a chunk that fits. -/
theorem parseChunk_err_some {s : State} {base w : Nat} {e : ErrorKind} {i : ChunkInfo}
    (h : parseChunk s base w = .err e (some i)) :
    e = .crcMismatch ∧ 12 + i.len.toNat ≤ w ∧ s.overLimit i.len.toNat = false ∧ i.len = lenField s.buf base ∧
      i = chunkInfoAt s.buf base (lenField s.buf base) ∧ i.stored ≠ i.computed := by
  rcases Nat.lt_or_ge w 4 with h4 | h4
  · rw [parseChunk_noLength h4] at h; cases h
  · cases hl : s.overLimit (lenField s.buf base).toNat with
    | true => rw [parseChunk_overLimit h4 hl] at h; cases h
    | false =>
      rcases Nat.lt_or_ge w (12 + (lenField s.buf base).toNat) with hw | hw
      · rw [parseChunk_tooLong h4 hl hw] at h; cases h
      · rw [parseChunk_whole hl hw] at h
        split at h
        · cases h
        · next hc => cases h; exact ⟨rfl, hw, hl, rfl, rfl, hc⟩

/-! ### The chunks a walk passes -/

/-- The cursor after the chunks `is` from `off` (R277). -/
def endOff : Nat → List ChunkInfo → Nat
  | off, [] => off
  | off, i :: is => endOff (off + 12 + i.len.toNat) is

/-- ParseChunk answers `Ok` for each chunk of `is` in turn, each begun below `stop`. -/
def Passes (s : State) (stop : Nat) : Nat → List ChunkInfo → Prop
  | _, [] => True
  | off, i :: is => off < stop ∧ parseChunk s off (stop - off) = .ok i ∧ Passes s stop (off + 12 + i.len.toNat) is

/-- The state after recording the chunks `is`, the first as chunk `k` at `off`. -/
def recordAll : Nat → Nat → List ChunkInfo → State → State
  | _, _, [], s => s
  | k, off, i :: is, s => recordAll (k + 1) (off + 12 + i.len.toNat) is (recordChunk k off i s)

theorem Passes.congr {s u : State} (hc : u.cfg = s.cfg) (hb : u.buf = s.buf) {stop off : Nat} {is : List ChunkInfo}
    (h : Passes s stop off is) : Passes u stop off is := by
  induction is generalizing off with
  | nil => trivial
  | cons i is ih => exact ⟨h.1, by rw [parseChunk_congr hc hb]; exact h.2.1, ih h.2.2⟩

theorem le_endOff (off : Nat) (is : List ChunkInfo) : off + 12 * is.length ≤ endOff off is := by
  induction is generalizing off with
  | nil => simp [endOff]
  | cons i is ih =>
    have := ih (off + 12 + i.len.toNat)
    simp only [endOff, List.length_cons]; omega

theorem Passes.endOff_le {s : State} {stop off : Nat} {is : List ChunkInfo} (h : Passes s stop off is)
    (ho : off ≤ stop) : endOff off is ≤ stop := by
  induction is generalizing off with
  | nil => exact ho
  | cons i is ih =>
    have hp := (parseChunk_ok h.2.1).1
    have := h.1
    exact ih h.2.2 (by omega)

theorem Passes.append {s : State} {stop off : Nat} {is js : List ChunkInfo} (h : Passes s stop off is)
    (k : Passes s stop (endOff off is) js) : Passes s stop off (is ++ js) := by
  induction is generalizing off with
  | nil => exact k
  | cons i is ih => exact ⟨h.1, h.2.1, ih h.2.2 k⟩

theorem endOff_append (off : Nat) (is js : List ChunkInfo) : endOff off (is ++ js) = endOff (endOff off is) js := by
  induction is generalizing off with
  | nil => rfl
  | cons i is ih => simp [endOff, ih]

theorem recordAll_append (k off : Nat) (is js : List ChunkInfo) (s : State) :
    recordAll k off (is ++ js) s = recordAll (k + is.length) (endOff off is) js (recordAll k off is s) := by
  induction is generalizing k off s with
  | nil => rfl
  | cons i is ih =>
    simp only [List.cons_append, recordAll, endOff, List.length_cons, ih]
    rw [show k + 1 + is.length = k + (is.length + 1) by omega]

theorem recordAll_frame (k off : Nat) (is : List ChunkInfo) (s : State) :
    CommandFrame streamRegs s (recordAll k off is s) := by
  induction is generalizing k off s with
  | nil => exact .refl _ s
  | cons i is ih => exact (recordChunk_frame k off i s).trans (ih _ _ _)

theorem recordAll_regs (k off : Nat) (is : List ChunkInfo) (s : State) (r : StoreReg) (h : r ∉ chunkRegList) :
    (recordAll k off is s).reg r = s.reg r := by
  induction is generalizing k off s with
  | nil => rfl
  | cons i is ih => simp only [recordAll, ih, recordChunk_reg]; exact (writeChunkRegs_frame off i s).regs r h

@[simp] theorem recordAll_buf (k off : Nat) (is : List ChunkInfo) (s : State) : (recordAll k off is s).buf = s.buf := by
  induction is generalizing k off s with
  | nil => rfl
  | cons i is ih => simp [recordAll, ih]

/-- After the last chunk its five registers stand (R233). -/
theorem recordAll_last (k off : Nat) (is : List ChunkInfo) (i : ChunkInfo) (s : State) (r : StoreReg) :
    (recordAll k off (is ++ [i]) s).reg r = (writeChunkRegs (endOff off is) i (recordAll k off is s)).reg r := by
  rw [recordAll_append]; rfl

/-- The descriptors below `k` and from the last one on are untouched. -/
theorem recordAll_desc_outside (k off : Nat) (is : List ChunkInfo) (s : State) (j : Nat)
    (h : j < k ∨ k + is.length ≤ j) : descAt (recordAll k off is s).desc j = descAt s.desc j := by
  induction is generalizing k off s with
  | nil => rfl
  | cons i is ih =>
    simp only [List.length_cons] at h
    simp only [recordAll]
    rw [ih _ _ _ (by omega), recordChunk_desc, descAt_setDesc_ne _ _ _ _ (by omega)]

theorem recordChunk_desc_wf (cap k off : Nat) (i : ChunkInfo) (s : State) (h : s.desc.wf cap = true) (hk : k < cap) :
    (recordChunk k off i s).desc.wf cap = true := by
  rw [recordChunk_desc]
  exact setDesc_wf cap s.desc k _ hk h

theorem recordAll_desc_wf (cap k off : Nat) (is : List ChunkInfo) (s : State) (h : s.desc.wf cap = true)
    (hk : k + is.length ≤ cap) : (recordAll k off is s).desc.wf cap = true := by
  induction is generalizing k off s with
  | nil => exact h
  | cons i is ih =>
    simp only [List.length_cons] at hk
    exact ih _ _ _ (recordChunk_desc_wf cap k off i s h (by omega)) (by omega)

/-- Chunk `j` of the walk has descriptor `k + j`: its cursor, length, type and stored CRC (R275). -/
theorem recordAll_desc_inside (cap k off : Nat) (is : List ChunkInfo) (s : State) (h : s.desc.wf cap = true)
    (hk : k + is.length ≤ cap) (j : Nat) (hj : j < is.length) :
    descAt (recordAll k off is s).desc (k + j) =
      { off := toWord (endOff off (is.take j)), len := is[j].len, type := is[j].type, crc := is[j].stored } := by
  induction is generalizing k off s j with
  | nil => simp at hj
  | cons i is ih =>
    simp only [List.length_cons] at hk hj
    cases j with
    | zero =>
      simp only [recordAll, List.take_zero, endOff, List.getElem_cons_zero]
      rw [recordAll_desc_outside _ _ _ _ _ (by omega), recordChunk_desc]
      exact descAt_setDesc_self cap s.desc k _ h
    | succ j =>
      have := ih (k + 1) (off + 12 + i.len.toNat) (recordChunk k off i s)
        (recordChunk_desc_wf cap k off i s h (by omega)) (by omega) j (by omega)
      rw [show k + (j + 1) = k + 1 + j by omega]
      simpa [recordAll, endOff] using this

/-! ### The walk -/

/-- A walk passes the chunks that parse, and goes on after them. -/
theorem streamWalk_passes {stop room k off : Nat} {is : List ChunkInfo} {s : State} (h : Passes s stop off is)
    (hr : is.length ≤ room) :
    streamWalk stop room k off s =
      streamWalk stop (room - is.length) (k + is.length) (endOff off is) (recordAll k off is s) := by
  induction is generalizing room k off s with
  | nil => rfl
  | cons i is ih =>
    simp only [List.length_cons] at hr
    obtain ⟨room, rfl⟩ : ∃ n, room = n + 1 := ⟨room - 1, by omega⟩
    have hp : Passes (recordChunk k off i s) stop (off + 12 + i.len.toNat) is :=
      h.2.2.congr (recordChunk_cfg k off i s) (recordChunk_buf k off i s)
    simp only [streamWalk, h.1, if_true, h.2.1, List.length_cons, recordAll, endOff]
    rw [ih hp (by omega), show room + 1 - (is.length + 1) = room - is.length by omega,
      show k + 1 + is.length = k + (is.length + 1) by omega]

/-- How a walk ends, after the chunks `is`: at the end of the stream, with a full table, or at a chunk that does not
parse. -/
inductive WalkEnd (stop room k off : Nat) (s : State) (is : List ChunkInfo) : Answer → Prop
  | done (h : endOff off is = stop) :
      WalkEnd stop room k off s is (streamDone (k + is.length) stop (recordAll k off is s))
  | full (h : endOff off is < stop) (hr : is.length = room) :
      WalkEnd stop room k off s is (streamFail .descOverflow (k + is.length) (endOff off is) (recordAll k off is s))
  | bad (h : endOff off is < stop) (hr : is.length < room) (i : ChunkInfo)
      (hp : parseChunk s (endOff off is) (stop - endOff off is) = .err .crcMismatch (some i)) :
      WalkEnd stop room k off s is
        (streamFail .crcMismatch (k + is.length) (endOff off is)
          (writeChunkRegs (endOff off is) i (recordAll k off is s)))
  | unreadable (h : endOff off is < stop) (hr : is.length < room) (e : ErrorKind)
      (hp : parseChunk s (endOff off is) (stop - endOff off is) = .err e none) :
      WalkEnd stop room k off s is (streamFail e (k + is.length) (endOff off is) (recordAll k off is s))

/-- Every walk that begins at or below the end of the stream passes some chunks and then ends in one of these ways. -/
theorem streamWalk_cases (stop room k off : Nat) (s : State) (ho : off ≤ stop) :
    ∃ is, Passes s stop off is ∧ is.length ≤ room ∧ WalkEnd stop room k off s is (streamWalk stop room k off s) := by
  induction room generalizing k off s with
  | zero =>
    refine ⟨[], trivial, le_rfl, ?_⟩
    simp only [streamWalk]; split
    · next h => exact .full h rfl
    · next h => exact .done (by simp only [endOff]; omega)
  | succ room ih =>
    simp only [streamWalk]; split
    · next h =>
      cases hp : parseChunk s off (stop - off) with
      | ok i =>
        have hle := (parseChunk_ok hp).1
        obtain ⟨is, h1, h2, h3⟩ := ih (k + 1) (off + 12 + i.len.toNat) (recordChunk k off i s) (by omega)
        have hc := recordChunk_cfg k off i s
        have hb := recordChunk_buf k off i s
        have h1' : Passes s stop (off + 12 + i.len.toNat) is := h1.congr hc.symm hb.symm
        refine ⟨i :: is, ⟨h, hp, h1'⟩, by simpa using h2, ?_⟩
        have hk : k + 1 + is.length = k + (i :: is).length := by simp; omega
        dsimp only
        generalize streamWalk stop room (k + 1) (off + 12 + i.len.toNat) (recordChunk k off i s) = a at h3 ⊢
        cases h3 with
        | done h => rw [hk]; exact .done h
        | full h hr => rw [hk]; exact .full h (by simpa using hr)
        | bad h hr j hj =>
          rw [hk]
          exact WalkEnd.bad (off := off) (s := s) (is := i :: is) h (by simpa using hr) j ((parseChunk_congr hc hb _ _).symm.trans hj)
        | unreadable h hr e he =>
          rw [hk]
          exact WalkEnd.unreadable (off := off) (s := s) (is := i :: is) h (by simpa using hr) e ((parseChunk_congr hc hb _ _).symm.trans he)
      | err e info =>
        refine ⟨[], trivial, by simp, ?_⟩
        cases info with
        | some i =>
          dsimp only
          have he := (parseChunk_err_some hp).1
          subst he
          exact .bad h (by simp) i hp
        | none => dsimp only; exact .unreadable h (by simp) e hp
    · next h => exact ⟨[], trivial, by simp, .done (by simp only [endOff]; omega)⟩

/-! ### The search -/

/-- What FIND_TYPE's search answers: the first index whose type is the one sought, or none. -/
theorem findFrom_some {tbl : DescTable} {t : Word} {i n k : Nat} (h : findFrom tbl t i n = some k) :
    i ≤ k ∧ k < i + n ∧ (descAt tbl k).type = t ∧ ∀ j, i ≤ j → j < k → (descAt tbl j).type ≠ t := by
  induction n generalizing i with
  | zero => cases h
  | succ n ih =>
    simp only [findFrom] at h
    split at h
    · next ht => cases h; exact ⟨le_rfl, by omega, ht, fun j h1 h2 => by omega⟩
    · next ht =>
      obtain ⟨h1, h2, h3, h4⟩ := ih h
      refine ⟨by omega, by omega, h3, fun j hj hk => ?_⟩
      rcases Nat.eq_or_lt_of_le hj with rfl | hj'
      · exact ht
      · exact h4 j hj' hk

theorem findFrom_none {tbl : DescTable} {t : Word} {i n : Nat} (h : findFrom tbl t i n = none) :
    ∀ j, i ≤ j → j < i + n → (descAt tbl j).type ≠ t := by
  induction n generalizing i with
  | zero => intro j h1 h2; omega
  | succ n ih =>
    simp only [findFrom] at h
    split at h
    · cases h
    · next ht =>
      intro j h1 h2
      rcases Nat.eq_or_lt_of_le h1 with rfl | h1'
      · exact ht
      · exact ih h j h1' (by omega)

end Sys2Proof.Machine
end

