-- ==== Sys2Proof/Laws/Step.lean ====
section
/-!
SUPPORT. Everything a step can do, said once, and what the decoder answers.
-/
namespace Sys2Proof.Machine

/-! ### The decoder -/

theorem lookupOp_some {rows : List (Byte × Instr)} {op : Byte} {i : Instr} (h : lookupOp rows op = some i) :
    (op, i) ∈ rows := by
  induction rows with
  | nil => cases h
  | cons e rows ih =>
    obtain ⟨o, j⟩ := e
    simp only [lookupOp] at h
    split at h
    · next ho => cases h; subst ho; simp
    · exact List.mem_cons_of_mem _ (ih h)

/-- A word is its two fields (R130). -/
theorem word_of_fields (w : Word) : w = mbzField w ++ opField w := by
  apply BitVec.eq_of_getLsbD_eq
  intro i hi
  simp only [mbzField, opField, BitVec.getLsbD_append, BitVec.getLsbD_extractLsb']
  split
  · next h => simp [h]
  · next h => simp [show i - 8 < 24 by omega, show 8 + (i - 8) = i by omega]

/-- What decodes is the encoding of what it decodes to (R131). -/
theorem encode_of_decode {w : Word} {i : Instr} (h : decode w = .ok i) : w = encode i := by
  unfold decode at h
  split at h
  · next hm =>
    cases hl : lookupOp opcodeMap (opField w) with
    | none => rw [hl] at h; cases h
    | some j =>
      rw [hl] at h
      cases h
      have hmem := lookupOp_some hl
      have hw := word_of_fields w
      rw [hm] at hw
      simp only [opcodeMap, List.mem_cons, Prod.mk.injEq, List.not_mem_nil, or_false] at hmem
      rcases hmem with ⟨ho, rfl⟩ | ⟨ho, rfl⟩ | ⟨ho, rfl⟩ | ⟨ho, rfl⟩ | ⟨ho, rfl⟩ | ⟨ho, rfl⟩ | ⟨ho, rfl⟩ | ⟨ho, rfl⟩ |
        ⟨ho, rfl⟩ | ⟨ho, rfl⟩ | ⟨ho, rfl⟩ | ⟨ho, rfl⟩ <;> (rw [ho] at hw; rw [hw]; rfl)
  · cases h

/-! ### Turns -/

/-- The lanes of the host's turn matter only while a command is pending. -/
theorem hostTurn_lanes {s : State} (h : s.status.busy = false) (l m : Word) : hostTurn l s = hostTurn m s := by
  unfold hostTurn
  split
  · rfl
  · next a rest _ => exact access_lanes (s := { s with hostProg := rest }) h l m a
  · rfl

/-- Everything a turn of the host can do. -/
inductive HostCase (lanes : Word) (s : State) : State → Prop
  | idle (h : s.hostProg = []) : HostCase lanes s s
  | access (a : Access) (ops : List HostOp) (h : s.hostProg = .access a :: ops) :
      HostCase lanes s ({ s with hostProg := ops }.access lanes a)
  | poll (ops : List HostOp) (h : s.hostProg = .wait :: ops) (l : List HostOp) :
      HostCase lanes s { s with hostProg := l, readData := s.status.toWord }

theorem hostTurn_cases (lanes : Word) (s : State) : HostCase lanes s (hostTurn lanes s) := by
  unfold hostTurn
  split
  · next h => exact .idle h
  · next a rest h => exact .access a rest h
  · next rest h =>
    split
    · have : pollStatus s = { s with hostProg := s.hostProg, readData := s.status.toWord } := rfl
      rw [this]; exact .poll rest h _
    · exact .poll rest h rest

/-- Everything a step can do. -/
inductive StepCase (s : State) : State → Prop
  | reset (rest : List Turn) (h : s.turns = .reset :: rest) : StepCase s { s with turns := rest }.resetEvent
  | engine (rest : List Turn) (h : s.turns = .engine :: rest ∨ (s.turns = [] ∧ rest = []))
      (hb : s.status.busy = true) (t : State) (ht : runPending { s with turns := rest } = .next t) : StepCase s t
  | idle (rest : List Turn) (h : s.turns = .engine :: rest) (hb : s.status.busy = false) :
      StepCase s { s with turns := rest }
  | host (lanes : Word) (rest : List Turn)
      (h : s.turns = .host lanes :: rest ∨ (s.turns = [] ∧ rest = [] ∧ s.status.busy = false)) :
      StepCase s (hostTurn lanes { s with turns := rest })

theorem turns_self {s : State} (h : s.turns = []) : { s with turns := [] } = s := by
  cases s; simp_all

theorem step_cases {s t : State} (h : step s = .next t) : StepCase s t := by
  unfold step nextStep at h
  split at h
  · next lanes rest ht => cases h; exact .host lanes rest (.inl ht)
  · next rest ht =>
    unfold engineTurn at h
    split at h
    · next hb => exact .engine rest (.inl ht) hb t h
    · next hb => cases h; exact .idle rest ht (by simpa using hb)
  · next rest ht => cases h; exact .reset rest ht
  · next ht =>
    split at h
    · next hb => exact .engine [] (.inr ⟨ht, rfl⟩) hb t (by rw [turns_self ht]; exact h)
    · next hb =>
      cases h
      have hb' : s.status.busy = false := by simpa using hb
      have := StepCase.host (s := s) 0#32 [] (.inr ⟨ht, rfl, hb'⟩)
      rwa [turns_self ht] at this

/-- The engine's step, whichever way it comes to be its turn (R140). -/
theorem step_engine {s : State} {rest : List Turn} (h : s.turns = .engine :: rest ∨ (s.turns = [] ∧ rest = []))
    (hb : s.status.busy = true) : step s = runPending { s with turns := rest } := by
  rcases h with h | ⟨h, rfl⟩
  · simp [step, nextStep, h, engineTurn, hb]
  · rw [turns_self h]; simp [step, nextStep, h, hb]

/-- The host's step, whichever way it comes to be its turn (R90). -/
theorem step_host {s : State} {lanes : Word} {rest : List Turn}
    (h : s.turns = .host lanes :: rest ∨ (s.turns = [] ∧ rest = [] ∧ s.status.busy = false)) :
    step s = .next (hostTurn lanes { s with turns := rest }) := by
  rcases h with h | ⟨h, rfl, hb⟩
  · simp [step, nextStep, h]
  · rw [turns_self h, hostTurn_lanes hb lanes 0#32]; simp [step, nextStep, h, hb]

/-- The engine's step runs the command that the pending word decodes to (R140). -/
theorem runPending_ok {s : State} {i : Instr} (h : decode (s.reg .cmd) = .ok i) : runPending s = exec i s := by
  simp [runPending, h]

end Sys2Proof.Machine
end

