-- ==== Sys2Proof/Tests/Slice0.lean ====
section
/-!
SUPPORT. Tests: ill-formed syntax is refused, the words of 30_encoding.md R132 decode, the vectors of
95_test_vectors.md (each test's comment names its vector), and for every statement with hypotheses a witness that meets
them.
-/
namespace Sys2Proof.Tests
open Sys2Proof Sys2Proof.Machine Sys2Proof.Claims

/-! ### Small states -/

/-- The state an answer holds. -/
def after : Answer → State
  | .next t => t
  | .fault f => nomatch f
  | .refused _ => State.reset

/-- Reset with other sizes. -/
def sized (bufSize descCap : Word) : State := { State.reset with params := { bufSize := bufSize, descCap := descCap } }

/-- The state with its four operand registers set. -/
def args (s : State) (src len dst type : Word) : State :=
  (((s.setReg .src src).setReg .len len).setReg .dst dst).setReg .type type

/-- The state with STRICT_LEN set. -/
def strict (s : State) : State := { s with cfg := { s.cfg with strictLen := true } }

/-- The state with the word `w` pending (R139). -/
def pending (s : State) (w : Word) : State :=
  (s.setReg .cmd w).setStatus { s.status with busy := true, done := false, err := false, errCode := 0#4 }

/-- The STATUS word a command leaves. -/
def statusAfter (i : Instr) (s : State) : Word := (after (exec i s)).readReg .status

/-- A register a command leaves. -/
def regAfter (i : Instr) (s : State) (r : StoreReg) : Word := (after (exec i s)).reg r

/-- "123456789" in ASCII. -/
def digits : List Byte := [0x31#8, 0x32#8, 0x33#8, 0x34#8, 0x35#8, 0x36#8, 0x37#8, 0x38#8, 0x39#8]

/-- M: "This is where your secret message will be!" (90_conflicts.md C1). -/
def message : List Byte :=
  [0x54#8, 0x68#8, 0x69#8, 0x73#8, 0x20#8, 0x69#8, 0x73#8, 0x20#8, 0x77#8, 0x68#8, 0x65#8, 0x72#8, 0x65#8, 0x20#8] ++
  [0x79#8, 0x6F#8, 0x75#8, 0x72#8, 0x20#8, 0x73#8, 0x65#8, 0x63#8, 0x72#8, 0x65#8, 0x74#8, 0x20#8, 0x6D#8, 0x65#8] ++
  [0x73#8, 0x73#8, 0x61#8, 0x67#8, 0x65#8, 0x20#8, 0x77#8, 0x69#8, 0x6C#8, 0x6C#8, 0x20#8, 0x62#8, 0x65#8, 0x21#8]

/-- The 54 bytes of E8. -/
def messageChunk : List Byte :=
  [0x00#8, 0x00#8, 0x00#8, 0x2A#8, 0x52#8, 0x75#8, 0x53#8, 0x74#8] ++ message ++ [0xAB#8, 0xD1#8, 0xD8#8, 0x4E#8]

/-- The 12 bytes of C-2. -/
def iendChunk : List Byte :=
  [0x00#8, 0x00#8, 0x00#8, 0x00#8, 0x49#8, 0x45#8, 0x4E#8, 0x44#8, 0xAE#8, 0x42#8, 0x60#8, 0x82#8]

/-- The signature of R14. -/
def magic : List Byte := [0x89#8, 0x50#8, 0x4E#8, 0x47#8, 0x0D#8, 0x0A#8, 0x1A#8, 0x0A#8]

/-- S74. -/
def s74 : List Byte := magic ++ messageChunk ++ iendChunk

/-! ### Ill-formed syntax -/

theorem test_params_bufSize_small :
    Params.wellFormed { bufSize := 15#32, descCap := 1#32 } = false ∧
    Params.wellFormed { bufSize := 16#32, descCap := 1#32 } = true := by decide

theorem test_params_bufSize_large :
    Params.wellFormed { bufSize := 0x80000001#32, descCap := 1#32 } = false ∧
    Params.wellFormed { bufSize := 0x80000000#32, descCap := 65536#32 } = true := by decide

theorem test_params_descCap :
    Params.wellFormed { bufSize := 16#32, descCap := 0#32 } = false ∧
    Params.wellFormed { bufSize := 16#32, descCap := 65537#32 } = false := by decide

/-- An offset with no register, a misaligned one, and a wrong width. -/
theorem test_regAccess_refused :
    regAccessOk 0x58#32 .w4 = false ∧ regAccessOk 0x12#32 .w4 = false ∧ regAccessOk 0x10#32 .w2 = false ∧
    regAccessOk 0x54#32 .w4 = true := by decide

/-- Below the window, past its end, a wrong width, and a misaligned address. -/
theorem test_descAccess_refused :
    descAccessOk Params.suggested 0x000FFFFC#32 .w4 = false ∧ descAccessOk Params.suggested 0x00101000#32 .w4 = false ∧
    descAccessOk Params.suggested 0x00100000#32 .w1 = false ∧ descAccessOk Params.suggested 0x00100002#32 .w4 = false ∧
    descAccessOk Params.suggested 0x00100FFC#32 .w4 = true := by decide

/-- Below the window, past its end, and a misaligned address. -/
theorem test_bufAccess_refused :
    bufAccessOk Params.suggested 0x7FFFFFFC#32 .w4 = false ∧ bufAccessOk Params.suggested 0x80010000#32 .w1 = false ∧
    bufAccessOk Params.suggested 0x8000FFFE#32 .w4 = false ∧ bufAccessOk Params.suggested 0x80000011#32 .w2 = false ∧
    bufAccessOk Params.suggested 0x8000FFFC#32 .w4 = true := by decide

theorem test_access_refused :
    Access.wellFormed Params.suggested (.read 0x00000058#32 .w4) = false ∧
    Access.wellFormed Params.suggested (.write 0x00001000#32 .w4 0#32) = false := by decide

theorem test_loc_refused : Loc.wellFormed (.buf 0x80000000) = false ∧ Loc.wellFormed (.desc 65536 .off) = false := by
  decide

theorem test_stmt_address_refused :
    Stmt.wellFormed (.sw (.buf 0x80000000) 0#32) = false ∧ Stmt.wellFormed (.sh (.buf 0x80000000) 0#32) = false ∧
    Stmt.wellFormed (.sb (.buf 0x80000000) 0#32) = false ∧ Stmt.wellFormed (.lw (.desc 65536 .crc)) = false ∧
    Stmt.wellFormed (.lh (.buf 0x80000000)) = false ∧ Stmt.wellFormed (.lb (.buf 0x80000000)) = false := by decide

/-- A character outside ASCII, and texts and byte lists that run past the port's addresses. -/
theorem test_stmt_put_refused :
    Stmt.wellFormed (.putText 0 ['é']) = false ∧ Stmt.wellFormed (.putText 0x80000000 ['a']) = false ∧
    Stmt.wellFormed (.putBytes 0x80000000 [0#8]) = false ∧ Stmt.wellFormed (.putText 0 ['a']) = true := by decide

/-! ### Decoding: the words of R132, and words it rejects -/

theorem test_decode_control_and_crc :
    decode 0x00000000#32 = .ok .nop ∧ decode 0x00000001#32 = .ok .crcInit ∧ decode 0x00000002#32 = .ok .crcUpdate ∧
    decode 0x00000003#32 = .ok .crcFinal ∧ decode 0x00000004#32 = .ok .crcBlock ∧
    decode 0x00000005#32 = .ok .crcChunk := by decide

theorem test_decode_type_chunk_stream :
    decode 0x00000010#32 = .ok .typeFromText ∧ decode 0x00000020#32 = .ok .chunkEmit ∧
    decode 0x00000021#32 = .ok .chunkParse ∧ decode 0x00000030#32 = .ok .sigEmit ∧
    decode 0x00000031#32 = .ok .streamParse ∧ decode 0x00000032#32 = .ok .findType := by decide

/-- N-2, N-3, N-4: a reserved opcode, a set bit above an assigned one, an unassigned opcode. -/
theorem test_decode_rejects :
    decode 0x000000FF#32 = .error (.reservedOpcode 0xFF#8) ∧ decode 0x00000104#32 = .error (.mbzNotZero 1#24) ∧
    decode 0x00000006#32 = .error (.reservedOpcode 0x06#8) ∧ decode 0x80000004#32 = .error (.mbzNotZero 0x800000#24) := by
  decide

theorem test_decodeTableWord :
    decodeTableWord 32 0x31 = some .streamParse ∧ decodeTableWord 32 0x104 = none ∧
    decodeTableWord 40 0x100000004 = none ∧ decodeTableWord 8 0x32 = some .findType := by decide

/-- A word placed by the host runs as the first command after reset. -/
theorem test_withFetchWord :
    (after (step (State.reset.withFetchWord 32 0x00000001))).status.done = true ∧
    (after (step (State.reset.withFetchWord 32 0x00000104))).status.errCode = 8#4 := by decide

/-! ### Functions: TYPE_FLAGS (vectors 2.1) and the CRC (vectors 2.2) -/

/-- The rows "Rust", "teSt", "AZaz" and the letter-range edges 0x40, 0x5B, 0x60, 0x7B. -/
theorem test_typeFlags_letters :
    typeFlags 0x52757374#32 = 0x13#32 ∧ typeFlags 0x74655374#32 = 0x39#32 ∧ typeFlags 0x415A617A#32 = 0x17#32 ∧
    typeFlags 0x405B607B#32 = 0x16#32 := by decide

/-- The rows "RuSt", "IHDR", "tEXt", all zeros and all ones. -/
theorem test_typeFlags_bits :
    typeFlags 0x52755374#32 = 0x3B#32 ∧ typeFlags 0x49484452#32 = 0x2F#32 ∧ typeFlags 0x74455874#32 = 0x3D#32 ∧
    typeFlags 0x00000000#32 = 0x0E#32 ∧ typeFlags 0xFFFFFFFF#32 = 0x10#32 := by decide

theorem test_crcByte :
    crcByte 0xFFFFFFFF#32 0x00#8 = 0x2DFD1072#32 ∧ crcByte 0x00000000#32 0x01#8 = 0x77073096#32 ∧
    crcByte 0x00000000#32 0x80#8 = 0xEDB88320#32 := by decide

theorem test_crc32 :
    crc32 [] = 0x00000000#32 ∧ crc32 [0x61#8] = 0xE8B7BE43#32 ∧ crc32 [0xFF#8] = 0xFF000000#32 ∧
    crc32 digits = 0xCBF43926#32 := by decide +kernel

/-! ### Commands -/

/-- N-1. -/
theorem test_nop : statusAfter .nop { State.reset with status := { State.reset.status with haz := true, busErr := true } } =
    0x0000001A#32 := by decide

/-- N-2: the word stays in CMD. -/
theorem test_illegal :
    (after (step (pending State.reset 0x000000FF#32))).readReg .status = 0x00000806#32 ∧
    (after (step (pending State.reset 0x000000FF#32))).readReg (.store .cmd) = 0x000000FF#32 := by decide

/-- The example of R210. -/
theorem test_crcInit : regAfter .crcInit (State.reset.setReg .crcAcc 0x12345678#32) .crcAcc = 0xFFFFFFFF#32 := by decide

/-- K-7. -/
theorem test_crcUpdate :
    regAfter .crcUpdate (args (State.reset.writeBuf 0 digits) 0#32 4#32 0#32 0#32) .crcAcc = 0x641C1F5C#32 := by decide +kernel

/-- K-11: the window runs past the buffer. -/
theorem test_crcUpdate_range :
    statusAfter .crcUpdate (args State.reset 65535#32 2#32 0#32 0#32) = 0x00000906#32 ∧
    regAfter .crcUpdate (args (State.reset.setReg .crcAcc 0x340BC6D9#32) 65535#32 2#32 0#32 0#32) .crcAcc =
      0x340BC6D9#32 := by decide

/-- K-10: CRC_ACC stays. -/
theorem test_crcFinal :
    regAfter .crcFinal (State.reset.setReg .crcAcc 0x340BC6D9#32) .crcResult = 0xCBF43926#32 ∧
    regAfter .crcFinal (State.reset.setReg .crcAcc 0x340BC6D9#32) .crcAcc = 0x340BC6D9#32 := by decide

/-- K-1. -/
theorem test_crcBlock :
    regAfter .crcBlock (args (State.reset.writeBuf 0 digits) 0#32 9#32 0#32 0#32) .crcResult = 0xCBF43926#32 := by decide +kernel

/-- K-3, K-5: an empty window at the end, and a sum that is not wrapped. -/
theorem test_crcBlock_edges :
    statusAfter .crcBlock (args State.reset 65536#32 0#32 0#32 0#32) = 0x00000002#32 ∧
    statusAfter .crcBlock (args State.reset 0xFFFFFFFF#32 2#32 0#32 0#32) = 0x00000906#32 := by decide

/-- K-13. -/
theorem test_crcChunk :
    regAfter .crcChunk (args (State.reset.writeBuf 0x100 message) 0x100#32 42#32 0#32 0x52755374#32) .crcResult =
      0xABD1D84E#32 := by decide +kernel

/-- K-14. -/
theorem test_crcChunk_empty : regAfter .crcChunk (args State.reset 0#32 0#32 0#32 0x49454E44#32) .crcResult = 0xAE426082#32 := by
  decide +kernel

/-- E5: "Rust" loads, though it is not valid. -/
theorem test_typeFromText :
    regAfter .typeFromText
      (args (State.reset.writeBuf 0x200 [0x52#8, 0x75#8, 0x73#8, 0x74#8]) 0x200#32 4#32 0#32 0x11223344#32) .type =
      0x52757374#32 := by decide

/-- "Ru{t" is FORMAT_CHAR, and five bytes are FORMAT_LENGTH. -/
theorem test_typeFromText_errors :
    statusAfter .typeFromText
      (args (State.reset.writeBuf 0x200 [0x52#8, 0x75#8, 0x7B#8, 0x74#8]) 0x200#32 4#32 0#32 0x11223344#32) =
      0x00000206#32 ∧
    statusAfter .typeFromText
      (args (State.reset.writeBuf 0x200 [0x52#8, 0x75#8, 0x53#8, 0x74#8]) 0x200#32 5#32 0#32 0x11223344#32) =
      0x00000106#32 := by decide

/-- The state of C-E6: source and destination overlap. -/
def overlap : State :=
  args (State.reset.writeBuf 0x100 [0x41#8, 0x42#8, 0x43#8, 0x44#8, 0x45#8, 0x46#8, 0x47#8, 0x48#8]) 0x100#32 8#32
    0x102#32 0x74655374#32

/-- C-E6. -/
theorem test_chunkEmit_overlap :
    memRead (after (exec .chunkEmit overlap)).buf 0x100 22 =
      [0x41#8, 0x42#8, 0x00#8, 0x00#8, 0x00#8, 0x08#8, 0x74#8, 0x65#8, 0x53#8, 0x74#8, 0x41#8, 0x42#8, 0x43#8, 0x44#8,
        0x45#8, 0x46#8, 0x47#8, 0x48#8, 0x8F#8, 0x88#8, 0x80#8, 0x79#8] := by decide +kernel

/-- C-E3, C-E4: LENGTH_LIMIT comes before RANGE, and only under STRICT_LEN. -/
theorem test_chunkEmit_limit :
    statusAfter .chunkEmit (strict (args State.reset 0x100#32 0x80000000#32 0#32 0#32)) = 0x00000B06#32 ∧
    statusAfter .chunkEmit (args State.reset 0x100#32 0x80000000#32 0#32 0#32) = 0x00000906#32 := by decide

/-- C-9: a length field of 0x28 takes the CRC from inside the data. -/
theorem test_chunkParse_mismatch :
    (let t := after (exec .chunkParse (args ((State.reset.writeBuf 8 messageChunk).writeBuf 11 [0x28#8]) 8#32 54#32 0#32 0#32))
     t.readReg .status = 0x00000306#32 ∧ t.reg .chunkLen = 0x28#32 ∧ t.reg .chunkCrc = 0x6521ABD1#32 ∧
       t.reg .calcCrc = 0x80F46C0A#32 ∧ t.reg .nextOff = 0x3C#32) := by decide +kernel

/-- C-18: LENGTH_LIMIT is checked before the whole chunk must fit. -/
theorem test_chunkParse_limit :
    statusAfter .chunkParse (strict (args (State.reset.writeBuf 0 [0x80#8]) 0#32 8#32 0#32 0#32)) = 0x00000B06#32 ∧
    statusAfter .chunkParse (args (State.reset.writeBuf 0 [0x80#8]) 0#32 8#32 0#32 0#32) = 0x00000406#32 := by decide

/-- S-1. -/
theorem test_sigEmit :
    memRead (after (exec .sigEmit State.reset)).buf 0 8 = magic ∧ regAfter .sigEmit State.reset .nextOff = 8#32 := by
  decide

/-- S-2, S-3: the last place it fits, and one past it. -/
theorem test_sigEmit_edge :
    statusAfter .sigEmit (State.reset.setReg .dst 65528#32) = 0x00000002#32 ∧
    statusAfter .sigEmit (State.reset.setReg .dst 65529#32) = 0x00000906#32 := by decide

/-- The state before S-4. -/
def beforeS4 : State := args (State.reset.writeBuf 0 s74) 0#32 74#32 0#32 0#32

/-- S-4. -/
theorem test_streamParse :
    (let t := after (exec .streamParse beforeS4)
     t.readReg .status = 0x00000002#32 ∧ t.reg .chunkCount = 2#32 ∧ t.reg .nextOff = 0x4A#32 ∧
       descAt t.desc 0 = { off := 0x08#32, len := 0x2A#32, type := 0x52755374#32, crc := 0xABD1D84E#32 } ∧
       descAt t.desc 1 = { off := 0x3E#32, len := 0x00#32, type := 0x49454E44#32, crc := 0xAE426082#32 }) := by decide +kernel

/-- S-10: the second chunk fails, and its values show. -/
theorem test_streamParse_mismatch :
    (let t := after (exec .streamParse (beforeS4.writeBuf 0x42 [0x69#8]))
     t.readReg .status = 0x00000306#32 ∧ t.reg .chunkCount = 0#32 ∧ t.reg .failIndex = 1#32 ∧
       t.reg .failOff = 0x3E#32 ∧ t.reg .calcCrc = 0x0E70CFBC#32 ∧ t.reg .chunkCrc = 0xAE426082#32) := by decide +kernel

/-- The state of F-4 to F-6 as D44 leaves it: two "teSt" and an "IEND". -/
def afterD44 (type : Word) : State :=
  { (State.reset.setReg .chunkCount 3#32).setReg .type type with
    desc :=
      [(0, { off := 0x08#32, len := 0#32, type := 0x74655374#32, crc := 0#32 }),
        (1, { off := 0x14#32, len := 0#32, type := 0x74655374#32, crc := 0#32 }),
        (2, { off := 0x20#32, len := 0#32, type := 0x49454E44#32, crc := 0xAE426082#32 })] }

/-- F-4, F-5. -/
theorem test_findType :
    regAfter .findType (afterD44 0x74655374#32) .findIndex = 0#32 ∧
    regAfter .findType (afterD44 0x49454E44#32) .findIndex = 2#32 := by decide

/-- F-6: not found, and no error. -/
theorem test_findType_none :
    regAfter .findType (afterD44 0x54455354#32) .findIndex = 0xFFFFFFFF#32 ∧
    statusAfter .findType (afterD44 0x54455354#32) = 0x00000002#32 := by decide

/-! ### The host port (vectors 2.6) -/

/-- The value a read returns. -/
def readBack (s : State) (addr : Word) (w : Width) : Word := (s.access 0#32 (.read addr w)).readData

/-- A write. -/
def wrote (s : State) (addr : Word) (w : Width) (v : Word) : State := s.access 0#32 (.write addr w v)

/-- H-1. -/
theorem test_reset_reads :
    readBack State.reset 0x000#32 .w4 = 0x504E4743#32 ∧ readBack State.reset 0x050#32 .w4 = 0x00010000#32 ∧
    readBack State.reset 0x054#32 .w4 = 0x00000100#32 ∧ readBack State.reset 0x020#32 .w4 = 0x0000000E#32 ∧
    readBack State.reset 0x024#32 .w4 = 0xFFFFFFFF#32 := by decide

/-- H-2. -/
theorem test_buffer_lanes_read :
    (let s := wrote State.reset 0x80000010#32 .w4 0x89504E47#32
     readBack s 0x80000010#32 .w2 = 0x00008950#32 ∧ readBack s 0x80000011#32 .w1 = 0x00000050#32 ∧
       readBack s 0x80000012#32 .w2 = 0x00004E47#32) := by decide

/-- H-3, H-4. -/
theorem test_buffer_lanes_write :
    memRead (wrote State.reset 0x80000020#32 .w2 0x12345678#32).buf 0x20 2 = [0x56#8, 0x78#8] ∧
    memRead (wrote State.reset 0x80000030#32 .w1 0x000001FF#32).buf 0x30 2 = [0xFF#8, 0x00#8] := by decide

/-- H-5 to H-9: misaligned, a narrow register access, unmapped, past the window; and the last word, which is legal. -/
theorem test_malformed :
    (State.reset.access 0#32 (.read 0x80000011#32 .w2)).readReg .status = 0x00000010#32 ∧
    (State.reset.access 0#32 (.read 0x00000010#32 .w2)).status.busErr = true ∧
    (State.reset.access 0#32 (.read 0x00000058#32 .w4)).status.busErr = true ∧
    (State.reset.access 0#32 (.read 0x8000FFFE#32 .w4)).status.busErr = true ∧
    (State.reset.access 0#32 (.read 0x8000FFFC#32 .w4)).status.busErr = false := by decide

/-- H-10, H-11. -/
theorem test_read_only :
    (wrote State.reset 0x028#32 .w4 0x5555#32).reg .crcResult = 0#32 ∧
    (wrote State.reset 0x00100000#32 .w4 7#32).readReg .status = 0x00000000#32 := by decide

/-- H-12, H-13. -/
theorem test_cfg_and_type :
    (wrote State.reset 0x00C#32 .w4 0xFFFFFFFF#32).readReg .cfg = 0x00000003#32 ∧
    (wrote State.reset 0x01C#32 .w4 0x52755374#32).readReg .typeFlags = 0x0000003B#32 := by decide

/-- The state of H-14 before its discarded writes. -/
def issued : State := wrote (wrote State.reset 0x010#32 .w4 0x1234#32) 0x004#32 .w4 0x04#32

/-- H-14. -/
theorem test_busy_writes :
    (let s := wrote (wrote (wrote issued 0x010#32 .w4 0x999#32) 0x80000000#32 .w1 0xAA#32) 0x004#32 .w4 0x01#32
     s.readReg .status = 0x00000009#32 ∧ s.reg .src = 0x1234#32 ∧ byteAt s.buf 0 = 0x00#8 ∧
       s.reg .cmd = 0x00000004#32) := by decide

/-- H-15: each lane read is a draw, and nothing else changes. -/
theorem test_busy_reads :
    (issued.access 0xAABBCCDD#32 (.read 0x80000000#32 .w2)).readData = 0xAABBCCDD#32 ∧
    (issued.access 0xAABBCCDD#32 (.read 0x00100000#32 .w4)).readReg .status = issued.readReg .status := by decide

/-- H-17 to H-19: completion, the interrupt, and its clearing. -/
theorem test_irq :
    (let s := wrote (after (step issued)) 0x00C#32 .w4 2#32
     s.readReg .status = 0x00000002#32 ∧ s.irq = true ∧ (wrote s 0x008#32 .w4 2#32).irq = false) := by decide

/-- H-20, H-21: an error, and clearing ERR with ERRCODE. -/
theorem test_error_clear :
    (let s := after (step (wrote State.reset 0x004#32 .w4 0x77#32))
     s.readReg .status = 0x00000806#32 ∧ (wrote s 0x008#32 .w4 0x4#32).readReg .status = 0x00000002#32) := by decide

/-- H-23: reset abandons the pending command and leaves the buffer. -/
theorem test_reset_turn :
    (let s : State := { wrote (State.reset.writeBuf 0 digits) 0x004#32 .w4 0x04#32 with turns := [.reset] }
     (after (step s)).readReg .status = 0x00000000#32 ∧ (after (step s)).reg .cmd = 0#32 ∧
       byteAt (after (step s)).buf 8 = 0x39#8) := by decide

/-! ### Witnesses: for every statement with hypotheses, states and operands that meet them together -/

/-- An answer is a next state. -/
def isNext : Answer → Bool
  | .next _ => true
  | .fault _ => false
  | .refused _ => false

theorem eq_next {a : Answer} (h : isNext a = true) : a = .next (after a) := by
  cases a with
  | next _ => rfl
  | fault f => exact nomatch f
  | refused _ => cases h

/-- A command pending, no turn fixed. -/
def waiting : State := pending State.reset 0x00000004#32

/-- The host's program `ops`, with the turns `turns`. -/
def hosted (s : State) (ops : List HostOp) (turns : List Turn) : State := { s with hostProg := ops, turns := turns }

theorem witness_StepRunsPendingCommand :
    (EngineNext waiting [] ∧ waiting.status.busy = true ∧ decode (waiting.reg .cmd) = .ok .crcBlock) ∧
    (EngineNext (hosted waiting [] [.engine, .reset]) [.reset] ∧
      (hosted waiting [] [.engine, .reset]).status.busy = true ∧
      decode ((hosted waiting [] [.engine, .reset]).reg .cmd) = .ok .crcBlock) :=
  ⟨⟨.inr ⟨rfl, rfl⟩, rfl, rfl⟩, ⟨.inl rfl, rfl, rfl⟩⟩

theorem witness_StepPerformsHostAccess :
    (HostNext (hosted State.reset [.access (.read 0x8#32 .w4)] []) 5#32 [] ∧
      (hosted State.reset [.access (.read 0x8#32 .w4)] []).hostProg = [.access (.read 0x8#32 .w4)]) ∧
    (HostNext (hosted waiting [.access (.read 0x80000000#32 .w4)] [.host 5#32]) 5#32 [] ∧
      (hosted waiting [.access (.read 0x80000000#32 .w4)] [.host 5#32]).hostProg =
        [.access (.read 0x80000000#32 .w4)]) :=
  ⟨⟨.inr ⟨rfl, rfl, rfl⟩, rfl⟩, ⟨.inl rfl, rfl⟩⟩

theorem witness_WaitPollsUntilIdle :
    (HostNext (hosted State.reset [.wait] []) 0#32 [] ∧ (hosted State.reset [.wait] []).hostProg = [.wait]) ∧
    (HostNext (hosted waiting [.wait] [.host 0#32]) 0#32 [] ∧ (hosted waiting [.wait] [.host 0#32]).hostProg = [.wait] ∧
      (hosted waiting [.wait] [.host 0#32]).status.busy = true) :=
  ⟨⟨.inr ⟨rfl, rfl, rfl⟩, rfl⟩, ⟨.inl rfl, rfl, rfl⟩⟩

theorem witness_EngineStepIsEventuallyTaken :
    (hosted waiting [.wait] [.host 0#32, .host 0#32]).status.busy = true ∧
    Turn.reset ∉ (hosted waiting [.wait] [.host 0#32, .host 0#32]).turns := ⟨rfl, by decide⟩

theorem witness_ResetTurnResetsRegistersOnly : (hosted waiting [] [.reset, .engine]).turns = .reset :: [.engine] := rfl

/-- The smallest and the largest sizes, and the last byte and entry of each. -/
theorem witness_PowerOnHoldsTheDraws :
    Params.wellFormed { bufSize := 16#32, descCap := 1#32 } = true ∧ 15 < (16#32).toNat ∧ 0 < (1#32).toNat ∧
    Params.wellFormed { bufSize := 0x80000000#32, descCap := 65536#32 } = true ∧ 65535 < (65536#32).toNat := by decide

/-- The machine after S-4 with a second STREAM_PARSE pending. -/
def reparse : State := pending (after (exec .streamParse beforeS4)) 0x00000031#32

theorem reparse_chain : reparse.DescriptorsChain := by
  unfold State.DescriptorsChain
  decide +kernel

theorem witness_StepKeepsTheInvariant : reparse.Inv ∧ step reparse = .next (after (step reparse)) :=
  ⟨{ params := by decide +kernel
     buf := by decide +kernel
     desc := by decide +kernel
     status := ⟨by decide +kernel, by decide +kernel, by decide +kernel⟩
     nextOff := by decide +kernel
     chunkCount := by decide +kernel
     failIndex := by decide +kernel
     failOff := by decide +kernel
     findIndex := by decide +kernel
     chain := reparse_chain }, eq_next (by decide +kernel)⟩

theorem witness_WriteToCmdIssues : State.reset.status.busy = false ∧ waiting.status.busy = true := ⟨rfl, rfl⟩

theorem witness_CompletionWritesStatus : exec .sigEmit State.reset = .next (after (exec .sigEmit State.reset)) := rfl

/-- STATUS with every flag set and code 9, at the first and last bit of each field. -/
theorem witness_StatusWordLayout :
    (let s : State := State.reset.setStatus
      { busy := true, done := true, err := true, haz := true, busErr := true, errCode := 9#4 }
     (s.readReg .status).getLsbD 0 = true ∧ (s.readReg .status).getLsbD 4 = true ∧
       (s.readReg .status).getLsbD 5 = false ∧ (s.readReg .status).getLsbD 7 = false ∧
       (s.readReg .status).getLsbD 8 = true ∧ (s.readReg .status).getLsbD 10 = false ∧
       (s.readReg .status).getLsbD 11 = true ∧ (s.readReg .status).getLsbD 12 = false) := by decide

theorem witness_CfgKeepsTwoBits : State.reset.status.busy = false := rfl

theorem witness_ArgumentWritesStore :
    State.reset.status.busy = false ∧
    (0x00000010#32, StoreReg.src) ∈ [(0x00000010#32, StoreReg.src), (0x00000014#32, .len), (0x00000018#32, .dst),
      (0x0000001C#32, .type), (0x00000024#32, .crcAcc)] ∧
    (0x00000024#32, StoreReg.crcAcc) ∈ [(0x00000010#32, StoreReg.src), (0x00000014#32, .len), (0x00000018#32, .dst),
      (0x0000001C#32, .type), (0x00000024#32, .crcAcc)] := ⟨rfl, by decide, by decide⟩

/-- The first and the last offset of the map, read while a command is pending. -/
theorem witness_RegisterReadsReturnCurrentValues :
    waiting.access 0#32 (.read 0x00000000#32 .w4) = { waiting with readData := 0x504E4743#32 } ∧
    waiting.access 0#32 (.read 0x00000054#32 .w4) = { waiting with readData := 0x00000100#32 } := ⟨rfl, rfl⟩

theorem witness_MalformedAccessesSetBusErr :
    State.reset.params.wellFormed = true ∧ Access.wellFormed State.reset.params (.read 0x00000058#32 .w4) = false ∧
    Access.wellFormed State.reset.params (.write 0x80010000#32 .w1 0#32) = false := by decide

theorem witness_ReadOnlyWritesAreIgnored :
    State.reset.params.wellFormed = true ∧ (0x00000054#32 : Word).toNat ∈ readOnlyOffsets ∧
    (0x00000000#32 : Word).toNat ∈ readOnlyOffsets ∧ descAccessOk State.reset.params 0x00100FFC#32 .w4 = true := by decide

theorem witness_BusyWritesAreDiscarded :
    waiting.params.wellFormed = true ∧ waiting.status.busy = true ∧ (0x00000024#32 : Word).toNat ∈ argumentOffsets ∧
    (0x00000054#32 : Word).toNat ∈ readOnlyOffsets ∧ bufAccessOk waiting.params 0x8000FFFE#32 .w2 = true := by decide

theorem witness_PendingCommandIsProtected :
    (let s := hosted waiting [.access (.write 0x80000000#32 .w1 1#32)] [.host 0#32]
     s.status.busy = true ∧ s.turns = .host 0#32 :: [] ∧ step s = .next (after (step s))) := ⟨rfl, rfl, rfl⟩

/-- The first and the last place of each width. -/
theorem witness_BufferWriteIsBigEndian :
    State.reset.params.wellFormed = true ∧ State.reset.buf.wf State.reset.bufSize = true ∧
    State.reset.status.busy = false ∧ bufAccessOk State.reset.params 0x80000000#32 .w4 = true ∧
    bufAccessOk State.reset.params 0x8000FFFC#32 .w4 = true ∧ bufAccessOk State.reset.params 0x8000FFFE#32 .w2 = true ∧
    bufAccessOk State.reset.params 0x8000FFFF#32 .w1 = true := by decide

theorem witness_BufferReadIsBigEndian :
    State.reset.params.wellFormed = true ∧ State.reset.status.busy = false ∧
    bufAccessOk State.reset.params 0x8000FFFF#32 .w1 = true := by decide

theorem witness_DescriptorReadsReturnTheEntry :
    State.reset.params.wellFormed = true ∧ State.reset.status.busy = false ∧ 255 < State.reset.descCap := by decide

theorem witness_BusyMemoryReadsReturnAnyValue :
    waiting.params.wellFormed = true ∧ waiting.status.busy = true ∧
    bufAccessOk waiting.params 0x8000FFFF#32 .w1 = true ∧ descAccessOk waiting.params 0x00100FFC#32 .w4 = true := by
  decide

theorem witness_IrqFollowsDone :
    (0x00000002#32 : Word).getLsbD 1 = true ∧ State.reset.status.busy = false ∧
    exec .nop State.reset = .next (after (exec .nop State.reset)) := ⟨rfl, rfl, rfl⟩

theorem witness_CommandsWriteOnlyTheirRow :
    exec .chunkEmit overlap = .next (after (exec .chunkEmit overlap)) ∧
    exec .sigEmit overlap = .next (after (exec .sigEmit overlap)) ∧
    exec .findType overlap = .next (after (exec .findType overlap)) := ⟨rfl, rfl, rfl⟩

/-- A state with three digits as its window. -/
def window3 : State := args (State.reset.writeBuf 0 digits) 0#32 3#32 0#32 0x49454E44#32

/-- `window3` with DST, CFG and a byte past the window changed: CRC_BLOCK reads none of them. -/
def window3' : State := strict ((window3.setReg .dst 9#32).writeBuf 3 [0x00#8])

theorem witness_CommandsDependOnTheirOperandsOnly :
    AgreeOnOperands .crcBlock window3 window3' ∧ exec .crcBlock window3 = .next (after (exec .crcBlock window3)) ∧
    exec .crcBlock window3' = .next (after (exec .crcBlock window3')) ∧ byteAt window3.buf 3 ≠ byteAt window3'.buf 3 :=
  ⟨{ params := rfl
     regs := by decide
     cfg := by decide
     window := fun _ a _ h2 => by
       have h3 : a < 3 := h2
       revert a; decide
     table := by decide }, rfl, rfl, by decide⟩

/-- FIND_TYPE, on tables that differ at CHUNK_COUNT and above. -/
theorem witness_CommandsDependOnTheirOperandsOnly_table :
    AgreeOnOperands .findType (afterD44 0x49454E44#32)
      { afterD44 0x49454E44#32 with desc := setDesc (afterD44 0x49454E44#32).desc 3 { unwrittenDesc with len := 1#32 } } :=
  { params := rfl
    regs := fun _ _ => rfl
    cfg := fun h => rfl
    window := fun h => nomatch h
    table := fun _ => by
      show ∀ k, k < 3 → _
      decide }

/-- CHUNK_EMIT, on buffers in canonical form that differ below the window. -/
theorem witness_CommandsDependOnTheirOperandsOnly_buf :
    AgreeOnOperands .chunkEmit overlap (overlap.writeBuf 0 [0x01#8]) ∧ overlap.buf.wf overlap.bufSize = true ∧
    Memory.wf overlap.bufSize (overlap.writeBuf 0 [0x01#8]).buf = true ∧
    byteAt (overlap.writeBuf 0 [0x01#8]).buf 0 ≠ byteAt overlap.buf 0 :=
  ⟨{ params := rfl
     regs := fun _ _ => rfl
     cfg := fun _ => rfl
     window := fun _ a h1 _ => by
       have h3 : 0x100 ≤ a := h1
       exact byteAt_setByte_ne _ 0 a _ (by omega)
     table := fun h => nomatch h }, by decide, by decide, by decide⟩

/-- STREAM_PARSE, on tables in canonical form that differ in an entry it does not write. -/
theorem witness_CommandsDependOnTheirOperandsOnly_desc :
    AgreeOnOperands .streamParse beforeS4 (beforeS4.writeDesc 5 { unwrittenDesc with len := 1#32 }) ∧
    beforeS4.desc.wf beforeS4.descCap = true ∧
    DescTable.wf beforeS4.descCap (beforeS4.writeDesc 5 { unwrittenDesc with len := 1#32 }).desc = true :=
  ⟨{ params := rfl
     regs := fun _ _ => rfl
     cfg := fun _ => rfl
     window := fun _ _ _ _ => rfl
     table := fun h => nomatch h }, rfl, by decide⟩

theorem witness_CommandsRaiseOnlyTheirErrors :
    (exec .streamParse State.reset = .next (after (exec .streamParse State.reset))) ∧ EngineNext waiting [] ∧
    waiting.status.busy = true ∧ step waiting = .next (after (step waiting)) := ⟨rfl, .inr ⟨rfl, rfl⟩, rfl, rfl⟩

/-- An issue, a completion and a reset of a pending command. -/
theorem witness_BusyChangesOnlyByIssueAndCompletion :
    (let s := hosted State.reset [.access (.write 0x4#32 .w4 0x77#32)] []
     step s = .next (after (step s)) ∧ s.status.busy = false ∧ (after (step s)).status.busy = true) ∧
    (step waiting = .next (after (step waiting)) ∧ waiting.status.busy = true ∧
      (after (step waiting)).status.busy = false) ∧
    (after (step (hosted waiting [] [.reset]))).status.busy = false := ⟨⟨rfl, rfl, rfl⟩, ⟨rfl, rfl, rfl⟩, rfl⟩

theorem witness_StickyFlagsStayUntilCleared :
    (let s := hosted (State.reset.setStatus { State.reset.status with haz := true, busErr := true })
      [.access (.write 0x8#32 .w4 0x18#32)] []
     step s = .next (after (step s)) ∧ (∀ rest, s.turns ≠ .reset :: rest) ∧ s.status.haz = true ∧
       (after (step s)).status.haz = false ∧ s.status.busErr = true ∧ (after (step s)).status.busErr = false) :=
  ⟨rfl, (fun _ h => nomatch h), rfl, rfl, rfl, rfl⟩

theorem witness_OnlyStreamParseWritesDescriptors :
    (let s := pending beforeS4 0x00000031#32
     step s = .next (after (step s)) ∧ ¬ SameDesc s (after (step s)) ∧
       (after (step s)).reg .chunkCount ≠ s.reg .chunkCount ∧ ∀ rest, s.turns ≠ .reset :: rest) :=
  ⟨eq_next (by decide +kernel), fun h => absurd (h 0) (by decide +kernel), by decide +kernel, fun _ h => nomatch h⟩

/-- A set bit above a legal low byte; and the reserved opcodes next to assigned ones. -/
theorem witness_IllegalWordRaisesIllegalCmd :
    (EngineNext (pending State.reset 0x00000104#32) [] ∧ (pending State.reset 0x00000104#32).status.busy = true ∧
      ((pending State.reset 0x00000104#32).reg .cmd).extractLsb' 8 24 ≠ 0#24) ∧
    (EngineNext (pending State.reset 0x00000033#32) [] ∧ (pending State.reset 0x00000033#32).status.busy = true ∧
      ((pending State.reset 0x00000033#32).reg .cmd).extractLsb' 0 8 ∉ [0x00#8, 0x01#8, 0x02#8, 0x03#8, 0x04#8, 0x05#8,
        0x10#8, 0x20#8, 0x21#8, 0x30#8, 0x31#8, 0x32#8]) :=
  ⟨⟨.inr ⟨rfl, rfl⟩, rfl, by decide⟩, ⟨.inr ⟨rfl, rfl⟩, rfl, by decide⟩⟩

theorem witness_CrcIsTheStatedPolynomial : 31 < 32 ∧ 0 < 32 := by decide

theorem witness_CrcDetectsAChangedByte :
    8 < digits.length ∧ 0x38#8 ≠ digits[8]! ∧ 31 < 32 ∧ 0xD2755374#32 = 0x52755374#32 ^^^ (1#32 <<< 31) := by decide

/-- A window that ends at BUF_SIZE, and one that ends one byte past it. -/
theorem witness_window_clauses :
    (args (sized 64#32 2#32) 60#32 4#32 0#32 0#32).num .src + (args (sized 64#32 2#32) 60#32 4#32 0#32 0#32).num .len ≤
      (args (sized 64#32 2#32) 60#32 4#32 0#32 0#32).bufSize ∧
    (args (sized 64#32 2#32) 60#32 5#32 0#32 0#32).bufSize <
      (args (sized 64#32 2#32) 60#32 5#32 0#32 0#32).num .src +
        (args (sized 64#32 2#32) 60#32 5#32 0#32 0#32).num .len := by decide

theorem witness_CrcUpdateFoldsTheWindow : window3.num .src + window3.num .len ≤ window3.bufSize := by decide

theorem witness_CrcBlockIsTheCrcOfTheWindow : window3'.num .src + window3'.num .len ≤ window3'.bufSize := by decide

theorem witness_CrcChunkCoversTypeAndData : overlap.num .src + overlap.num .len ≤ overlap.bufSize := by decide

/-- The five states of K-6 to K-10 and K-1, each the answer of the command before. -/
theorem witness_SplitCrcEqualsBlockCrc :
    (let s := args (State.reset.writeBuf 0 digits) 0#32 4#32 0#32 0#32
     let t1 := after (exec .crcInit s)
     let t2 := after (exec .crcUpdate t1)
     let t2' := (t2.setReg .src (BitVec.ofNat 32 (s.num .src + 4))).setReg .len (BitVec.ofNat 32 5)
     let t3 := after (exec .crcUpdate t2')
     let t4 := after (exec .crcFinal t3)
     let b := s.setReg .len (BitVec.ofNat 32 (4 + 5))
     s.num .src + 4 + 5 ≤ s.bufSize ∧ s.num .len = 4 ∧ exec .crcInit s = .next t1 ∧ exec .crcUpdate t1 = .next t2 ∧
       exec .crcUpdate t2' = .next t3 ∧ exec .crcFinal t3 = .next t4 ∧
       exec .crcBlock b = .next (after (exec .crcBlock b))) :=
  ⟨by decide, by decide, rfl, rfl, rfl, rfl, rfl⟩

/-- RANGE, FORMAT_LENGTH, FORMAT_CHAR, and four letters that end at BUF_SIZE. -/
theorem witness_TypeFromTextLoadsCheckedText :
    (let s := args ((sized 64#32 2#32).writeBuf 60 [0x41#8, 0x5A#8, 0x61#8, 0x7A#8]) 60#32 4#32 0#32 0#32
     s.bufSize < (s.setReg .len 5#32).num .src + (s.setReg .len 5#32).num .len ∧
       (s.setReg .len 3#32).num .src + (s.setReg .len 3#32).num .len ≤ s.bufSize ∧ (s.setReg .len 3#32).num .len ≠ 4 ∧
       s.num .src + s.num .len ≤ s.bufSize ∧ s.num .len = 4 ∧
       (∀ k, k < 4 → alpha (byteAt s.buf (s.num .src + k)) = true) ∧
       (∃ k, k < 4 ∧ alpha (byteAt (s.writeBuf 63 [0x7B#8]).buf (s.num .src + k)) = false)) :=
  ⟨by decide, by decide, by decide, by decide, by decide, by decide, 3, by decide, by decide⟩

/-- LENGTH_LIMIT; RANGE of the source and of the destination by one byte; and a chunk that ends at BUF_SIZE. -/
theorem witness_ChunkEmitWritesTheChunk :
    (let s := args (sized 64#32 2#32) 60#32 4#32 48#32 0#32
     s.buf.wf s.bufSize = true ∧ OverLimit (strict (s.setReg .len 0x80000000#32)) 0x80000000 ∧ ¬ OverLimit s (s.num .len) ∧
       s.bufSize < (s.setReg .src 61#32).num .src + s.num .len ∧ s.bufSize < (s.setReg .dst 49#32).num .dst + 12 + s.num .len ∧
       s.num .src + s.num .len ≤ s.bufSize ∧ s.num .dst + 12 + s.num .len ≤ s.bufSize) := by
  simp only [OverLimit]
  decide

/-- The states of C-3, C-6, C-11 to C-13 and C-18: each clause at its bound. -/
theorem witness_ChunkParseValidatesTheChunk :
    (let s := args (State.reset.writeBuf 8 messageChunk) 8#32 54#32 0#32 0#32
     let bad := s.writeBuf 16 [0x55#8]
     let long := s.writeBuf 8 [0x80#8]
     ChunkFits s 8 62 ∧ storedCrcAt s.buf 8 = computedCrcAt s.buf 8 ∧
       ChunkFits bad 8 62 ∧ storedCrcAt bad.buf 8 ≠ computedCrcAt bad.buf 8 ∧
       ChunkUnreadable s 8 11 4#4 ∧ ChunkUnreadable (strict long) 8 12 11#4 ∧ ChunkUnreadable s 8 61 4#4 ∧
       s.num .src + s.num .len ≤ s.bufSize ∧ s.bufSize < (s.setReg .src 65483#32).num .src + s.num .len) := by
  simp only [ChunkFits, ChunkUnreadable, OverLimit]
  decide +kernel

/-- The state of C-1, with the chunk's window prepared for the parse after it. -/
def beforeC1 : State := args (State.reset.writeBuf 0x100 message) 0x100#32 42#32 8#32 0x52755374#32

theorem beforeC1_inv : beforeC1.Inv :=
  { params := by decide
    buf := by decide +kernel
    desc := rfl
    status := ⟨by decide, by decide, by decide⟩
    nextOff := by decide
    chunkCount := by decide
    failIndex := .inr rfl
    failOff := .inr rfl
    findIndex := .inr rfl
    chain := fun i hi => absurd hi (Nat.not_lt_zero i) }

theorem witness_EmittedChunkParses :
    (let t := after (exec .chunkEmit beforeC1)
     let u := args t 8#32 60#32 0#32 0#32
     beforeC1.Inv ∧ exec .chunkEmit beforeC1 = .next t ∧ t.status.err = false ∧ u.params = beforeC1.params ∧
       u.cfg.strictLen = beforeC1.cfg.strictLen ∧ u.reg .src = beforeC1.reg .dst ∧
       12 + beforeC1.num .len ≤ u.num .len ∧ u.num .src + u.num .len ≤ u.bufSize ∧
       (∀ a, beforeC1.num .dst ≤ a → a < beforeC1.num .dst + 12 + beforeC1.num .len → byteAt u.buf a = byteAt t.buf a)) :=
  ⟨beforeC1_inv, rfl, by decide +kernel, by decide +kernel, by decide +kernel, by decide +kernel, by decide +kernel,
    by decide +kernel, fun _ _ _ => rfl⟩

theorem witness_StrictLenChangesOnlyTheError :
    (let s := strict (args (State.reset.writeBuf 0 [0x80#8]) 0#32 8#32 0#32 0#32)
     let u : State := { s with cfg := { s.cfg with strictLen := false } }
     s.params.wellFormed = true ∧ s.cfg.strictLen = true ∧ exec .chunkParse s = .next (after (exec .chunkParse s)) ∧
       exec .chunkParse u = .next (after (exec .chunkParse u)) ∧ statusAfter .chunkParse s ≠ statusAfter .chunkParse u) :=
  ⟨by decide, by decide, rfl, rfl, by decide⟩

/-- The last place that fits, and one past it. -/
theorem witness_SigEmitWritesTheSignature :
    State.reset.buf.wf State.reset.bufSize = true ∧
    (State.reset.setReg .dst 65528#32).num .dst + 8 ≤ (State.reset.setReg .dst 65528#32).bufSize ∧
    (State.reset.setReg .dst 65529#32).bufSize < (State.reset.setReg .dst 65529#32).num .dst + 8 := by decide

theorem beforeS4_reaches (n : Nat) (h : n ≤ 2) : WalkReaches beforeS4 n := by
  have good : ∀ k, k < 2 → ChunkGood beforeS4 (cursor beforeS4.buf (firstChunk beforeS4) k) (streamEnd beforeS4) := by
    simp only [ChunkGood, ChunkFits, OverLimit]
    decide +kernel
  exact ⟨by decide +kernel, ⟨by decide +kernel, by decide +kernel⟩,
    Nat.le_trans h (by decide +kernel), fun k hk => good k (Nat.lt_of_lt_of_le hk h)⟩

/-- A stream of two chunks, and one of none. -/
theorem witness_StreamParseDescribesEveryChunk :
    (beforeS4.desc.wf beforeS4.descCap = true ∧ WalkReaches beforeS4 2 ∧
      cursor beforeS4.buf (firstChunk beforeS4) 2 = streamEnd beforeS4) ∧
    (WalkReaches (beforeS4.setReg .len 8#32) 0 ∧
      cursor beforeS4.buf (firstChunk (beforeS4.setReg .len 8#32)) 0 = streamEnd (beforeS4.setReg .len 8#32)) :=
  ⟨⟨rfl, beforeS4_reaches 2 le_rfl, by decide +kernel⟩,
    ⟨⟨by decide +kernel, ⟨by decide +kernel, by decide +kernel⟩, Nat.zero_le _, fun _ hk => absurd hk (Nat.not_lt_zero _)⟩,
      by decide +kernel⟩⟩

/-- RANGE by one byte, a window of seven bytes, and a wrong first byte (S-7). -/
theorem witness_StreamParseChecksTheSignature :
    (beforeS4.setReg .len 65537#32).bufSize <
      (beforeS4.setReg .len 65537#32).num .src + (beforeS4.setReg .len 65537#32).num .len ∧
    (beforeS4.setReg .len 7#32).num .src + (beforeS4.setReg .len 7#32).num .len ≤ (beforeS4.setReg .len 7#32).bufSize ∧
    ¬ SigPresent (beforeS4.setReg .len 7#32) ∧ ¬ SigPresent (beforeS4.writeBuf 0 [0x88#8]) := by
  simp only [SigPresent]
  decide +kernel

/-- S-12: the table is full at chunk 1. -/
theorem witness_StreamParseFailsAtTheFirstBadChunk_full :
    (let s : State := { beforeS4 with params := { bufSize := 65536#32, descCap := 1#32 } }
     s.desc.wf s.descCap = true ∧ WalkReaches s 1 ∧ 62 = cursor s.buf (firstChunk s) 1 ∧ 62 < streamEnd s ∧
       1 = s.descCap) :=
  ⟨rfl, ⟨(beforeS4_reaches 1 (by omega)).fits, (beforeS4_reaches 1 (by omega)).sig, by decide,
    (beforeS4_reaches 1 (by omega)).good⟩, by decide +kernel, by decide +kernel, by decide⟩

/-- S-9: three bytes after the last chunk. -/
theorem witness_StreamParseFailsAtTheFirstBadChunk_unreadable :
    (let s := beforeS4.setReg .len 77#32
     s.desc.wf s.descCap = true ∧ WalkReaches s 2 ∧ 74 = cursor s.buf (firstChunk s) 2 ∧ 74 < streamEnd s ∧
       2 < s.descCap ∧ ChunkUnreadable s 74 (streamEnd s) 4#4) := by
  have good : ∀ k, k < 2 → ChunkGood (beforeS4.setReg .len 77#32)
      (cursor (beforeS4.setReg .len 77#32).buf (firstChunk (beforeS4.setReg .len 77#32)) k)
      (streamEnd (beforeS4.setReg .len 77#32)) := by
    simp only [ChunkGood, ChunkFits, OverLimit]
    decide +kernel
  exact ⟨rfl, ⟨by decide +kernel, ⟨by decide +kernel, by decide +kernel⟩, by decide +kernel, good⟩, by decide +kernel,
    by decide +kernel, by decide +kernel, .inl (by decide +kernel)⟩

/-- A changed type byte of the first chunk (as C-5). -/
theorem witness_StreamParseFailsAtTheFirstBadChunk_mismatch :
    (let s := beforeS4.writeBuf 0x0C [0x53#8]
     s.desc.wf s.descCap = true ∧ WalkReaches s 0 ∧ 8 = cursor s.buf (firstChunk s) 0 ∧ 8 < streamEnd s ∧
       0 < s.descCap ∧ ChunkFits s 8 (streamEnd s) ∧ storedCrcAt s.buf 8 ≠ computedCrcAt s.buf 8) :=
  ⟨rfl, ⟨by decide +kernel, ⟨by decide +kernel, by decide +kernel⟩, Nat.zero_le _,
    fun _ hk => absurd hk (Nat.not_lt_zero _)⟩, rfl, by decide +kernel, by decide +kernel,
    by simp only [ChunkFits, OverLimit]; decide +kernel, by decide +kernel⟩

theorem witness_FailedParseLeavesNoContainer :
    (let s := beforeS4.setReg .len 77#32
     exec .streamParse s = .next (after (exec .streamParse s)) ∧ (after (exec .streamParse s)).status.err = true ∧
       (after (exec .streamParse s)).status.errCode ≠ 9#4) :=
  ⟨eq_next (by decide +kernel), by decide +kernel, by decide +kernel⟩

theorem witness_SuccessfulWalkTilesTheStream :
    beforeS4.desc.wf beforeS4.descCap = true ∧
    exec .streamParse beforeS4 = .next (after (exec .streamParse beforeS4)) ∧
    (after (exec .streamParse beforeS4)).status.err = false ∧
    0 < (after (exec .streamParse beforeS4)).num .chunkCount :=
  ⟨rfl, eq_next (by decide +kernel), by decide +kernel, by decide +kernel⟩

theorem witness_GeneratedStreamParses :
    (let cs : List (Word × List Byte) := [(0x52755374#32, message), (0x49454E44#32, [])]
     beforeS4.desc.wf beforeS4.descCap = true ∧ beforeS4.num .src + beforeS4.num .len ≤ beforeS4.bufSize ∧
       beforeS4.num .len = (sigBytes ++ cs.flatMap (fun c => chunkBytes c.1 c.2)).length ∧
       HoldsAt beforeS4.buf (beforeS4.num .src) (sigBytes ++ cs.flatMap (fun c => chunkBytes c.1 c.2)) ∧
       cs.length ≤ beforeS4.descCap ∧ (beforeS4.cfg.strictLen = true → ∀ c, c ∈ cs → c.2.length < 2 ^ 31)) :=
  ⟨rfl, by decide +kernel, by decide +kernel, by unfold HoldsAt; decide +kernel, by decide +kernel, fun h => nomatch h⟩

/-- F-4 to F-6: the first of two, the last entry, and none. -/
theorem witness_FindTypeFindsTheFirst :
    (let s := afterD44 0x49454E44#32
     2 < s.num .chunkCount ∧ (descAt s.desc 2).type = s.reg .type ∧
       ∀ j, j < 2 → (descAt s.desc j).type ≠ s.reg .type) ∧
    (let s := afterD44 0x54455354#32
     ∀ i, i < s.num .chunkCount → (descAt s.desc i).type ≠ s.reg .type) := by
  constructor
  · decide
  · show ∀ i, i < 3 → _
    decide

/-- The highest address of each kind of expression, and ASCII at its edge. -/
theorem witness_HostStatementsExpand :
    Loc.wellFormed (.reg .descCap) = true ∧ Loc.wellFormed (.buf 0x7FFFFFFF) = true ∧
    Loc.wellFormed (.desc 65535 .crc) = true ∧ Loc.wellFormed (.num 0xFFFFFFFF#32) = true ∧
    (∀ c, c ∈ ['P', Char.ofNat 127] → c.toNat < 128) := ⟨rfl, rfl, rfl, rfl, by simp⟩

end Sys2Proof.Tests
end

section
/-!
PROOFS. Host writes to the registers (10_state.md, 20_memory.md R92).
-/
namespace Sys2Proof.Machine

/-- A 4-byte host write at the address of a register is the write of that register (R81, R87, R92). -/
theorem access_write_reg {addr : Word} {r : Reg} (h : regAt addr.toNat = some r) (s : State) (lanes v : Word) :
    s.access lanes (.write addr .w4 v) = s.writeReg r v := by
  simp only [State.access, State.writeAccess, target_of_reg h]

theorem access_write_status (s : State) (lanes w : Word) :
    s.access lanes (.write 0x00000008#32 .w4 w) = s.setStatus (s.status.writeClear w) := by
  have hreg : regAt (0x00000008#32 : Word).toNat = some .status := by decide
  exact access_write_reg hreg s lanes w

/-- Masking a field with the inverted bit of the word clears it where the bit is 1 (R34). -/
theorem writeClear_eq_ite (t : Status) (w : Word) :
    t.writeClear w =
      { busy := t.busy
        done := if w.getLsbD 1 then false else t.done
        err := if w.getLsbD 2 then false else t.err
        haz := if w.getLsbD 3 then false else t.haz
        busErr := if w.getLsbD 4 then false else t.busErr
        errCode := if w.getLsbD 2 then 0#4 else t.errCode } := by
  have mask (field bit : Bool) : (field && !bit) = if bit then false else field := by
    cases bit
    · exact Bool.and_true field
    · exact Bool.and_false field
  simp only [Status.writeClear, mask]

/-- Settles O16: the write reaches STATUS at every BUSY and changes only its fields, each cleared where its bit is 1. -/
theorem statusWriteOneToClear : Obligations.StatusWriteOneToClear := by
  intro s lanes w
  rw [access_write_status, writeClear_eq_ite, State.setStatus]

end Sys2Proof.Machine
end

section
/-!
PROOFS. Host accesses that reach nothing writable (20_memory.md): the malformed ones (R95), and the writes to a
read-only register or to the descriptor window (R97).
-/
namespace Sys2Proof.Machine

/-! ### Malformed accesses -/

theorem access_read_of_malformed {s : State} {addr : Word} {w : Width} (h : target s.params addr w = .malformed)
    (lanes : Word) :
    s.access lanes (.read addr w) = { s.setBusErr with readData := 0x00000000#32 } := by
  simp only [State.access, State.readAccess, State.readValue, h, if_true]

theorem access_write_of_malformed {s : State} {addr : Word} {w : Width} (h : target s.params addr w = .malformed)
    (lanes v : Word) : s.access lanes (.write addr w v) = s.setBusErr := by
  simp only [State.access, State.writeAccess, h]

/-- Settles O20: the accesses outside the table of R87 are the ones the machine's sorting finds malformed. -/
theorem malformedAccessesSetBusErr : Obligations.MalformedAccessesSetBusErr := by
  intro s lanes addr v w hp
  have sorted := target_malformed_iff hp addr w
  constructor
  · intro hread
    exact access_read_of_malformed (sorted.mpr hread) lanes
  · intro hwrite
    -- R87 looks at the address and the width only, so the table gives a write the answer it gives a read.
    exact access_write_of_malformed (sorted.mpr hwrite) lanes v

/-! ### Writes to what is read-only -/

/-- The read-only offsets of R97 hold the registers whose writes the map ignores (R30, R92). -/
theorem regAt_of_mem_readOnlyOffsets {a : Nat} (h : a ∈ Claims.readOnlyOffsets) :
    ∃ r, regAt a = some r ∧ writeRule r = .ignored := by
  have ignoredAt : ∀ o ∈ Claims.readOnlyOffsets, (regAt o).map writeRule = some .ignored := by decide
  exact Option.map_eq_some_iff.mp (ignoredAt a h)

theorem writeReg_of_ignored {r : Reg} (h : writeRule r = .ignored) (s : State) (v : Word) : s.writeReg r v = s := by
  simp only [State.writeReg, h]

theorem access_write_readOnly {addr : Word} (h : addr.toNat ∈ Claims.readOnlyOffsets) (s : State) (lanes v : Word) :
    s.access lanes (.write addr .w4 v) = s := by
  obtain ⟨r, hreg, hrule⟩ := regAt_of_mem_readOnlyOffsets h
  rw [access_write_reg hreg, writeReg_of_ignored hrule]

theorem access_write_desc {s : State} {addr : Word} {w : Width} (hp : s.params.wellFormed = true)
    (h : descAccessOk s.params addr w = true) (lanes v : Word) : s.access lanes (.write addr w v) = s := by
  simp only [State.access, State.writeAccess, target_of_desc hp h]

/-- Settles O21: the register map ignores a write to each read-only offset, and the descriptor window ignores all. -/
theorem readOnlyWritesAreIgnored : Obligations.ReadOnlyWritesAreIgnored := by
  intro s lanes addr v hp hplace
  cases hplace with
  | inl hreg => exact access_write_readOnly hreg s lanes v
  | inr hdesc => exact access_write_desc hp hdesc lanes v

end Sys2Proof.Machine
end

section
/-!
PROOFS. A host write to CMD issues the word (30_encoding.md R139), and is discarded while a command is pending
(70_reset_and_hazards.md R380).
-/
namespace Sys2Proof.Machine
open Sys2Proof.Claims

/-! ### Writes under the busy rule -/

theorem unlessBusy_of_idle {s : State} (h : s.status.busy = false) (t : State) : s.unlessBusy t = t := by
  simp only [State.unlessBusy, h, Bool.false_eq_true, if_false]

theorem unlessBusy_of_busy {s : State} (h : s.status.busy = true) (t : State) : s.unlessBusy t = s.setHaz := by
  simp only [State.unlessBusy, h, if_true]

/-- The frame of an update of one word register and STATUS: the registers compare by name, the rest is untouched. -/
theorem setReg_setStatus_onlyRegs (s : State) (r : StoreReg) (v : Word) (t : Status) :
    OnlyRegs [r] s ((s.setReg r v).setStatus t) where
  regs q hq := by
    have hne : q ≠ r := fun h => hq (List.mem_singleton.mpr h)
    rw [setStatus_reg, setReg_reg, if_neg hne]
  buf _ := rfl
  desc _ := rfl
  rest := ⟨rfl, rfl, rfl, rfl, rfl⟩

/-! ### The issue -/

@[simp] theorem issue_status (s : State) (w : Word) : (s.issue w).status = s.status.issued := rfl

@[simp] theorem issue_cmd (s : State) (w : Word) : (s.issue w).reg .cmd = w := by
  rw [State.issue, setStatus_reg, setReg_reg, if_pos rfl]

theorem issue_onlyRegs (s : State) (w : Word) : OnlyRegs [.cmd] s (s.issue w) :=
  setReg_setStatus_onlyRegs s .cmd w s.status.issued

theorem access_write_cmd (s : State) (lanes w : Word) :
    s.access lanes (.write 0x00000004#32 .w4 w) = s.unlessBusy (s.issue w) := by
  have hreg : regAt (0x00000004#32 : Word).toNat = some (.store .cmd) := by decide
  exact access_write_reg hreg s lanes w

/-- Settles O13: the write is the issue of its word under the busy rule, whatever the word. -/
theorem writeToCmdIssues : Obligations.WriteToCmdIssues := by
  intro s lanes w
  rw [access_write_cmd]
  constructor
  · intro hidle
    rw [unlessBusy_of_idle hidle]
    exact ⟨issue_status s w, issue_cmd s w, issue_onlyRegs s w⟩
  · intro hbusy
    rw [unlessBusy_of_busy hbusy, setHaz_eq]
    exact ⟨setStatus_reg s _ .cmd, setStatus_status s _⟩

end Sys2Proof.Machine
end

section
/-!
PROOFS. The two ends of a command that wrote nothing but word registers (30_encoding.md R141), stated in the words of
the obligations.
-/
namespace Sys2Proof.Machine
open Sys2Proof.Claims

/-- The completion of a command that left both memories alone writes STATUS besides the command's registers. -/
theorem CommandFrame.finish_onlyRegs {written : List StoreReg} {s u : State} (h : CommandFrame written s u)
    (hbuf : u.buf = s.buf) (hdesc : u.desc = s.desc) (e : Option ErrorKind) : OnlyRegs written s (u.finish e) where
  regs := h.regs
  buf a := by rw [finish_buf, hbuf]
  desc i := by rw [finish_desc, hdesc]
  rest := ⟨h.cfg, h.params, h.hostProg, h.turns, h.readData⟩

theorem CommandFrame.finish_endedOk {written : List StoreReg} {s u : State} (h : CommandFrame written s u) :
    EndedOk s (u.finish none) where
  busy := rfl
  done := rfl
  err := rfl
  errCode := rfl
  haz := by rw [finish_status, completed_haz, h.status]
  busErr := by rw [finish_status, completed_busErr, h.status]

theorem CommandFrame.finish_endedWith {written : List StoreReg} {s u : State} (h : CommandFrame written s u)
    (e : ErrorKind) : EndedWith (errorCode e) s (u.finish (some e)) where
  busy := rfl
  done := rfl
  err := rfl
  errCode := rfl
  haz := by rw [finish_status, completed_haz, h.status]
  busErr := by rw [finish_status, completed_busErr, h.status]

/-- A command that raises an error on the state it was given has written nothing but STATUS. -/
theorem failsWith_of_raise {i : Instr} {s : State} {e : ErrorKind} (h : exec i s = raise e s) :
    FailsWith i s (errorCode e) :=
  have frame := CommandFrame.refl [] s
  ⟨s.finish (some e), h, frame.finish_endedWith e, frame.finish_onlyRegs rfl rfl (some e)⟩

theorem srcFits_iff (s : State) : s.srcFits = true ↔ s.num .src + s.num .len ≤ s.bufSize := decide_eq_true_iff

end Sys2Proof.Machine
end

section
/-!
PROOFS. The chunk-type predicates as bits of the type word (40_chunk_type.md R170 to R176).
-/
namespace Sys2Proof.Machine

/-! ### The four bytes of a type -/

/-- `TB(t)` lists the bytes that the predicates read (R13). -/
theorem typeBytes_eq (t : Word) : typeBytes t = [typeByte t 0, typeByte t 1, typeByte t 2, typeByte t 3] := rfl

theorem typeByte_getLsbD_five (t : Word) (k : Nat) : (typeByte t k).getLsbD 5 = t.getLsbD (8 * (3 - k) + 5) := by
  rw [typeByte, BitVec.getLsbD_extractLsb', decide_eq_true (by decide : 5 < 8), Bool.true_and]

/-! ### The predicates -/

theorem critical_eq (t : Word) : critical t = !t.getLsbD 29 := by
  rw [critical, (byte_and_0x20 _).1, typeByte_getLsbD_five]

theorem isPublic_eq (t : Word) : isPublic t = !t.getLsbD 21 := by
  rw [isPublic, (byte_and_0x20 _).1, typeByte_getLsbD_five]

theorem reservedOk_eq (t : Word) : reservedOk t = !t.getLsbD 13 := by
  rw [reservedOk, (byte_and_0x20 _).1, typeByte_getLsbD_five]

theorem safeToCopy_eq (t : Word) : safeToCopy t = t.getLsbD 5 := by
  rw [safeToCopy, (byte_and_0x20 _).2, typeByte_getLsbD_five]

theorem alpha_iff (b : Byte) :
    alpha b = true ↔ (0x41 ≤ b.toNat ∧ b.toNat ≤ 0x5A) ∨ (0x61 ≤ b.toNat ∧ b.toNat ≤ 0x7A) := by
  simp only [alpha, Bool.or_eq_true, decide_eq_true_eq]

theorem allAlpha_eq_all (t : Word) : allAlpha t = (typeBytes t).all alpha := by
  simp only [typeBytes_eq, allAlpha, List.all_cons, List.all_nil, Bool.and_true, Bool.and_assoc]

theorem allAlpha_iff (t : Word) : allAlpha t = true ↔ ∀ k, k < 4 → alpha (typeByte t k) = true := by
  simp only [allAlpha, Bool.and_eq_true, Nat.forall_lt_succ_right, Nat.not_lt_zero, false_imp_iff, implies_true,
    true_and]

/-- The bytes counted from the least significant end are the bytes of the type in the other order (R13). -/
theorem allAlpha_iff_low_bytes (t : Word) :
    allAlpha t = true ↔
      ∀ k, k < 4 → (0x41 ≤ t.toNat >>> (8 * k) % 256 ∧ t.toNat >>> (8 * k) % 256 ≤ 0x5A) ∨
        (0x61 ≤ t.toNat >>> (8 * k) % 256 ∧ t.toNat >>> (8 * k) % 256 ≤ 0x7A) := by
  simp only [allAlpha_iff, alpha_iff, typeByte_toNat]
  constructor
  · intro h k hk
    have hrev : 3 - (3 - k) = k := by omega
    simpa only [hrev] using h (3 - k) (by omega)
  · intro h k _
    exact h (3 - k) (by omega)

/-! ### The TYPE_FLAGS word -/

/-- Each flag stands at its own position of the word (R176). -/
theorem typeFlags_getLsbD (t : Word) (i : Nat) :
    (typeFlags t).getLsbD i =
      ((allAlpha t && decide (i = 0)) || (critical t && decide (i = 1)) || (isPublic t && decide (i = 2)) ||
        (reservedOk t && decide (i = 3)) || (safeToCopy t && decide (i = 4)) || (validType t && decide (i = 5))) := by
  simp only [typeFlags, BitVec.getLsbD_or, bitAt_getLsbD, Nat.reduceLT]

theorem typeFlags_alpha (t : Word) : (typeFlags t).getLsbD 0 = allAlpha t := by
  rw [typeFlags_getLsbD]; simp

theorem typeFlags_critical (t : Word) : (typeFlags t).getLsbD 1 = critical t := by
  rw [typeFlags_getLsbD]; simp

theorem typeFlags_public (t : Word) : (typeFlags t).getLsbD 2 = isPublic t := by
  rw [typeFlags_getLsbD]; simp

theorem typeFlags_reservedOk (t : Word) : (typeFlags t).getLsbD 3 = reservedOk t := by
  rw [typeFlags_getLsbD]; simp

theorem typeFlags_safeToCopy (t : Word) : (typeFlags t).getLsbD 4 = safeToCopy t := by
  rw [typeFlags_getLsbD]; simp

theorem typeFlags_valid (t : Word) : (typeFlags t).getLsbD 5 = validType t := by
  rw [typeFlags_getLsbD]; simp

theorem typeFlags_above (t : Word) {i : Nat} (hi : 6 ≤ i) : (typeFlags t).getLsbD i = false := by
  have hne : ∀ k, k < 6 → i ≠ k := by omega
  rw [typeFlags_getLsbD]
  simp [hne]

/-- Settles O29: each bit of the word is its predicate, and each predicate its bits of the type. -/
theorem typeFlagsBits : Obligations.TypeFlagsBits := by
  intro t
  refine ⟨?alpha, ?critical, ?isPublic, ?reservedOk, ?safeToCopy, ?valid, fun i hi => typeFlags_above t hi⟩
  case alpha => rw [typeFlags_alpha, allAlpha_iff_low_bytes]
  case critical => rw [typeFlags_critical, critical_eq]
  case isPublic => rw [typeFlags_public, isPublic_eq]
  case reservedOk => rw [typeFlags_reservedOk, reservedOk_eq]
  case safeToCopy => rw [typeFlags_safeToCopy, safeToCopy_eq]
  case valid => rw [typeFlags_valid, typeFlags_alpha, typeFlags_reservedOk, validType]

end Sys2Proof.Machine
end

section
/-!
PROOFS. TYPE_FROM_TEXT (40_chunk_type.md R180).
-/
namespace Sys2Proof.Machine
open Sys2Proof.Claims

/-! ### The four bytes of the text -/

theorem memRead_four (m : Memory) (off : Nat) :
    memRead m off 4 = [byteAt m off, byteAt m (off + 1), byteAt m (off + 2), byteAt m (off + 3)] := rfl

theorem memRead_all_alpha_iff (m : Memory) (off n : Nat) :
    (memRead m off n).all alpha = true ↔ ∀ k, k < n → alpha (byteAt m (off + k)) = true := by
  simp only [memRead_eq_map, List.all_map, List.all_eq_true, List.mem_range, Function.comp_apply]

theorem be32_four_toNat (a b c d : Byte) :
    (be32 [a, b, c, d]).toNat = a.toNat * 2 ^ 24 + b.toNat * 2 ^ 16 + c.toNat * 2 ^ 8 + d.toNat := by
  have nil : beNat [] = 0 := rfl
  rw [be32_toNat _ rfl]
  simp only [beNat_cons, List.length_cons, List.length_nil, nil]
  omega

/-- A type loaded from four letters shows ALPHA: its bytes are the ones loaded (R11, R176). -/
theorem allAlpha_be32 {bs : List Byte} (hlen : bs.length = 4) : allAlpha (be32 bs) = bs.all alpha := by
  rw [allAlpha_eq_all, typeBytes, bytesBe32_be32 bs hlen]

/-! ### The branches of the command -/

theorem execTypeFromText_range {s : State} (h : s.bufSize < s.num .src + s.num .len) :
    execTypeFromText s = raise .range s := by
  have hfits : ¬ s.srcFits = true := by rw [srcFits_iff]; omega
  rw [execTypeFromText, if_neg hfits]

section
variable {s : State} (hfits : s.num .src + s.num .len ≤ s.bufSize)
include hfits

theorem execTypeFromText_length (hlen : s.num .len ≠ 4) : execTypeFromText s = raise .formatLength s := by
  rw [execTypeFromText, if_pos ((srcFits_iff s).mpr hfits), if_neg hlen]

theorem execTypeFromText_char (hlen : s.num .len = 4)
    (hchar : ∃ k, k < 4 ∧ alpha (byteAt s.buf (s.num .src + k)) = false) :
    execTypeFromText s = raise .formatChar s := by
  have hletters : ¬ (memRead s.buf (s.num .src) 4).all alpha = true := by
    rw [memRead_all_alpha_iff]
    intro hall
    obtain ⟨k, hk, hnot⟩ := hchar
    exact Bool.false_ne_true (hnot.symm.trans (hall k hk))
  rw [execTypeFromText, if_pos ((srcFits_iff s).mpr hfits), if_pos hlen, if_neg hletters]

theorem execTypeFromText_letters (hlen : s.num .len = 4)
    (hletters : (memRead s.buf (s.num .src) 4).all alpha = true) :
    execTypeFromText s = complete (s.setReg .type (be32 (memRead s.buf (s.num .src) 4))) := by
  rw [execTypeFromText, if_pos ((srcFits_iff s).mpr hfits), if_pos hlen, if_pos hletters]

end

/-- Settles O46: one branch of the command for each clause, and the type loaded is the big-endian value of the text. -/
theorem typeFromTextLoadsCheckedText : Obligations.TypeFromTextLoadsCheckedText := by
  refine ⟨by decide, fun s => ⟨?range, ?length, ?char, ?letters⟩⟩
  case range =>
    intro hout
    exact failsWith_of_raise (e := .range) (execTypeFromText_range hout)
  case length =>
    intro hfits hlen
    exact failsWith_of_raise (e := .formatLength) (execTypeFromText_length hfits hlen)
  case char =>
    intro hfits hlen hchar
    exact failsWith_of_raise (e := .formatChar) (execTypeFromText_char hfits hlen hchar)
  case letters =>
    intro hfits hlen hall
    have hletters := (memRead_all_alpha_iff s.buf (s.num .src) 4).mpr hall
    have frame : CommandFrame [.type] s (s.setReg .type (be32 (memRead s.buf (s.num .src) 4))) :=
      (CommandFrame.refl [.type] s).setReg (List.mem_singleton.mpr rfl) _
    refine ⟨_, execTypeFromText_letters hfits hlen hletters, ?_, ?_, frame.finish_endedOk,
      frame.finish_onlyRegs rfl rfl none⟩
    · rw [finish_reg, setReg_reg, if_pos rfl, memRead_four, be32_four_toNat]
    · rw [State.readReg, typeFlags_alpha, finish_reg, setReg_reg, if_pos rfl, allAlpha_be32 (memRead_length ..),
        hletters]

end Sys2Proof.Machine
end

section
/-!
PROOFS. The CRC commands (41_crc.md R210 to R214): each loads one word register, and the ones that take a window first
check it against the buffer.
-/
namespace Sys2Proof.Machine
open Sys2Proof.Claims

/-! ### Commands that load one register -/

/-- The two memories, CFG and every other register stay when a command completes by loading one register (R141). -/
theorem completes_of_exec_eq_setReg {i : Instr} {s : State} {r : StoreReg} {v : Word}
    (h : exec i s = complete (s.setReg r v)) :
    ∃ t, exec i s = .next t ∧ t.reg r = v ∧ EndedOk s t ∧ OnlyRegs [r] s t := by
  have frame : CommandFrame [r] s (s.setReg r v) := (CommandFrame.refl [r] s).setReg (List.mem_singleton.mpr rfl) v
  refine ⟨_, h, ?_, frame.finish_endedOk, frame.finish_onlyRegs rfl rfl none⟩
  rw [finish_reg, setReg_reg, if_pos rfl]

/-- A command that loads one register where its window fits and raises RANGE where it does not (R106). -/
theorem window_cases_of_exec_eq {i : Instr} {s : State} {r : StoreReg} {v : Word}
    (h : exec i s = if s.srcFits then complete (s.setReg r v) else raise .range s) :
    (s.num .src + s.num .len ≤ s.bufSize →
      ∃ t, exec i s = .next t ∧ t.reg r = v ∧ EndedOk s t ∧ OnlyRegs [r] s t) ∧
    (s.bufSize < s.num .src + s.num .len → FailsWith i s 9#4) := by
  constructor
  · intro hfits
    rw [if_pos ((srcFits_iff s).mpr hfits)] at h
    exact completes_of_exec_eq_setReg h
  · intro hout
    have hnot : ¬ s.srcFits = true := by rw [srcFits_iff]; omega
    rw [if_neg hnot] at h
    exact failsWith_of_raise h

/-! ### What each command loads -/

/-- The window is the bytes of `[SRC, SRC+LEN)` in the order of their offsets (R12). -/
theorem window_eq_bytesAt (s : State) : s.window = bytesAt s.buf (s.num .src) (s.num .len) := memRead_eq_map ..

theorem exec_crcInit (s : State) : exec .crcInit s = complete (s.setReg .crcAcc 0xFFFFFFFF#32) := rfl

theorem exec_crcUpdate (s : State) :
    exec .crcUpdate s =
      if s.srcFits then
        complete (s.setReg .crcAcc ((bytesAt s.buf (s.num .src) (s.num .len)).foldl crcByte (s.reg .crcAcc)))
      else raise .range s := by
  rw [← window_eq_bytesAt]; rfl

theorem exec_crcFinal (s : State) :
    exec .crcFinal s = complete (s.setReg .crcResult (s.reg .crcAcc ^^^ 0xFFFFFFFF#32)) := rfl

theorem exec_crcBlock (s : State) :
    exec .crcBlock s =
      if s.srcFits then complete (s.setReg .crcResult (crc32 (bytesAt s.buf (s.num .src) (s.num .len))))
      else raise .range s := by
  rw [← window_eq_bytesAt]; rfl

theorem exec_crcChunk (s : State) :
    exec .crcChunk s =
      if s.srcFits then
        complete (s.setReg .crcResult (crc32 (typeBytes (s.reg .type) ++ bytesAt s.buf (s.num .src) (s.num .len))))
      else raise .range s := by
  rw [← window_eq_bytesAt]; rfl

/-! ### The obligations -/

/-- Settles O40: the command loads the initial CRC state, whatever CRC_ACC held. -/
theorem crcInitStartsAFreshCrc : Obligations.CrcInitStartsAFreshCrc :=
  ⟨by decide, fun s => completes_of_exec_eq_setReg (exec_crcInit s)⟩

/-- Settles O41: the fold starts from the CRC_ACC of the state before. -/
theorem crcUpdateFoldsTheWindow : Obligations.CrcUpdateFoldsTheWindow :=
  ⟨by decide, fun s => window_cases_of_exec_eq (exec_crcUpdate s)⟩

/-- Settles O42: CRC_ACC is outside the command's one register, so it stays. -/
theorem crcFinalInvertsTheState : Obligations.CrcFinalInvertsTheState :=
  ⟨by decide, fun s => completes_of_exec_eq_setReg (exec_crcFinal s)⟩

/-- Settles O43: the value loaded is a function of the window's bytes alone. -/
theorem crcBlockIsTheCrcOfTheWindow : Obligations.CrcBlockIsTheCrcOfTheWindow :=
  ⟨by decide, fun s => window_cases_of_exec_eq (exec_crcBlock s)⟩

/-- Settles O44: `TB(t)` lists TYPE[31:24] first (R13), and the message is those four bytes before the window's. -/
theorem crcChunkCoversTypeAndData : Obligations.CrcChunkCoversTypeAndData := by
  refine ⟨by decide, fun s => window_cases_of_exec_eq ?_⟩
  have htype : typeBytes (s.reg .type) =
      [(s.reg .type).extractLsb' 24 8, (s.reg .type).extractLsb' 16 8, (s.reg .type).extractLsb' 8 8,
        (s.reg .type).extractLsb' 0 8] := typeBytes_eq (s.reg .type)
  rw [exec_crcChunk, htype]

end Sys2Proof.Machine
end

section
/-!
PROOFS. CHUNK_EMIT (42_chunk.md R240, R241): the branches of the command, and what the write of a chunk leaves in the
buffer and in the two registers.
-/
namespace Sys2Proof.Machine
open Sys2Proof.Claims

/-! ### Lengths, registers and written ranges -/

theorem overLimit_iff (s : State) (n : Nat) : s.overLimit n = true ↔ OverLimit s n := by
  rw [State.overLimit, Bool.and_eq_true, decide_eq_true_eq, OverLimit]

theorem overLimit_eq_false {s : State} {n : Nat} (h : ¬ OverLimit s n) : s.overLimit n = false :=
  Bool.eq_false_iff.mpr fun hlimit => h ((overLimit_iff s n).mp hlimit)

theorem dstFits_iff (s : State) :
    s.fits (s.num .dst) (12 + s.num .len) = true ↔ s.num .dst + 12 + s.num .len ≤ s.bufSize := by
  rw [State.fits, decide_eq_true_iff, Nat.add_assoc]

/-- A register written back as the number it holds is the register (R10). -/
theorem toWord_num (s : State) (r : StoreReg) : toWord (s.num r) = s.reg r := by
  rw [toWord, State.num, BitVec.ofNat_toNat, BitVec.setWidth_eq]

/-- An offset that is no more than BUF_SIZE is written to a register without loss (R10). -/
theorem toWord_toNat_of_le_bufSize {s : State} {n : Nat} (h : n ≤ s.bufSize) : (toWord n).toNat = n :=
  toWord_toNat (Nat.lt_of_le_of_lt h s.params.bufSize.isLt)

theorem holdsAt_memWrite {size : Nat} {m : Memory} {off : Nat} {bs : List Byte} (hwf : m.wf size = true)
    (hfits : off + bs.length ≤ size) : HoldsAt (memWrite m off bs) off bs :=
  (memRead_eq_map ..).symm.trans (memRead_memWrite size m off bs hwf hfits)

/-! ### The branches of the command -/

/-- What CHUNK_EMIT has written where it completes without error (R240): the chunk of TYPE and the window, its CRC, and
the offset after it. -/
def State.withChunkEmitted (s : State) : State :=
  ((s.writeBuf (s.num .dst) (chunkBytes (s.reg .type) s.window)).setReg .crcResult
    (chunkCrc (s.reg .type) s.window)).setReg .nextOff (toWord (s.num .dst + 12 + s.num .len))

theorem execChunkEmit_limit {s : State} (hlimit : OverLimit s (s.num .len)) :
    execChunkEmit s = raise .lengthLimit s := by
  rw [execChunkEmit, if_pos ((overLimit_iff ..).mpr hlimit)]

section
variable {s : State} (hlimit : ¬ OverLimit s (s.num .len))
include hlimit

theorem execChunkEmit_range
    (hout : s.bufSize < s.num .src + s.num .len ∨ s.bufSize < s.num .dst + 12 + s.num .len) :
    execChunkEmit s = raise .range s := by
  rw [execChunkEmit, if_neg (mt (overLimit_iff ..).mp hlimit)]
  by_cases hsrc : s.srcFits = true
  · have hdst : ¬ s.fits (s.num .dst) (12 + s.num .len) = true := by
      rw [srcFits_iff] at hsrc
      rw [dstFits_iff]
      omega
    rw [if_pos hsrc, if_neg hdst]
  · rw [if_neg hsrc]

theorem execChunkEmit_fits (hsrc : s.num .src + s.num .len ≤ s.bufSize)
    (hdst : s.num .dst + 12 + s.num .len ≤ s.bufSize) : execChunkEmit s = complete s.withChunkEmitted := by
  rw [execChunkEmit, if_neg (mt (overLimit_iff ..).mp hlimit), if_pos ((srcFits_iff s).mpr hsrc),
    if_pos ((dstFits_iff s).mpr hdst), State.withChunkEmitted]

end

/-! ### What a chunk's write leaves -/

/-- The bytes written are those of R230, with the length field that LEN holds. -/
theorem chunkBytes_window (s : State) :
    chunkBytes (s.reg .type) s.window =
      bytesBe32 (s.reg .len) ++ bytesBe32 (s.reg .type) ++ bytesAt s.buf (s.num .src) (s.num .len) ++
        bytesBe32 (crc32 (bytesBe32 (s.reg .type) ++ bytesAt s.buf (s.num .src) (s.num .len))) := by
  rw [chunkBytes, window_length, toWord_num, window_eq_bytesAt, chunkCrc, typeBytes]

theorem withChunkEmitted_frame (s : State) : CommandFrame [.crcResult, .nextOff] s s.withChunkEmitted :=
  (((CommandFrame.refl _ s).writeBuf _ _).setReg (by decide) _).setReg (by decide) _

@[simp] theorem withChunkEmitted_buf (s : State) :
    s.withChunkEmitted.buf = memWrite s.buf (s.num .dst) (chunkBytes (s.reg .type) s.window) := rfl

@[simp] theorem withChunkEmitted_crcResult (s : State) :
    s.withChunkEmitted.reg .crcResult = chunkCrc (s.reg .type) s.window := by
  simp [State.withChunkEmitted]

@[simp] theorem withChunkEmitted_nextOff (s : State) :
    s.withChunkEmitted.reg .nextOff = toWord (s.num .dst + 12 + s.num .len) := by
  simp [State.withChunkEmitted]

theorem withChunkEmitted_sameBufOutside (s : State) :
    SameBufOutside (s.num .dst) (12 + s.num .len) s s.withChunkEmitted := by
  intro a ha
  rw [withChunkEmitted_buf]
  apply byteAt_memWrite_outside
  rwa [chunkBytes_length, window_length]

/-- Settles O47: the window is read before the write, so the bytes at DST are those of the state before, whether or not
the two ranges overlap. -/
theorem chunkEmitWritesTheChunk : Obligations.ChunkEmitWritesTheChunk := by
  refine ⟨by decide, fun s hwf => ⟨?limit, ?range, ?fits⟩⟩
  case limit =>
    intro hlimit
    exact failsWith_of_raise (e := .lengthLimit) (execChunkEmit_limit hlimit)
  case range =>
    intro hlimit hout
    exact failsWith_of_raise (e := .range) (execChunkEmit_range hlimit hout)
  case fits =>
    intro hlimit hsrc hdst
    have frame := withChunkEmitted_frame s
    have hlen : s.num .dst + (chunkBytes (s.reg .type) s.window).length ≤ s.bufSize := by
      rw [chunkBytes_length, window_length, ← Nat.add_assoc]
      exact hdst
    refine ⟨_, execChunkEmit_fits hlimit hsrc hdst, ?bytes, ?crc, ?next, frame.finish_endedOk, frame.regs,
      withChunkEmitted_sameBufOutside s, fun _ => rfl,
      ⟨frame.cfg, frame.params, frame.hostProg, frame.turns, frame.readData⟩⟩
    case bytes =>
      rw [← chunkBytes_window]
      exact holdsAt_memWrite hwf hlen
    case crc => rw [finish_reg, withChunkEmitted_crcResult, window_eq_bytesAt, chunkCrc, typeBytes]
    case next => rw [finish_reg, withChunkEmitted_nextOff, toWord_toNat_of_le_bufSize hdst]

end Sys2Proof.Machine
end

section
/-!
PROOFS. ParseChunk in the terms of the obligations, which read the chunk byte by byte (42_chunk.md R230, R232), and
CHUNK_PARSE (R250).
-/
namespace Sys2Proof.Machine
open Sys2Proof.Claims

/-! ### The values of a chunk -/

theorem lenField_toNat (m : Memory) (off : Nat) : (lenField m off).toNat = lenAt m off := by
  rw [lenField, be32_toNat _ (memRead_length ..), memRead_eq_map, lenAt, bytesAt]

/-- The values that ParseChunk reports of the chunk at `off` (R232). -/
def chunkAt (m : Memory) (off : Nat) : ChunkInfo := chunkInfoAt m off (lenField m off)

theorem chunkAt_len (m : Memory) (off : Nat) : (chunkAt m off).len.toNat = lenAt m off := lenField_toNat m off

theorem chunkAt_type (m : Memory) (off : Nat) : (chunkAt m off).type = typeAt m off :=
  congrArg be32 (memRead_eq_map ..)

theorem chunkAt_stored (m : Memory) (off : Nat) : (chunkAt m off).stored = storedCrcAt m off := by
  rw [chunkAt, chunkInfoAt, lenField_toNat, storedCrcAt, bytesAt, ← memRead_eq_map]

/-- The type bytes and the data bytes stand next to each other, so the CRC over both is the CRC of one range (R204). -/
theorem chunkAt_computed (m : Memory) (off : Nat) : (chunkAt m off).computed = computedCrcAt m off := by
  have hbytes : typeBytes (be32 (memRead m (off + 4) 4)) ++ memRead m (off + 8) (lenAt m off) =
      bytesAt m (off + 4) (4 + lenAt m off) := by
    rw [typeBytes, bytesBe32_be32 _ (memRead_length ..), ← memRead_add, memRead_eq_map, bytesAt]
  rw [chunkAt, chunkInfoAt, lenField_toNat, chunkCrc, hbytes, computedCrcAt]

/-- WriteChunkRegs of the chunk at `off` shows it (R233), in any state that keeps the five registers. -/
theorem chunkRegs_of_writeChunkRegs {m : Memory} {off : Nat} {s t : State}
    (hsize : off + 12 + lenAt m off ≤ s.bufSize)
    (hregs : ∀ r, r ∈ chunkRegList → t.reg r = (writeChunkRegs off (chunkAt m off) s).reg r) : ChunkRegs m off t where
  len := by rw [hregs .chunkLen (by decide), writeChunkRegs_chunkLen, chunkAt_len]
  type := by rw [hregs .chunkType (by decide), writeChunkRegs_chunkType, chunkAt_type]
  stored := by rw [hregs .chunkCrc (by decide), writeChunkRegs_chunkCrc, chunkAt_stored]
  computed := by rw [hregs .calcCrc (by decide), writeChunkRegs_calcCrc, chunkAt_computed]
  nextOff := by
    rw [hregs .nextOff (by decide), writeChunkRegs_nextOff, chunkAt_len, toWord_toNat_of_le_bufSize hsize]

/-! ### What ParseChunk answers -/

theorem parseChunk_of_chunkUnreadable {s : State} {off w : Nat} {code : BitVec 4}
    (h : ChunkUnreadable s off (off + w) code) :
    ∃ e, errorCode e = code ∧ parseChunk s off w = .err e none := by
  obtain ⟨hshort, rfl⟩ | ⟨hlong, hlimit, rfl⟩ | ⟨hlong, hlimit, hcut, rfl⟩ := h
  · exact ⟨.truncated, rfl, parseChunk_noLength (by omega)⟩
  · rw [← lenField_toNat, ← overLimit_iff] at hlimit
    exact ⟨.lengthLimit, rfl, parseChunk_overLimit (by omega) hlimit⟩
  · rw [← lenField_toNat] at hlimit hcut
    exact ⟨.truncated, rfl, parseChunk_tooLong (by omega) (overLimit_eq_false hlimit) (by omega)⟩

theorem parseChunk_of_chunkFits {s : State} {off w : Nat} (h : ChunkFits s off (off + w)) :
    parseChunk s off w =
      if storedCrcAt s.buf off = computedCrcAt s.buf off then .ok (chunkAt s.buf off)
      else .err .crcMismatch (some (chunkAt s.buf off)) := by
  obtain ⟨hwhole, hlimit⟩ := h
  rw [← lenField_toNat] at hwhole hlimit
  rw [parseChunk_whole (overLimit_eq_false hlimit) (by omega), ← chunkAt, chunkAt_stored, chunkAt_computed]

theorem parseChunk_of_chunkGood {s : State} {off w : Nat} (h : ChunkGood s off (off + w)) :
    parseChunk s off w = .ok (chunkAt s.buf off) := by
  obtain ⟨hfits, hcrc⟩ := h
  rw [parseChunk_of_chunkFits hfits, if_pos hcrc]

theorem parseChunk_of_crcMismatch {s : State} {off w : Nat} (h : ChunkFits s off (off + w))
    (hcrc : storedCrcAt s.buf off ≠ computedCrcAt s.buf off) :
    parseChunk s off w = .err .crcMismatch (some (chunkAt s.buf off)) := by
  rw [parseChunk_of_chunkFits h, if_neg hcrc]

/-! ### The branches of the command -/

theorem execChunkParse_range {s : State} (hout : s.bufSize < s.num .src + s.num .len) :
    execChunkParse s = raise .range s := by
  have hfits : ¬ s.srcFits = true := by rw [srcFits_iff]; omega
  rw [execChunkParse, if_neg hfits]

section
variable {s : State} (hfits : s.num .src + s.num .len ≤ s.bufSize)
include hfits

theorem execChunkParse_unreadable {code : BitVec 4}
    (h : ChunkUnreadable s (s.num .src) (s.num .src + s.num .len) code) :
    ∃ e, errorCode e = code ∧ execChunkParse s = raise e s := by
  obtain ⟨e, hcode, hparse⟩ := parseChunk_of_chunkUnreadable h
  refine ⟨e, hcode, ?_⟩
  rw [execChunkParse, if_pos ((srcFits_iff s).mpr hfits), hparse]

theorem execChunkParse_good (h : ChunkGood s (s.num .src) (s.num .src + s.num .len)) :
    execChunkParse s = complete (writeChunkRegs (s.num .src) (chunkAt s.buf (s.num .src)) s) := by
  rw [execChunkParse, if_pos ((srcFits_iff s).mpr hfits), parseChunk_of_chunkGood h]

theorem execChunkParse_mismatch (h : ChunkFits s (s.num .src) (s.num .src + s.num .len))
    (hcrc : storedCrcAt s.buf (s.num .src) ≠ computedCrcAt s.buf (s.num .src)) :
    execChunkParse s = raise .crcMismatch (writeChunkRegs (s.num .src) (chunkAt s.buf (s.num .src)) s) := by
  rw [execChunkParse, if_pos ((srcFits_iff s).mpr hfits), parseChunk_of_crcMismatch h hcrc]

end

/-- Settles O48: the answers of ParseChunk for the window, each carried out by the command. -/
theorem chunkParseValidatesTheChunk : Obligations.ChunkParseValidatesTheChunk := by
  refine ⟨by decide, fun s => ⟨?range, ?unreadable, ?whole⟩⟩
  case range =>
    intro hout
    exact failsWith_of_raise (e := .range) (execChunkParse_range hout)
  case unreadable =>
    intro hfits code hbad
    obtain ⟨e, rfl, hexec⟩ := execChunkParse_unreadable hfits hbad
    exact failsWith_of_raise hexec
  case whole =>
    intro hfits hchunk
    have frame := writeChunkRegs_frame (s.num .src) (chunkAt s.buf (s.num .src)) s
    have shown (e : Option ErrorKind) :
        ChunkRegs s.buf (s.num .src) ((writeChunkRegs (s.num .src) (chunkAt s.buf (s.num .src)) s).finish e) :=
      chunkRegs_of_writeChunkRegs (Nat.le_trans hchunk.1 hfits) fun r _ => finish_reg _ e r
    have only := frame.finish_onlyRegs (writeChunkRegs_buf ..) (writeChunkRegs_desc ..)
    by_cases hcrc : storedCrcAt s.buf (s.num .src) = computedCrcAt s.buf (s.num .src)
    · exact ⟨_, execChunkParse_good hfits ⟨hchunk, hcrc⟩, shown none, only none, fun _ => frame.finish_endedOk,
        fun hne => absurd hcrc hne⟩
    · exact ⟨_, execChunkParse_mismatch hfits hchunk hcrc, shown (some .crcMismatch), only (some .crcMismatch),
        fun heq => absurd heq hcrc, fun _ => frame.finish_endedWith .crcMismatch⟩

end Sys2Proof.Machine
end

section
/-!
PROOFS. SIG_EMIT (43_container.md R270): the two branches of the command, and what the write of the signature leaves.
-/
namespace Sys2Proof.Machine
open Sys2Proof.Claims

/-! ### The branches of the command -/

theorem fits_iff (s : State) (off n : Nat) : s.fits off n = true ↔ off + n ≤ s.bufSize := decide_eq_true_iff

/-- What SIG_EMIT has written where it completes (R270): the signature and the offset after it. -/
def State.withSigEmitted (s : State) : State :=
  (s.writeBuf (s.num .dst) sigBytes).setReg .nextOff (toWord (s.num .dst + 8))

theorem execSigEmit_fits {s : State} (hfits : s.num .dst + 8 ≤ s.bufSize) :
    execSigEmit s = complete s.withSigEmitted := by
  rw [execSigEmit, if_pos ((fits_iff ..).mpr hfits), State.withSigEmitted]

theorem execSigEmit_range {s : State} (hout : s.bufSize < s.num .dst + 8) : execSigEmit s = raise .range s := by
  have hfits : ¬ s.fits (s.num .dst) 8 = true := by rw [fits_iff]; omega
  rw [execSigEmit, if_neg hfits]

/-! ### What the signature's write leaves -/

theorem withSigEmitted_frame (s : State) : CommandFrame [.nextOff] s s.withSigEmitted :=
  ((CommandFrame.refl _ s).writeBuf _ _).setReg (List.mem_singleton.mpr rfl) _

@[simp] theorem withSigEmitted_buf (s : State) : s.withSigEmitted.buf = memWrite s.buf (s.num .dst) sigBytes := rfl

@[simp] theorem withSigEmitted_nextOff (s : State) : s.withSigEmitted.reg .nextOff = toWord (s.num .dst + 8) := by
  rw [State.withSigEmitted, setReg_reg, if_pos rfl]

theorem withSigEmitted_sameBufOutside (s : State) : SameBufOutside (s.num .dst) 8 s s.withSigEmitted := by
  intro a ha
  rw [withSigEmitted_buf]
  exact byteAt_memWrite_outside s.buf (s.num .dst) sigBytes a ha

/-- Settles O51: one branch of the command for each clause; the bytes written are the constant of R14, so the buffer is
not read. -/
theorem sigEmitWritesTheSignature : Obligations.SigEmitWritesTheSignature := by
  refine ⟨by decide, fun s hwf => ⟨?fits, ?range⟩⟩
  case fits =>
    intro hfits
    have frame := withSigEmitted_frame s
    have bytes : HoldsAt s.withSigEmitted.buf (s.num .dst) sigBytes := holdsAt_memWrite hwf hfits
    refine ⟨_, execSigEmit_fits hfits, bytes, ?next, frame.finish_endedOk, frame.regs,
      withSigEmitted_sameBufOutside s, fun _ => rfl,
      ⟨frame.cfg, frame.params, frame.hostProg, frame.turns, frame.readData⟩⟩
    case next => rw [finish_reg, withSigEmitted_nextOff, toWord_toNat_of_le_bufSize hfits]
  case range =>
    intro hout
    exact failsWith_of_raise (e := .range) (execSigEmit_range hout)

end Sys2Proof.Machine
end

section
/-!
PROOFS. FIND_TYPE (43_container.md R290, R291): the index that the search answers, and the register the command loads.
-/
namespace Sys2Proof.Machine
open Sys2Proof.Claims

/-! ### The search over the first `n` descriptors -/

/-- The search stops neither before the first descriptor of the type nor after it. -/
theorem findFrom_eq_some_of_first {tbl : DescTable} {t : Word} {n i : Nat} (hi : i < n)
    (htype : (descAt tbl i).type = t) (hfirst : ∀ j, j < i → (descAt tbl j).type ≠ t) :
    findFrom tbl t 0 n = some i := by
  cases hfind : findFrom tbl t 0 n with
  | none => exact absurd htype (findFrom_none hfind i (Nat.zero_le i) (by omega))
  | some k =>
    obtain ⟨-, -, hkType, hkFirst⟩ := findFrom_some hfind
    have hki : ¬ k < i := fun h => hfirst k h hkType
    have hik : ¬ i < k := fun h => hkFirst i (Nat.zero_le i) h htype
    have heq : k = i := by omega
    rw [heq]

theorem findFrom_eq_none_of_forall_ne {tbl : DescTable} {t : Word} {n : Nat}
    (hne : ∀ i, i < n → (descAt tbl i).type ≠ t) : findFrom tbl t 0 n = none := by
  cases hfind : findFrom tbl t 0 n with
  | none => rfl
  | some k =>
    obtain ⟨-, hk, hkType, -⟩ := findFrom_some hfind
    exact absurd hkType (hne k (by omega))

/-! ### The command -/

theorem exec_findType_of_some {s : State} {i : Nat}
    (h : findFrom s.desc (s.reg .type) 0 (s.num .chunkCount) = some i) :
    exec .findType s = complete (s.setReg .findIndex (toWord i)) := by
  show execFindType s = _
  rw [execFindType, h]

theorem exec_findType_of_none {s : State} (h : findFrom s.desc (s.reg .type) 0 (s.num .chunkCount) = none) :
    exec .findType s = complete (s.setReg .findIndex 0xFFFFFFFF#32) := by
  show execFindType s = _
  rw [execFindType, h, noneWord]

/-- An index below the value of a register fits in a register (R10). -/
theorem toWord_toNat_of_lt_num {s : State} {r : StoreReg} {i : Nat} (h : i < s.num r) : (toWord i).toNat = i :=
  toWord_toNat (Nat.lt_trans h (s.reg r).isLt)

/-- Settles O58: the search answers the first index of the type or none, and either answer is loaded without error. -/
theorem findTypeFindsTheFirst : Obligations.FindTypeFindsTheFirst := by
  refine ⟨by decide, fun s => ⟨?found, ?none⟩⟩
  case found =>
    intro i hi htype hfirst
    have hexec := exec_findType_of_some (findFrom_eq_some_of_first hi htype hfirst)
    obtain ⟨t, hnext, hindex, hok, honly⟩ := completes_of_exec_eq_setReg hexec
    have hnum : t.num .findIndex = i := by rw [State.num, hindex, toWord_toNat_of_lt_num hi]
    exact ⟨t, hnext, hnum, hok, honly⟩
  case none =>
    intro hne
    exact completes_of_exec_eq_setReg (exec_findType_of_none (findFrom_eq_none_of_forall_ne hne))

end Sys2Proof.Machine
end

section
/-!
PROOFS. The control commands (44_control.md R310, R311): NOP, and the words that are no command.
-/
namespace Sys2Proof.Machine
open Sys2Proof.Claims

/-! ### Ends of a command that has written nothing -/

theorem complete_onlyStatus (s : State) : ∃ t, complete s = .next t ∧ EndedOk s t ∧ OnlyRegs [] s t :=
  have frame := CommandFrame.refl [] s
  ⟨s.finish none, rfl, frame.finish_endedOk, frame.finish_onlyRegs rfl rfl none⟩

theorem raise_onlyStatus (e : ErrorKind) (s : State) :
    ∃ t, raise e s = .next t ∧ EndedWith (errorCode e) s t ∧ OnlyRegs [] s t :=
  have frame := CommandFrame.refl [] s
  ⟨s.finish (some e), rfl, frame.finish_endedWith e, frame.finish_onlyRegs rfl rfl (some e)⟩

/-- Of the state before, an error's completion depends on the flags of STATUS alone (R141). -/
theorem endedWith_of_status_eq {code : BitVec 4} {s u t : State} (h : EndedWith code u t)
    (hstatus : u.status = s.status) : EndedWith code s t :=
  { h with
    haz := by rw [h.haz, hstatus]
    busErr := by rw [h.busErr, hstatus] }

/-! ### Illegal words -/

/-- A word that decodes has the fields of a command's word (R131, R132). -/
theorem fields_of_decode_ok {w : Word} {i : Instr} (h : decode w = .ok i) :
    mbzField w = 0#24 ∧ opField w ∈ opcodeMap.map Prod.fst := by
  rw [encode_of_decode h]
  cases i <;> decide

theorem runPending_error {s : State} {e : DecodeReject} (h : decode (s.reg .cmd) = .error e) :
    runPending s = execIllegal s := by
  rw [runPending, h]

/-- Either field alone makes the pending word illegal: a nonzero MBZ, or an OP that R132 does not assign. -/
theorem runPending_illegal {s : State}
    (h : mbzField (s.reg .cmd) ≠ 0#24 ∨ opField (s.reg .cmd) ∉ opcodeMap.map Prod.fst) :
    runPending s = execIllegal s := by
  cases hdecode : decode (s.reg .cmd) with
  | ok i =>
    obtain ⟨hmbz, hop⟩ := fields_of_decode_ok hdecode
    rcases h with hmbz' | hop'
    · exact absurd hmbz hmbz'
    · exact absurd hop hop'
  | error e => exact runPending_error hdecode

/-! ### The obligations -/

theorem exec_nop (s : State) : exec .nop s = complete s := rfl

/-- Settles O36: NOP is the bare completion of the state it is given. -/
theorem nopOnlyCompletes : Obligations.NopOnlyCompletes := by
  refine ⟨by decide, fun s => ?_⟩
  rw [exec_nop]
  exact complete_onlyStatus s

/-- Settles O37: the decoder rejects the word, and the engine raises ILLEGAL_CMD on the state whose turn is used up. -/
theorem illegalWordRaisesIllegalCmd : Obligations.IllegalWordRaisesIllegalCmd := by
  intro s rest hturn hbusy hillegal
  have hstep : step s = raise .illegalCmd { s with turns := rest } :=
    calc step s
      _ = runPending { s with turns := rest } := step_engine hturn hbusy
      _ = execIllegal { s with turns := rest } := runPending_illegal hillegal
      _ = raise .illegalCmd { s with turns := rest } := rfl
  obtain ⟨t, hnext, hended, honly⟩ := raise_onlyStatus .illegalCmd { s with turns := rest }
  exact ⟨t, hstep.trans hnext, endedWith_of_status_eq hended rfl, honly⟩

end Sys2Proof.Machine
end

section
/-!
PROOFS. The busy write hazard (70_reset_and_hazards.md R380): the host writes that are discarded while a command is
pending, and those that are not.
-/
namespace Sys2Proof.Machine
open Sys2Proof.Claims

/-! ### The writes R380 discards -/

/-- The argument offsets hold the registers whose writes R92 stores somewhere: CMD by issue, CFG, and the operands. -/
theorem regAt_of_mem_argumentOffsets {a : Nat} (h : a ∈ argumentOffsets) :
    ∃ r, regAt a = some r ∧ writeRule r ≠ .writeClear ∧ writeRule r ≠ .ignored := by
  have storedAt : ∀ o ∈ argumentOffsets,
      (regAt o).any (fun r => writeRule r ≠ .writeClear ∧ writeRule r ≠ .ignored) = true := by decide
  obtain ⟨r, hreg, hrule⟩ := (Option.any_eq_true _ _).mp (storedAt a h)
  exact ⟨r, hreg, of_decide_eq_true hrule⟩

/-- Every write rule but the two R380 exempts goes through `unlessBusy`. -/
theorem writeReg_of_busy {s : State} (hbusy : s.status.busy = true) {r : Reg} (hclear : writeRule r ≠ .writeClear)
    (hignored : writeRule r ≠ .ignored) (v : Word) : s.writeReg r v = s.setHaz := by
  rw [State.writeReg]
  cases hrule : writeRule r with
  | issue => exact unlessBusy_of_busy hbusy _
  | writeClear => exact absurd hrule hclear
  | config => exact unlessBusy_of_busy hbusy _
  | store q => exact unlessBusy_of_busy hbusy _
  | ignored => exact absurd hrule hignored

theorem access_write_argument_of_busy {s : State} (hbusy : s.status.busy = true) {addr : Word}
    (h : addr.toNat ∈ argumentOffsets) (lanes v : Word) : s.access lanes (.write addr .w4 v) = s.setHaz := by
  obtain ⟨r, hreg, hclear, hignored⟩ := regAt_of_mem_argumentOffsets h
  rw [access_write_reg hreg, writeReg_of_busy hbusy hclear hignored]

theorem access_write_buf {s : State} {addr : Word} {w : Width} (h : bufAccessOk s.params addr w = true)
    (lanes v : Word) :
    s.access lanes (.write addr w v) =
      s.unlessBusy (s.writeBuf (addr.toNat - 0x80000000) (laneBytes v w.bytes)) := by
  simp only [State.access, State.writeAccess, target_of_buf h]

/-! ### The obligation -/

/-- Settles O22: the argument registers and the buffer window are written under the busy rule; read-only registers and
STATUS are written as they are without a pending command. -/
theorem busyWritesAreDiscarded : Obligations.BusyWritesAreDiscarded := by
  intro s lanes addr v w _ hbusy
  refine ⟨fun hplace => ?_, fun hreadOnly => access_write_readOnly hreadOnly s lanes v, access_write_status s lanes v⟩
  have discarded : s.access lanes (.write addr w v) = s.setHaz := by
    rcases hplace with ⟨hargument, rfl⟩ | hbuf
    · exact access_write_argument_of_busy hbusy hargument lanes v
    · rw [access_write_buf hbuf, unlessBusy_of_busy hbusy]
  rw [discarded, setHaz_eq, State.setStatus]

end Sys2Proof.Machine
end

section
/-!
PROOFS. The decoder (30_encoding.md R130 to R133): the legal words, and decoding as the inverse of encoding.
-/
namespace Sys2Proof.Machine

theorem decode_encode (i : Instr) : decode (encode i) = .ok i := by cases i <;> decide

theorem decode_eq_ok_iff (w : Word) (i : Instr) : decode w = .ok i ↔ w = encode i := by
  constructor
  · exact encode_of_decode
  · rintro rfl
    exact decode_encode i

theorem exists_lookupOp_of_mem {rows : List (Byte × Instr)} {op : Byte} (h : op ∈ rows.map Prod.fst) :
    ∃ i, lookupOp rows op = some i := by
  induction rows with
  | nil => simp at h
  | cons row rows ih =>
    obtain ⟨o, i⟩ := row
    rw [lookupOp]
    by_cases hop : op = o
    · exact ⟨i, if_pos hop⟩
    · rw [if_neg hop]
      rw [List.map_cons] at h
      exact ih (List.mem_of_ne_of_mem hop h)

/-- A word is legal exactly when its MBZ field is 0 and its OP field is a row of the opcode map (R131 to R133). -/
theorem exists_decode_ok_iff (w : Word) :
    (∃ i, decode w = .ok i) ↔ mbzField w = 0#24 ∧ opField w ∈ opcodeMap.map Prod.fst := by
  constructor
  · rintro ⟨i, h⟩
    exact fields_of_decode_ok h
  · rintro ⟨hmbz, hop⟩
    obtain ⟨i, hrow⟩ := exists_lookupOp_of_mem hop
    refine ⟨i, ?_⟩
    rw [decode, if_pos hmbz, hrow]

/-- The opcodes that R132 assigns, as the numbers of its first column. -/
theorem mem_opcodes_iff (op : Byte) :
    op ∈ opcodeMap.map Prod.fst ↔
      op.toNat ∈ [0x00, 0x01, 0x02, 0x03, 0x04, 0x05, 0x10, 0x20, 0x21, 0x30, 0x31, 0x32] :=
  (List.mem_map_of_injective (f := BitVec.toNat) fun _ _ => BitVec.eq_of_toNat_eq).symm

/-! ### The obligations -/

/-- Settles O1: each word of the map is the encoding of its command. -/
theorem commandWordsDecode : Obligations.CommandWordsDecode :=
  ⟨decode_encode .nop, decode_encode .crcInit, decode_encode .crcUpdate, decode_encode .crcFinal,
    decode_encode .crcBlock, decode_encode .crcChunk, decode_encode .typeFromText, decode_encode .chunkEmit,
    decode_encode .chunkParse, decode_encode .sigEmit, decode_encode .streamParse, decode_encode .findType⟩

/-- Settles O2: legality is read off the two fields of the word, and what decodes is the encoding of its command. -/
theorem legalWordsAreExactlyTheCommands : Obligations.LegalWordsAreExactlyTheCommands := by
  refine ⟨fun w => ?legal, decode_eq_ok_iff⟩
  case legal =>
    rw [exists_decode_ok_iff, mem_opcodes_iff]
    rfl

end Sys2Proof.Machine
end

section
/-!
PROOFS. What the step of every command leaves: its error codes (60_exceptions.md R330), its completion
(30_encoding.md R141), and the frame of its row (10_state.md R60).
-/
namespace Sys2Proof.Machine
open Sys2Proof.Claims

/-! ### The two memories after a command -/

/-- What a command may leave in the buffer: CHUNK_EMIT and SIG_EMIT their own bytes from DST, or what was there. -/
def bufferAfter (i : Instr) (s : State) : Memory → Prop :=
  match i with
  | .chunkEmit => fun m => m = s.buf ∨ s.num .dst + 12 + s.num .len ≤ s.bufSize ∧
      m = memWrite s.buf (s.num .dst) (chunkBytes (s.reg .type) s.window)
  | .sigEmit => fun m => m = s.buf ∨ s.num .dst + 8 ≤ s.bufSize ∧ m = memWrite s.buf (s.num .dst) sigBytes
  | _ => (· = s.buf)

/-- What a command may leave in the descriptor table: STREAM_PARSE anything, the others what was there. -/
def tableAfter (i : Instr) (s : State) : DescTable → Prop :=
  match i with
  | .streamParse => fun _ => True
  | _ => (· = s.desc)

/-- Every command ends, in the frame of its R60 row and with its row of the two memories. -/
theorem exec_ends_row (i : Instr) (s : State) :
    ∃ errors, Ends (exec i s) (writesRegs i) errors s (bufferAfter i s) (tableAfter i s) := by
  cases i with
  | nop => exact ⟨_, execNop_ends s⟩
  | crcInit => exact ⟨_, execCrcInit_ends s⟩
  | crcUpdate => exact ⟨_, execCrcUpdate_ends s⟩
  | crcFinal => exact ⟨_, execCrcFinal_ends s⟩
  | crcBlock => exact ⟨_, execCrcBlock_ends s⟩
  | crcChunk => exact ⟨_, execCrcChunk_ends s⟩
  | typeFromText => exact ⟨_, execTypeFromText_ends s⟩
  | chunkEmit => exact ⟨_, execChunkEmit_ends s⟩
  | chunkParse => exact ⟨_, execChunkParse_ends s⟩
  | sigEmit => exact ⟨_, execSigEmit_ends s⟩
  | streamParse => exact ⟨_, execStreamParse_ends s⟩
  | findType => exact ⟨_, execFindType_ends s⟩

theorem exec_answers (i : Instr) (s : State) : ∃ t, exec i s = .next t := by
  obtain ⟨_, hends⟩ := exec_ends_row i s
  exact hends.answers

/-- The state that a command's step leaves, as the completion of one in the command's rows. -/
theorem exec_row {i : Instr} {s t : State} (h : exec i s = .next t) :
    ∃ u e, t = u.finish e ∧ CommandFrame (writesRegs i) s u ∧ bufferAfter i s u.buf ∧ tableAfter i s u.desc := by
  obtain ⟨_, u, e, hnext, hframe, hbuf, hdesc, -⟩ := exec_ends_row i s
  rw [hnext] at h
  cases h
  exact ⟨u, e, rfl, hframe, hbuf, hdesc⟩

theorem bufferAfter_eq {i : Instr} {s : State} {m : Memory} (h : bufferAfter i s m) (hchunk : i ≠ .chunkEmit)
    (hsig : i ≠ .sigEmit) : m = s.buf := by
  unfold bufferAfter at h
  split at h
  · exact absurd rfl hchunk
  · exact absurd rfl hsig
  · exact h

theorem tableAfter_eq {i : Instr} {s : State} {t : DescTable} (h : tableAfter i s t) (hstream : i ≠ .streamParse) :
    t = s.desc := by
  unfold tableAfter at h
  split at h
  · exact absurd rfl hstream
  · exact h

/-! ### Completion and error codes -/

theorem completed_err_iff (t : Status) (e : Option ErrorKind) :
    (t.completed e).err = true ↔ (t.completed e).errCode ≠ 0#4 := by
  cases e with
  | none => simp
  | some k => simp [errorCode_ne_zero]

theorem cmd_not_mem_writesRegs (i : Instr) : StoreReg.cmd ∉ writesRegs i := by cases i <;> decide

/-- Settles O14: every command ends with `finish`, of a state with STATUS and CMD as they were. -/
theorem completionWritesStatus : Obligations.CompletionWritesStatus := by
  intro i s t h
  obtain ⟨u, e, rfl, frame, -⟩ := exec_ends h
  refine ⟨completed_busy _ e, completed_done _ e, completed_err_iff _ e, ?haz, ?busErr, ?cmd⟩
  case haz => rw [finish_status, completed_haz, frame.status]
  case busErr => rw [finish_status, completed_busErr, frame.status]
  case cmd => rw [finish_reg, frame.regs .cmd (cmd_not_mem_writesRegs i)]

/-- Settles O30: the frame of the registers is that of the command's row, and the two emits write within their own
bytes. -/
theorem commandsWriteOnlyTheirRow : Obligations.CommandsWriteOnlyTheirRow := by
  intro i s t h
  obtain ⟨u, e, rfl, frame, hbuf, hdesc⟩ := exec_row h
  refine ⟨frame.regs, ⟨frame.cfg, frame.params, frame.hostProg, frame.turns, frame.readData⟩, ?buf, ?desc, ?chunk,
    ?sig⟩
  case buf =>
    intro hchunk hsig a
    rw [finish_buf, bufferAfter_eq hbuf hchunk hsig]
  case desc =>
    intro hstream k
    rw [finish_desc, tableAfter_eq hdesc hstream]
  case chunk =>
    rintro rfl a ha
    rw [finish_buf]
    obtain heq | ⟨-, heq⟩ := hbuf
    · rw [heq]
    · rw [heq, ← withChunkEmitted_buf]
      exact withChunkEmitted_sameBufOutside s a ha
  case sig =>
    rintro rfl a ha
    rw [finish_buf]
    obtain heq | ⟨-, heq⟩ := hbuf
    · rw [heq]
    · rw [heq, ← withSigEmitted_buf]
      exact withSigEmitted_sameBufOutside s a ha

theorem exec_errCode {i : Instr} {s t : State} (h : exec i s = .next t) :
    t.status.errCode = 0#4 ∨ t.status.errCode ∈ raises i := by
  obtain ⟨u, e, rfl, -, hraises⟩ := exec_ends h
  cases e with
  | none => exact .inl rfl
  | some k => exact .inr (hraises k rfl)

/-- The codes that R330 gives to some command or to an illegal word, with 0 for a completion without error. -/
def raisedCodes : List (BitVec 4) := [0#4, 1#4, 2#4, 3#4, 4#4, 5#4, 8#4, 9#4, 10#4, 11#4]

theorem raises_subset_raisedCodes (i : Instr) : raises i ⊆ raisedCodes := by cases i <;> decide

theorem exec_errCode_mem_raisedCodes {i : Instr} {s t : State} (h : exec i s = .next t) :
    t.status.errCode ∈ raisedCodes := by
  obtain hzero | hrow := exec_errCode h
  · rw [hzero]; decide
  · exact raises_subset_raisedCodes i hrow

/-- What the engine's step does: the command of a legal word, or ILLEGAL_CMD (R140, R311). -/
theorem runPending_cases {s t : State} (h : runPending s = .next t) :
    (∃ i, s.reg .cmd = encode i ∧ exec i s = .next t) ∨ t = s.finish (some .illegalCmd) := by
  cases hdecode : decode (s.reg .cmd) with
  | ok i =>
    rw [runPending_ok hdecode] at h
    exact .inl ⟨i, encode_of_decode hdecode, h⟩
  | error e =>
    rw [runPending_error hdecode] at h
    cases h
    exact .inr rfl

theorem runPending_answers (s : State) : ∃ t, runPending s = .next t := by
  cases hdecode : decode (s.reg .cmd) with
  | ok i =>
    rw [runPending_ok hdecode]
    exact exec_answers i s
  | error e => exact ⟨_, runPending_error hdecode⟩

/-- Settles O32: the codes of each command are those of its row, and an illegal word has the code 8. -/
theorem commandsRaiseOnlyTheirErrors : Obligations.CommandsRaiseOnlyTheirErrors := by
  refine ⟨fun i s t h => exec_errCode h, fun s t rest hturn hbusy h => ?_⟩
  rw [step_engine hturn hbusy] at h
  have hmem : t.status.errCode ∈ raisedCodes := by
    obtain ⟨i, -, hexec⟩ | rfl := runPending_cases h
    · exact exec_errCode_mem_raisedCodes hexec
    · rw [finish_status, completed_errCode_some]; decide
  have unreserved : ∀ c ∈ raisedCodes, c ∉ [6#4, 7#4, 12#4, 13#4, 14#4, 15#4] := by decide
  exact unreserved _ hmem

end Sys2Proof.Machine
end

section
/-!
PROOFS. The invariant of the machine (`State.Inv`): what each operation of the state needs to keep it, then every
command, every host access and every step.
-/
namespace Sys2Proof.Machine
open Sys2Proof.Claims

/-! ### The operations on the state -/

/-- The registers that the invariant speaks of (R47 to R51). -/
def resultRegs : List StoreReg := [.nextOff, .chunkCount, .failIndex, .failOff, .findIndex]

/-- The descriptors below `n` describe chunks that lie in the buffer and follow each other (R275). -/
def ChainsUpTo (n size : Nat) (t : DescTable) : Prop :=
  ∀ i, i < n →
    (descAt t i).off.toNat + 12 + (descAt t i).len.toNat ≤ size ∧
    (i + 1 < n → (descAt t (i + 1)).off.toNat = (descAt t i).off.toNat + 12 + (descAt t i).len.toNat)

namespace State.Inv

variable {s : State} (h : s.Inv)
include h

theorem chainsUpTo : ChainsUpTo (s.num .chunkCount) s.bufSize s.desc := h.chain

theorem setReg_other {r : StoreReg} (hr : r ∉ resultRegs) (v : Word) : (s.setReg r v).Inv := by
  have same : ∀ q ∈ resultRegs, (s.setReg r v).reg q = s.reg q := fun q hq => by
    have hne : q ≠ r := fun e => hr (e ▸ hq)
    rw [setReg_reg, if_neg hne]
  have sameNum : ∀ q ∈ resultRegs, (s.setReg r v).num q = s.num q := fun q hq => congrArg BitVec.toNat (same q hq)
  exact
    { params := h.params
      buf := h.buf
      desc := h.desc
      status := h.status
      nextOff := by rw [sameNum .nextOff (by decide)]; exact h.nextOff
      chunkCount := by rw [sameNum .chunkCount (by decide)]; exact h.chunkCount
      failIndex := by rw [sameNum .failIndex (by decide), same .failIndex (by decide)]; exact h.failIndex
      failOff := by rw [sameNum .failOff (by decide), same .failOff (by decide)]; exact h.failOff
      findIndex := by rw [sameNum .findIndex (by decide), same .findIndex (by decide)]; exact h.findIndex
      chain := by
        show ChainsUpTo ((s.setReg r v).num .chunkCount) s.bufSize s.desc
        rw [sameNum .chunkCount (by decide)]; exact h.chainsUpTo }

theorem setReg_nextOff {v : Word} (hv : v.toNat ≤ s.bufSize) : (s.setReg .nextOff v).Inv := { h with nextOff := hv }

theorem setReg_failIndex {v : Word} (hv : v.toNat ≤ s.descCap ∨ v = noneWord) : (s.setReg .failIndex v).Inv :=
  { h with failIndex := hv }

theorem setReg_failOff {v : Word} (hv : v.toNat ≤ s.bufSize ∨ v = noneWord) : (s.setReg .failOff v).Inv :=
  { h with failOff := hv }

theorem setReg_findIndex {v : Word} (hv : v.toNat < s.descCap ∨ v = noneWord) : (s.setReg .findIndex v).Inv :=
  { h with findIndex := hv }

theorem setReg_chunkCount {v : Word} (hv : v.toNat ≤ s.descCap) (hchain : ChainsUpTo v.toNat s.bufSize s.desc) :
    (s.setReg .chunkCount v).Inv := { h with chunkCount := hv, chain := hchain }

theorem writeBuf {off : Nat} {bs : List Byte} (hfits : off + bs.length ≤ s.bufSize) : (s.writeBuf off bs).Inv :=
  { h with buf := memWrite_wf s.bufSize s.buf off bs h.buf hfits }

/-- Between parses no descriptor is in use, and any of them may be written. -/
theorem writeDesc {k : Nat} {e : Desc} (hk : k < s.descCap) (hcount : s.num .chunkCount = 0) :
    (s.writeDesc k e).Inv :=
  { h with
    desc := setDesc_wf s.descCap s.desc k e hk h.desc
    chain := fun i hi => by
      have hi' : i < s.num .chunkCount := hi
      omega }

theorem setStatus {t : Status} (ht : t.Ok) : (s.setStatus t).Inv := { h with status := ht }

theorem withCfg (c : Cfg) : State.Inv { s with cfg := c } := { h with }

theorem withHostProg (ops : List HostOp) : State.Inv { s with hostProg := ops } := { h with }

theorem withTurns (turns : List Turn) : State.Inv { s with turns := turns } := { h with }

theorem withReadData (v : Word) : State.Inv { s with readData := v } := { h with }

end State.Inv
/-! ### STATUS -/

theorem Status.atReset_ok : Status.atReset.Ok := ⟨nofun, by decide, by decide⟩

section
variable {t : Status}

/-- An error that a command raises leaves a consistent STATUS (R141). -/
theorem Status.completed_ok {e : Option ErrorKind} (he : ∀ k, e = some k → errorCode k ∈ raisedCodes) :
    (t.completed e).Ok where
  busyClears h := by rw [completed_busy] at h; cases h
  errIffCode := completed_err_iff t e
  codeRaised := by
    cases e with
    | none => rw [completed_errCode_none]; decide
    | some k => exact he k rfl

theorem Status.issued_ok : t.issued.Ok where
  busyClears _ := ⟨rfl, rfl⟩
  errIffCode := by simp [Status.issued]
  codeRaised := by simp [Status.issued]

variable (h : t.Ok)
include h

theorem Status.Ok.withHaz (b : Bool) : Status.Ok { t with haz := b } := { h with }

theorem Status.Ok.withBusErr (b : Bool) : Status.Ok { t with busErr := b } := { h with }

/-- ERR and ERRCODE are cleared together (R34). -/
theorem Status.Ok.writeClear (w : Word) : (t.writeClear w).Ok where
  busyClears hbusy := by
    obtain ⟨hdone, herr⟩ := h.busyClears hbusy
    simp [Status.writeClear, hdone, herr]
  errIffCode := by
    rw [writeClear_eq_ite]
    cases w.getLsbD 2 with
    | true => simp
    | false => exact h.errIffCode
  codeRaised := by
    rw [writeClear_eq_ite]
    cases w.getLsbD 2 with
    | true => simp
    | false => exact h.codeRaised

end

/-! ### The commands -/

/-- The state that an answer gives, if it gives one, meets the invariant. -/
def KeepsInv (a : Answer) : Prop := ∀ t, a = .next t → t.Inv

theorem complete_keepsInv {u : State} (h : u.Inv) : KeepsInv (complete u) := by
  intro t ht
  cases ht
  exact h.setStatus (Status.completed_ok nofun)

theorem raise_keepsInv {u : State} {e : ErrorKind} (h : u.Inv) (he : errorCode e ∈ raisedCodes) :
    KeepsInv (raise e u) := by
  intro t ht
  cases ht
  exact h.setStatus (Status.completed_ok fun k hk => Option.some.inj hk ▸ he)

theorem parseErrors_raised : ∀ e ∈ parseErrors, errorCode e ∈ raisedCodes := by decide

/-- NEXT_OFF after a chunk of the buffer is an offset of the buffer (R233). -/
theorem State.Inv.writeChunkRegs {s : State} (h : s.Inv) {base : Nat} {i : ChunkInfo}
    (hsize : base + 12 + i.len.toNat ≤ s.bufSize) : (writeChunkRegs base i s).Inv := by
  refine State.Inv.setReg_nextOff ((((h.setReg_other ?_ _).setReg_other ?_ _).setReg_other ?_ _).setReg_other ?_ _) ?_
  case refine_5 => rwa [toWord_toNat_of_le_bufSize hsize]
  all_goals decide

section
variable {s : State} (h : s.Inv)
include h

theorem execCrcUpdate_keepsInv : KeepsInv (execCrcUpdate s) := by
  unfold execCrcUpdate; split
  · exact complete_keepsInv (h.setReg_other (by decide) _)
  · exact raise_keepsInv h (by decide)

theorem execCrcBlock_keepsInv : KeepsInv (execCrcBlock s) := by
  unfold execCrcBlock; split
  · exact complete_keepsInv (h.setReg_other (by decide) _)
  · exact raise_keepsInv h (by decide)

theorem execCrcChunk_keepsInv : KeepsInv (execCrcChunk s) := by
  unfold execCrcChunk; split
  · exact complete_keepsInv (h.setReg_other (by decide) _)
  · exact raise_keepsInv h (by decide)

theorem execTypeFromText_keepsInv : KeepsInv (execTypeFromText s) := by
  unfold execTypeFromText; split
  · split
    · split
      · exact complete_keepsInv (h.setReg_other (by decide) _)
      · exact raise_keepsInv h (by decide)
    · exact raise_keepsInv h (by decide)
  · exact raise_keepsInv h (by decide)

theorem execChunkEmit_keepsInv : KeepsInv (execChunkEmit s) := by
  unfold execChunkEmit; split
  · exact raise_keepsInv h (by decide)
  · split
    · split
      · next hdst =>
        rw [dstFits_iff] at hdst
        have hwrite : (s.writeBuf (s.num .dst) (chunkBytes (s.reg .type) s.window)).Inv :=
          h.writeBuf (by rw [chunkBytes_length, window_length]; omega)
        refine complete_keepsInv ((hwrite.setReg_other (by decide) _).setReg_nextOff ?_)
        rwa [toWord_toNat_of_le_bufSize hdst]
      · exact raise_keepsInv h (by decide)
    · exact raise_keepsInv h (by decide)

theorem execChunkParse_keepsInv : KeepsInv (execChunkParse s) := by
  unfold execChunkParse; split
  · next hsrc =>
    rw [srcFits_iff] at hsrc
    cases hparse : parseChunk s (s.num .src) (s.num .len) with
    | ok i =>
      have hwhole := (parseChunk_ok hparse).1
      exact complete_keepsInv (h.writeChunkRegs (by omega))
    | err e info =>
      have he := parseErrors_raised e (parseChunk_errors hparse)
      cases info with
      | some i =>
        obtain ⟨-, hwhole, -⟩ := parseChunk_err_some hparse
        exact raise_keepsInv (h.writeChunkRegs (by omega)) he
      | none => exact raise_keepsInv h he
  · exact raise_keepsInv h (by decide)

theorem execSigEmit_keepsInv : KeepsInv (execSigEmit s) := by
  unfold execSigEmit; split
  · next hdst =>
    rw [fits_iff] at hdst
    refine complete_keepsInv ((h.writeBuf hdst).setReg_nextOff ?_)
    rwa [toWord_toNat_of_le_bufSize hdst]
  · exact raise_keepsInv h (by decide)

theorem execFindType_keepsInv : KeepsInv (execFindType s) := by
  unfold execFindType; split
  · next i hfind =>
    obtain ⟨-, hi, -⟩ := findFrom_some hfind
    have hcount := h.chunkCount
    refine complete_keepsInv (h.setReg_findIndex (.inl ?_))
    rw [toWord_toNat_of_lt_num (s := s) (r := .chunkCount) (by omega)]
    omega
  · exact complete_keepsInv (h.setReg_findIndex (.inr rfl))

end

/-! ### The walk of STREAM_PARSE -/

theorem endOff_take_succ (off : Nat) (is : List ChunkInfo) (j : Nat) (hj : j < is.length) :
    endOff off (is.take (j + 1)) = endOff off (is.take j) + 12 + is[j].len.toNat := by
  rw [← List.take_append_getElem hj, endOff_append]
  rfl

theorem endOff_take_le (off : Nat) (is : List ChunkInfo) (j : Nat) : endOff off (is.take j) ≤ endOff off is := by
  calc endOff off (is.take j)
    _ ≤ endOff (endOff off (is.take j)) (is.drop j) := by have := le_endOff (endOff off (is.take j)) (is.drop j); omega
    _ = endOff off is := by rw [← endOff_append, List.take_append_drop]

/-- Descriptor `j` of a recorded walk holds the cursor of its chunk, and leads to the next one (R275, R277). -/
theorem recordAll_desc_cursor {cap off : Nat} {is : List ChunkInfo} {s : State} (hwf : s.desc.wf cap = true)
    (hroom : is.length ≤ cap) (hword : endOff off is < 2 ^ 32) {j : Nat} (hj : j < is.length) :
    (descAt (recordAll 0 off is s).desc j).off.toNat = endOff off (is.take j) ∧
    (descAt (recordAll 0 off is s).desc j).off.toNat + 12 + (descAt (recordAll 0 off is s).desc j).len.toNat =
      endOff off (is.take (j + 1)) := by
  have hdesc := recordAll_desc_inside cap 0 off is s hwf (by omega) j hj
  have hoff : (toWord (endOff off (is.take j))).toNat = endOff off (is.take j) :=
    toWord_toNat (Nat.lt_of_le_of_lt (endOff_take_le off is j) hword)
  rw [Nat.zero_add] at hdesc
  rw [hdesc, endOff_take_succ off is j hj, hoff]
  exact ⟨rfl, rfl⟩

theorem recordAll_chainsUpTo {cap size off : Nat} {is : List ChunkInfo} {s : State} (hwf : s.desc.wf cap = true)
    (hroom : is.length ≤ cap) (hsize : endOff off is ≤ size) (hword : size < 2 ^ 32) :
    ChainsUpTo is.length size (recordAll 0 off is s).desc := by
  intro j hj
  obtain ⟨-, hend⟩ := recordAll_desc_cursor (off := off) (s := s) hwf hroom (by omega) hj
  refine ⟨?_, fun hj' => ?_⟩
  · have := endOff_take_le off is (j + 1)
    omega
  · obtain ⟨hnext, -⟩ := recordAll_desc_cursor (off := off) (s := s) hwf hroom (by omega) hj'
    rw [hnext, hend]

/-- While a walk records its chunks, no descriptor is in use. -/
theorem State.Inv.recordAll {s : State} (h : s.Inv) (hcount : s.num .chunkCount = 0) {k off : Nat}
    {is : List ChunkInfo} (hroom : k + is.length ≤ s.descCap) (hsize : endOff off is ≤ s.bufSize) :
    (recordAll k off is s).Inv := by
  induction is generalizing k off s with
  | nil => exact h
  | cons i is ih =>
    rw [List.length_cons] at hroom
    rw [endOff] at hsize
    have hnext : off + 12 + i.len.toNat ≤ s.bufSize := by
      have := le_endOff (off + 12 + i.len.toNat) is
      omega
    have hkeeps : (recordChunk k off i s).Inv :=
      (h.writeChunkRegs hnext).writeDesc (by rw [writeChunkRegs_descCap]; omega) hcount
    exact ih hkeeps hcount (by rw [recordChunk_descCap]; omega) hsize

/-- The count can be cleared before the walk as well as after it. -/
theorem recordAll_setReg_chunkCount (k off : Nat) (is : List ChunkInfo) (v : Word) (s : State) :
    recordAll k off is (s.setReg .chunkCount v) = (recordAll k off is s).setReg .chunkCount v := by
  induction is generalizing k off s with
  | nil => rfl
  | cons i is ih => exact ih _ _ (recordChunk k off i s)

theorem streamFail_keepsInv {s : State} (h : (s.setReg .chunkCount 0#32).Inv) {e : ErrorKind}
    (he : errorCode e ∈ raisedCodes) {k off : Nat} (hk : k ≤ s.descCap) (hoff : off ≤ s.bufSize) :
    KeepsInv (streamFail e k off s) := by
  refine raise_keepsInv ((h.setReg_failIndex (.inl ?_)).setReg_failOff (.inl ?_)) he
  · rwa [toWord_toNat (Nat.lt_of_le_of_lt hk s.params.descCap.isLt)]
  · rwa [toWord_toNat_of_le_bufSize hoff]

theorem streamDone_keepsInv {s : State} {k stop : Nat} (h : (s.setReg .chunkCount (toWord k)).Inv)
    (hstop : stop ≤ s.bufSize) : KeepsInv (streamDone k stop s) := by
  refine complete_keepsInv (((h.setReg_failIndex (.inr rfl)).setReg_failOff (.inr rfl)).setReg_nextOff ?_)
  rwa [toWord_toNat_of_le_bufSize hstop]

theorem State.Inv.clearCount {s : State} (h : s.Inv) : (s.setReg .chunkCount 0#32).Inv :=
  h.setReg_chunkCount (Nat.zero_le _) fun _ hi => absurd hi (Nat.not_lt_zero _)

theorem streamWalk_keepsInv {s : State} (h : s.Inv) {off stop : Nat} (hoff : off ≤ stop) (hstop : stop ≤ s.bufSize) :
    KeepsInv (streamWalk stop s.descCap 0 off s) := by
  obtain ⟨is, hpasses, hroom, hend⟩ := streamWalk_cases stop s.descCap 0 off s hoff
  have hword : stop < 2 ^ 32 := Nat.lt_of_le_of_lt hstop s.params.bufSize.isLt
  have hlast : endOff off is ≤ stop := hpasses.endOff_le hoff
  have frame := recordAll_frame 0 off is s
  have hsize : (recordAll 0 off is s).bufSize = s.bufSize := congrArg (·.bufSize.toNat) frame.params
  have hcap : (recordAll 0 off is s).descCap = s.descCap := congrArg (·.descCap.toNat) frame.params
  have hclear : ((recordAll 0 off is s).setReg .chunkCount 0#32).Inv := by
    rw [← recordAll_setReg_chunkCount]
    exact h.clearCount.recordAll rfl (by rw [setReg_descCap]; omega) (by rw [setReg_bufSize]; omega)
  generalize streamWalk stop s.descCap 0 off s = answer at hend
  cases hend with
  | done hdone =>
    have hcount : (toWord (0 + is.length)).toNat = is.length := by
      rw [Nat.zero_add, toWord_toNat (Nat.lt_of_le_of_lt hroom s.params.descCap.isLt)]
    refine streamDone_keepsInv (hclear.setReg_chunkCount ?_ ?_) (by omega)
    · rw [hcount, setReg_descCap]; omega
    · rw [hcount, setReg_bufSize, hsize]
      exact recordAll_chainsUpTo h.desc hroom (by omega) s.params.bufSize.isLt
  | full hbelow hfull => exact streamFail_keepsInv hclear (by decide) (by omega) (by omega)
  | bad hbelow hfree i hparse =>
    obtain ⟨-, hwhole, -⟩ := parseChunk_err_some hparse
    have hregs := hclear.writeChunkRegs (base := endOff off is) (i := i) (by rw [setReg_bufSize]; omega)
    exact streamFail_keepsInv (s := writeChunkRegs _ i (recordAll 0 off is s)) hregs (by decide)
      (by rw [writeChunkRegs_descCap]; omega) (by rw [writeChunkRegs_bufSize]; omega)
  | unreadable hbelow hfree e hparse =>
    exact streamFail_keepsInv hclear (parseErrors_raised e (parseChunk_errors hparse)) (by omega) (by omega)

theorem execStreamParse_keepsInv {s : State} (h : s.Inv) : KeepsInv (execStreamParse s) := by
  unfold execStreamParse; split
  · next hsrc =>
    rw [srcFits_iff] at hsrc
    split
    · exact streamFail_keepsInv h.clearCount (by decide) (Nat.zero_le _) (by omega)
    · next hsig =>
      rw [not_or] at hsig
      exact streamWalk_keepsInv h (by omega) hsrc
  · exact raise_keepsInv h (by decide)

theorem exec_keepsInv (i : Instr) {s : State} (h : s.Inv) : KeepsInv (exec i s) := by
  cases i with
  | nop => exact complete_keepsInv h
  | crcInit => exact complete_keepsInv (h.setReg_other (by decide) _)
  | crcUpdate => exact execCrcUpdate_keepsInv h
  | crcFinal => exact complete_keepsInv (h.setReg_other (by decide) _)
  | crcBlock => exact execCrcBlock_keepsInv h
  | crcChunk => exact execCrcChunk_keepsInv h
  | typeFromText => exact execTypeFromText_keepsInv h
  | chunkEmit => exact execChunkEmit_keepsInv h
  | chunkParse => exact execChunkParse_keepsInv h
  | sigEmit => exact execSigEmit_keepsInv h
  | streamParse => exact execStreamParse_keepsInv h
  | findType => exact execFindType_keepsInv h

/-! ### The turns -/

theorem runPending_keepsInv {s : State} (h : s.Inv) : KeepsInv (runPending s) := by
  intro t ht
  obtain ⟨i, -, hexec⟩ | rfl := runPending_cases ht
  · exact exec_keepsInv i h t hexec
  · exact raise_keepsInv (e := .illegalCmd) h (by decide) _ rfl

theorem State.Inv.accessCase {s t : State} (h : s.Inv) {a : Access} (hcase : AccessCase s a t) : t.Inv := by
  induction hcase with
  | nothing => exact h
  | busErr => exact h.setStatus (h.status.withBusErr true)
  | read x w v t _ _ ih => exact ih.withReadData v
  | writeClear w => exact h.setStatus (h.status.writeClear w)
  | haz => exact h.setStatus (h.status.withHaz true)
  | issue w => exact (h.setReg_other (by decide) w).setStatus Status.issued_ok
  | config w => exact h.withCfg _
  | store x w q _ hq =>
    have other : ∀ r ∈ argRegs, r ∉ resultRegs := by decide
    exact h.setReg_other (other q hq) w
  | buffer x w v o _ hfits => exact h.writeBuf (by rw [laneBytes_length]; exact hfits)

theorem State.Inv.hostTurn {s : State} (h : s.Inv) (lanes : Word) : (hostTurn lanes s).Inv := by
  have hcase := hostTurn_cases lanes s
  generalize Machine.hostTurn lanes s = t at hcase
  cases hcase with
  | idle => exact h
  | access a ops => exact (h.withHostProg ops).accessCase (access_cases _ lanes a)
  | poll ops _ l => exact (h.withHostProg l).withReadData _

/-- No command is pending after a reset, and the registers name nothing (R372): only the sizes and the memories
matter. -/
theorem resetEvent_inv {s : State} (hparams : s.params.wellFormed = true) (hbuf : s.buf.wf s.bufSize = true)
    (hdesc : s.desc.wf s.descCap = true) : s.resetEvent.Inv where
  params := hparams
  buf := hbuf
  desc := hdesc
  status := Status.atReset_ok
  nextOff := Nat.zero_le _
  chunkCount := Nat.zero_le _
  failIndex := .inr rfl
  failOff := .inr rfl
  findIndex := .inr rfl
  chain := fun i hi => absurd hi (Nat.not_lt_zero i)

/-- Settles O12: each kind of turn keeps the invariant, the engine's because every command does. -/
theorem stepKeepsTheInvariant : Obligations.StepKeepsTheInvariant := by
  intro s t h hstep
  cases step_cases hstep with
  | reset rest => exact resetEvent_inv h.params h.buf h.desc
  | engine rest _ _ _ hrun => exact runPending_keepsInv (h.withTurns rest) t hrun
  | idle rest => exact h.withTurns rest
  | host lanes rest => exact (h.withTurns rest).hostTurn lanes

end Sys2Proof.Machine
end

section
/-!
PROOFS. The reset input and power-on (70_reset_and_hazards.md R370 to R373).
-/
namespace Sys2Proof.Machine
open Sys2Proof.Claims

/-- TYPE is 0 after a reset, so TYPE_FLAGS shows the three predicates that a clear bit 5 satisfies (R372, R176). -/
theorem resetEvent_registersReset (s : State) : RegistersReset s.resetEvent :=
  { id := rfl, cmd := rfl
    status := (by decide : Status.atReset.toWord = 0x00000000#32)
    cfg := (by decide : Cfg.atReset.toWord = 0x00000000#32)
    typeFlags := (by decide : typeFlags 0x00000000#32 = 0x0000000E#32)
    src := rfl, len := rfl, dst := rfl, type := rfl, crcAcc := rfl, crcResult := rfl, chunkLen := rfl
    chunkType := rfl, chunkCrc := rfl, calcCrc := rfl, nextOff := rfl, chunkCount := rfl, failIndex := rfl
    failOff := rfl, findIndex := rfl, bufSize := rfl, descCap := rfl }

theorem resetEvent_irq (s : State) : s.resetEvent.irq = false := rfl

theorem resetEvent_reset : State.reset.resetEvent = State.reset := rfl

theorem step_reset {s : State} {rest : List Turn} (h : s.turns = .reset :: rest) :
    step s = .next { s with turns := rest }.resetEvent := by
  simp only [step, nextStep, h]

/-! ### The obligations -/

/-- Settles O8: the registers after a reset do not depend on the state before, and `State.reset` is its own reset. -/
theorem resetRegisterValues : Obligations.ResetRegisterValues :=
  ⟨fun s => ⟨resetEvent_registersReset s, resetEvent_irq s⟩, resetEvent_reset ▸ resetEvent_registersReset State.reset,
    resetEvent_irq State.reset⟩

/-- Settles O9: the step is the reset event of the state whose turn is used up. -/
theorem resetTurnResetsRegistersOnly : Obligations.ResetTurnResetsRegistersOnly := fun _ _ hturn =>
  ⟨_, step_reset hturn, resetEvent_registersReset _, rfl, resetEvent_irq _, rfl, rfl, rfl, rfl, rfl, rfl⟩

/-- Settles O10: the two memories are the tables of the draws, and the rest is a reset. -/
theorem powerOnHoldsTheDraws : Obligations.PowerOnHoldsTheDraws := by
  intro p initBuf initDesc
  refine ⟨fun a ha => ?bytes, fun i hi => ?descs, resetEvent_registersReset _, rfl, resetEvent_irq _, rfl,
    fun hp => ?inv⟩
  case bytes => exact tableGet_ofFn unwrittenByte initBuf 0 _ a (Nat.zero_le a) (by omega)
  case descs => exact tableGet_ofFn unwrittenDesc initDesc 0 _ i (Nat.zero_le i) (by omega)
  case inv =>
    exact resetEvent_inv hp (tableOfFn_wf unwrittenByte initBuf _ 0 0 _ le_rfl (Nat.zero_add _).le)
      (tableOfFn_wf unwrittenDesc initDesc _ 0 0 _ le_rfl (Nat.zero_add _).le)

/-- Settles O11: the suggested sizes meet R6, and nothing is listed in the memories. -/
theorem resetStateMeetsInvariant : Obligations.ResetStateMeetsInvariant := by
  have hreset := resetEvent_inv (s := State.reset) (by decide) rfl rfl
  rwa [resetEvent_reset] at hreset

end Sys2Proof.Machine
end

section
/-!
PROOFS. The words of STATUS and CFG (10_state.md R33, R35), the interrupt line (R56), and the host accesses that are
well-formed (20_memory.md R91 to R96).
-/
namespace Sys2Proof.Machine
open Sys2Proof.Claims

/-! ### The words of STATUS and CFG -/

/-- Each field of STATUS stands at its own bits of the word (R33). -/
theorem statusToWord_getLsbD (t : Status) (i : Nat) :
    t.toWord.getLsbD i =
      ((t.busy && decide (i = 0)) || (t.done && decide (i = 1)) || (t.err && decide (i = 2)) ||
        (t.haz && decide (i = 3)) || (t.busErr && decide (i = 4)) ||
        (decide (i < 32) && !decide (i < 8) && t.errCode.getLsbD (i - 8))) := by
  have hcode : (t.errCode.setWidth 32).getLsbD (i - 8) = t.errCode.getLsbD (i - 8) := by
    rw [BitVec.getLsbD_setWidth]
    by_cases hi : i - 8 < 32
    · rw [decide_eq_true hi, Bool.true_and]
    · rw [decide_eq_false hi, Bool.false_and, BitVec.getLsbD_of_ge _ _ (by omega)]
  simp only [Status.toWord, BitVec.getLsbD_or, bitAt_getLsbD, Nat.reduceLT, BitVec.getLsbD_shiftLeft, hcode]

theorem statusToWord_busy (t : Status) : t.toWord.getLsbD 0 = t.busy := by
  rw [statusToWord_getLsbD]; simp

theorem statusToWord_done (t : Status) : t.toWord.getLsbD 1 = t.done := by
  rw [statusToWord_getLsbD]; simp

theorem cfgToWord_getLsbD (c : Cfg) (i : Nat) :
    c.toWord.getLsbD i = ((c.strictLen && decide (i = 0)) || (c.irqEn && decide (i = 1))) := by
  simp only [Cfg.toWord, BitVec.getLsbD_or, bitAt_getLsbD, Nat.reduceLT]

/-- Settles O15: the first five fields stand alone at bits 0 to 4, and ERRCODE is shifted to bits 8 to 11. -/
theorem statusWordLayout : Obligations.StatusWordLayout := by
  intro s i hi
  rw [State.readReg, statusToWord_getLsbD]
  rcases Nat.lt_or_ge i 5 with hlow | hhigh
  · interval_cases i <;> simp
  · have hflag : ∀ k, k < 5 → i ≠ k := by omega
    by_cases hcode : 8 ≤ i ∧ i ≤ 11
    · simp [hflag, hcode, hi]
    · have hzero : i < 8 ∨ s.status.errCode.getLsbD (i - 8) = false := by
        rcases Nat.lt_or_ge i 8 with h8 | h8
        · exact .inl h8
        · exact .inr (BitVec.getLsbD_of_ge _ _ (by omega))
      rcases hzero with h8 | h8 <;> simp [hflag, hcode, h8]

/-! ### Registers -/

theorem access_read_reg {addr : Word} {r : Reg} (h : regAt addr.toNat = some r) (s : State) (lanes : Word) :
    s.access lanes (.read addr .w4) = { s with readData := s.readReg r } := by
  have htarget : target s.params addr .w4 = .reg r := target_of_reg h
  simp [State.access, State.readAccess, State.readValue, htarget]

/-- Every row of the register map is where its offset leads (R30). -/
theorem regAt_of_mem_registerMap {o : Nat} {r : Reg} (h : (o, r) ∈ registerMap) :
    regAt (BitVec.ofNat 32 o).toNat = some r := by
  have rows : ∀ row ∈ registerMap, regAt (BitVec.ofNat 32 row.1).toNat = some row.2 := by decide
  exact rows (o, r) h

/-- Settles O19: the list is the register map with each register's value. -/
theorem registerReadsReturnCurrentValues : Obligations.RegisterReadsReturnCurrentValues := by
  intro s lanes o v h
  have hrow : (o, v) ∈ registerMap.map (fun row => (BitVec.ofNat 32 row.1, s.readReg row.2)) := h
  obtain ⟨⟨o, r⟩, hmem, heq⟩ := List.mem_map.mp hrow
  cases heq
  exact access_read_reg (regAt_of_mem_registerMap hmem) s lanes

theorem access_write_cfg (s : State) (lanes w : Word) :
    s.access lanes (.write 0x0000000C#32 .w4 w) = s.unlessBusy { s with cfg := Cfg.ofWord w } := by
  have hreg : regAt (0x0000000C#32 : Word).toNat = some .cfg := by decide
  exact access_write_reg hreg s lanes w

theorem cfgOfWord_toWord (w : Word) : (Cfg.ofWord w).toWord = w &&& 0x00000003#32 := by
  have hmask : ∀ i, (0x00000003#32 : Word).getLsbD i = (decide (i = 0) || decide (i = 1)) := by
    intro i
    have hbits : (0x00000003#32 : Word) = bitAt 0 true ||| bitAt 1 true := by decide
    simp only [hbits, BitVec.getLsbD_or, bitAt_getLsbD, Nat.reduceLT, Bool.true_and]
  apply BitVec.eq_of_getLsbD_eq
  intro i _
  rw [cfgToWord_getLsbD, BitVec.getLsbD_and, hmask, Bool.and_or_distrib_left, Cfg.ofWord]
  congr 1
  · by_cases h : i = 0 <;> simp [h]
  · by_cases h : i = 1 <;> simp [h]

/-- Settles O17: the write keeps the two fields of CFG and nothing else of the word. -/
theorem cfgKeepsTwoBits : Obligations.CfgKeepsTwoBits := by
  intro s lanes w hidle
  rw [access_write_cfg, unlessBusy_of_idle hidle]
  exact ⟨cfgOfWord_toWord w, rfl, rfl, rfl⟩

theorem setReg_onlyRegs (s : State) (r : StoreReg) (v : Word) : OnlyRegs [r] s (s.setReg r v) :=
  setReg_setStatus_onlyRegs s r v s.status

/-- Settles O18: each of the five offsets holds a register that stores the word written. -/
theorem argumentWritesStore : Obligations.ArgumentWritesStore := by
  intro s lanes w o r hidle h
  have hstore : regAt o.toNat = some (.store r) ∧ writeRule (.store r) = .store r := by
    have rows : ∀ row ∈ [(0x00000010#32, StoreReg.src), (0x00000014#32, .len), (0x00000018#32, .dst),
        (0x0000001C#32, .type), (0x00000024#32, .crcAcc)],
        regAt row.1.toNat = some (.store row.2) ∧ writeRule (.store row.2) = .store row.2 := by decide
    exact rows (o, r) h
  obtain ⟨hreg, hrule⟩ := hstore
  have hwrite : s.access lanes (.write o .w4 w) = s.setReg r w := by
    rw [access_write_reg hreg, State.writeReg, hrule]
    exact unlessBusy_of_idle hidle _
  rw [hwrite]
  exact ⟨by rw [setReg_reg, if_pos rfl], setReg_onlyRegs s r w, rfl⟩

/-! ### The interrupt line -/

/-- Settles O28: IRQ is a function of DONE and IRQ_EN, and each event writes DONE. -/
theorem irqFollowsDone : Obligations.IrqFollowsDone := by
  refine ⟨fun s => ?level, fun s lanes w hw => ?cleared, fun s lanes w hidle => ?issued, fun i s t h => ?completed⟩
  case level =>
    have hirqEn : s.cfg.toWord.getLsbD 1 = s.cfg.irqEn := by rw [cfgToWord_getLsbD]; simp
    rw [State.readReg, State.readReg, statusToWord_done, hirqEn, State.irq]
  case cleared =>
    rw [access_write_status, writeClear_eq_ite, State.irq, setStatus_status, hw]
    rfl
  case issued =>
    rw [access_write_cmd, unlessBusy_of_idle hidle]
    rfl
  case completed =>
    obtain ⟨u, e, rfl, frame, -⟩ := exec_ends h
    rw [State.irq, finish_status, completed_done, finish_cfg, frame.cfg, Bool.true_and]

/-! ### The buffer window -/

theorem laneBytes_getElem (v : Word) (n i : Nat) (hi : i < (laneBytes v n).length) :
    (laneBytes v n)[i] = (v >>> (8 * (n - 1 - i))).setWidth 8 := by
  induction n generalizing i with
  | zero => exact absurd hi (Nat.not_lt_zero i)
  | succ n ih =>
    cases i with
    | zero => rfl
    | succ i =>
      simp only [laneBytes, List.getElem_cons_succ]
      rw [ih i (by simpa [laneBytes] using hi), show n + 1 - 1 - (i + 1) = n - 1 - i by omega]

theorem access_read_buf {s : State} {addr : Word} {w : Width} (h : bufAccessOk s.params addr w = true)
    (lanes : Word) :
    s.access lanes (.read addr w) =
      { s with
        readData :=
          if s.status.busy then lanes else be32 (memRead s.buf (addr.toNat - 0x80000000) w.bytes) } := by
  simp [State.access, State.readAccess, State.readValue, target_of_buf h]

/-- The bytes of an access lie in the buffer (R87). -/
theorem bufAccessOk_fits {s : State} {addr : Word} {w : Width} (h : bufAccessOk s.params addr w = true) :
    addr.toNat - 0x80000000 + w.bytes ≤ s.bufSize := by
  simp only [bufAccessOk, Bool.and_eq_true, decide_eq_true_eq] at h
  obtain ⟨⟨hlow, hhigh⟩, -⟩ := h
  rw [State.bufSize]
  omega

/-- Settles O24: the write is that of the lanes of the data, the most significant first. -/
theorem bufferWriteIsBigEndian : Obligations.BufferWriteIsBigEndian := by
  intro s lanes addr v w _ hwf hidle haccess
  rw [access_write_buf haccess, unlessBusy_of_idle hidle, writeBuf_buf]
  refine ⟨fun i hi => ?bytes, fun a ha => ?outside, rfl⟩
  case bytes =>
    have hlen : i < (laneBytes v w.bytes).length := by rwa [laneBytes_length]
    have hfits : addr.toNat - 0x80000000 + (laneBytes v w.bytes).length ≤ s.bufSize := by
      rw [laneBytes_length]; exact bufAccessOk_fits haccess
    rw [byteAt_memWrite_inside s.bufSize s.buf _ _ hwf hfits i hlen, laneBytes_getElem, BitVec.toNat_setWidth,
      BitVec.toNat_ushiftRight]
  case outside =>
    rw [writeBuf_buf]
    exact byteAt_memWrite_outside _ _ _ a (by rwa [laneBytes_length])

/-- The number that a byte sequence spells, as the sum of R85. -/
theorem beNat_eq_sum (f : Nat → Byte) (n : Nat) :
    beNat ((List.range n).map f) = ((List.range n).map (fun i => (f i).toNat * 2 ^ (8 * (n - 1 - i)))).sum := by
  induction n generalizing f with
  | zero => rfl
  | succ n ih =>
    have hplace : (2 : Nat) ^ (8 * n) = 256 ^ n := by rw [pow_mul]; norm_num
    have hshift : ∀ i, n + 1 - 1 - (i + 1) = n - 1 - i := by omega
    rw [List.range_succ_eq_map]
    simp only [List.map_cons, List.map_map, beNat_cons, List.length_map, List.length_range, List.sum_cons,
      Nat.add_sub_cancel, Nat.sub_zero, hplace]
    rw [ih]
    simp only [Function.comp_def, Nat.succ_eq_add_one, ← hshift]
    rfl

theorem width_bytes_le (w : Width) : w.bytes ≤ 4 := by cases w <;> decide

/-- Settles O25: the value is the number that the bytes of the access spell big-endian. -/
theorem bufferReadIsBigEndian : Obligations.BufferReadIsBigEndian := by
  intro s lanes addr w _ hidle haccess
  refine ⟨_, access_read_buf haccess lanes, ?_⟩
  have hlt : beNat (memRead s.buf (addr.toNat - 0x80000000) w.bytes) < 2 ^ 32 :=
    calc beNat (memRead s.buf (addr.toNat - 0x80000000) w.bytes)
      _ < 256 ^ w.bytes := by simpa using beNat_lt (memRead s.buf (addr.toNat - 0x80000000) w.bytes)
      _ ≤ 256 ^ 4 := Nat.pow_le_pow_right (by decide) (width_bytes_le w)
      _ = 2 ^ 32 := by decide
  rw [if_neg (by simp [hidle]), be32, BitVec.toNat_ofNat, Nat.mod_eq_of_lt hlt, memRead_eq_map, beNat_eq_sum]

/-! ### The descriptor window -/

theorem access_read_desc {s : State} {addr : Word} {w : Width} (hp : s.params.wellFormed = true)
    (h : descAccessOk s.params addr w = true) (lanes : Word) :
    s.access lanes (.read addr w) =
      { s with
        readData :=
          if s.status.busy then lanes
          else (descAt s.desc ((addr.toNat - 0x00100000) / 16)).word ((addr.toNat - 0x00100000) / 4 % 4) } := by
  simp [State.access, State.readAccess, State.readValue, target_of_desc hp h]

/-- A read at the address that R82 gives word `j` of entry `i`. -/
theorem access_read_desc_word {s : State} (hp : s.params.wellFormed = true) (hidle : s.status.busy = false)
    {i j : Nat} (hi : i < s.descCap) (hj : j < 4) (lanes : Word) :
    s.access lanes (.read (BitVec.ofNat 32 (0x00100000 + 16 * i + 4 * j)) .w4) =
      { s with readData := (descAt s.desc i).word j } := by
  have hcap : s.descCap ≤ 65536 := by
    simp only [Params.wellFormed, Bool.and_eq_true, decide_eq_true_eq] at hp
    exact hp.2.2
  have haddr : (BitVec.ofNat 32 (0x00100000 + 16 * i + 4 * j)).toNat = 0x00100000 + 16 * i + 4 * j := by
    rw [BitVec.toNat_ofNat, Nat.mod_eq_of_lt (by omega)]
  have hi' : i < s.params.descCap.toNat := hi
  have haccess : descAccessOk s.params (BitVec.ofNat 32 (0x00100000 + 16 * i + 4 * j)) .w4 = true := by
    simp only [descAccessOk, haddr, Bool.and_eq_true, decide_eq_true_eq]
    exact ⟨⟨⟨by omega, by omega⟩, trivial⟩, by omega⟩
  have hentry : (0x00100000 + 16 * i + 4 * j - 0x00100000) / 16 = i := by omega
  have hword : (0x00100000 + 16 * i + 4 * j - 0x00100000) / 4 % 4 = j := by omega
  rw [access_read_desc hp haccess, haddr, hentry, hword, hidle, if_neg Bool.false_ne_true]

/-- Settles O26: the four words of an entry stand 4 bytes apart. -/
theorem descriptorReadsReturnTheEntry : Obligations.DescriptorReadsReturnTheEntry := by
  intro s lanes i hp hidle hi
  have word (j : Nat) (hj : j < 4) := access_read_desc_word hp hidle hi hj lanes
  exact ⟨word 0 (by decide), word 1 (by decide), word 2 (by decide), word 3 (by decide)⟩

/-- Settles O27: both windows answer the draw of the turn while a command is pending. -/
theorem busyMemoryReadsReturnAnyValue : Obligations.BusyMemoryReadsReturnAnyValue := by
  intro s addr w hp hbusy hplace draw
  rcases hplace with hbuf | hdesc
  · rw [access_read_buf hbuf, if_pos hbusy]
  · rw [access_read_desc hp hdesc, if_pos hbusy]

end Sys2Proof.Machine
end

section
/-!
PROOFS. The steps of the agents (20_memory.md R100, 30_encoding.md R140): what each turn runs, what a pending command
is protected from, and the rules that hold over every step.
-/
namespace Sys2Proof.Machine
open Sys2Proof.Claims

/-! ### What a turn runs -/

theorem hostTurn_access {s : State} {a : Access} {ops : List HostOp} (h : s.hostProg = .access a :: ops)
    (lanes : Word) : hostTurn lanes s = { s with hostProg := ops }.access lanes a := by
  simp only [hostTurn, h]

/-- Settles O3: the engine's turn runs the word in CMD. -/
theorem stepRunsPendingCommand : Obligations.StepRunsPendingCommand := by
  intro s rest i hturn hbusy hdecode
  rw [step_engine hturn hbusy]
  exact runPending_ok hdecode

/-- Settles O4: the host's turn takes the access off its program and performs it. -/
theorem stepPerformsHostAccess : Obligations.StepPerformsHostAccess := by
  intro s lanes rest a ops hturn hprog
  rw [step_host hturn, hostTurn_access (s := { s with turns := rest }) hprog]

/-- A `wait` reads STATUS and is over when bit 0 of the value is 0 (R151). -/
theorem hostTurn_wait {s : State} {ops : List HostOp} (h : s.hostProg = .wait :: ops) (lanes : Word) :
    hostTurn lanes s =
      { s with readData := s.status.toWord, hostProg := if s.status.busy then .wait :: ops else ops } := by
  have hbit : (pollStatus s).readData.getLsbD 0 = s.status.busy := statusToWord_busy s.status
  simp only [hostTurn, h, hbit]
  cases s.status.busy with
  | false => rfl
  | true => rw [if_pos rfl, if_pos rfl, pollStatus, ← h]

/-- Settles O5: the value read and the wait's end are read off the poll. -/
theorem waitPollsUntilIdle : Obligations.WaitPollsUntilIdle := by
  intro s lanes rest ops hturn hprog
  refine ⟨_, step_host hturn, ?_⟩
  rw [hostTurn_wait (s := { s with turns := rest }) hprog]
  exact ⟨rfl, rfl, rfl, rfl, rfl, rfl, rfl, rfl, rfl⟩

/-- Settles O6: a turn of the host or a reset is a function of the state, and every command answers. -/
theorem everyStepAnswersNext : Obligations.EveryStepAnswersNext := by
  intro s
  cases hturns : s.turns with
  | nil =>
    cases hbusy : s.status.busy with
    | true => rw [step_engine (.inr ⟨hturns, rfl⟩) hbusy]; exact runPending_answers _
    | false => exact ⟨_, step_host (lanes := 0#32) (.inr ⟨hturns, rfl, hbusy⟩)⟩
  | cons turn rest =>
    cases turn with
    | host lanes => exact ⟨_, step_host (.inl hturns)⟩
    | engine =>
      cases hbusy : s.status.busy with
      | true => rw [step_engine (.inl hturns) hbusy]; exact runPending_answers _
      | false => exact ⟨{ s with turns := rest }, by simp [step, nextStep, hturns, engineTurn, hbusy]⟩
    | reset => exact ⟨_, step_reset hturns⟩

/-! ### A pending command and the host -/

/-- The command pending in `s` is pending in `t`, with all that it runs on. -/
structure SamePending (s t : State) : Prop where
  regs : t.regs = s.regs
  cfg : t.cfg = s.cfg
  params : t.params = s.params
  buf : t.buf = s.buf
  desc : t.desc = s.desc
  busy : t.status.busy = true

namespace SamePending
variable {s t u : State}

theorem refl (h : s.status.busy = true) : SamePending s s := ⟨rfl, rfl, rfl, rfl, rfl, h⟩

theorem trans (h : SamePending s t) (k : SamePending t u) : SamePending s u :=
  ⟨k.regs.trans h.regs, k.cfg.trans h.cfg, k.params.trans h.params, k.buf.trans h.buf, k.desc.trans h.desc, k.busy⟩

end SamePending

theorem AccessCase.samePending {s t : State} {a : Access} (h : AccessCase s a t) (hbusy : s.status.busy = true) :
    SamePending s t := by
  have notIdle {p : Prop} (hidle : s.status.busy = false) : p := by rw [hbusy] at hidle; cases hidle
  induction h with
  | nothing => exact ⟨rfl, rfl, rfl, rfl, rfl, hbusy⟩
  | busErr => exact ⟨rfl, rfl, rfl, rfl, rfl, hbusy⟩
  | read x w v t _ _ ih => exact { ih with }
  | writeClear => exact ⟨rfl, rfl, rfl, rfl, rfl, hbusy⟩
  | haz => exact ⟨rfl, rfl, rfl, rfl, rfl, hbusy⟩
  | issue _ hidle => exact notIdle hidle
  | config _ hidle => exact notIdle hidle
  | store _ _ _ hidle => exact notIdle hidle
  | buffer _ _ _ _ hidle => exact notIdle hidle

theorem hostTurn_samePending {s : State} (hbusy : s.status.busy = true) (lanes : Word) :
    SamePending s (hostTurn lanes s) := by
  have hcase := hostTurn_cases lanes s
  generalize hostTurn lanes s = t at hcase ⊢
  cases hcase with
  | idle => exact ⟨rfl, rfl, rfl, rfl, rfl, hbusy⟩
  | access a ops =>
    exact { (access_cases { s with hostProg := ops } lanes a).samePending hbusy with }
  | poll => exact ⟨rfl, rfl, rfl, rfl, rfl, hbusy⟩

/-- Settles O23: whatever the host's operation, its turn leaves the pending command. -/
theorem pendingCommandIsProtected : Obligations.PendingCommandIsProtected := by
  intro s t lanes rest hbusy hturns hstep
  rw [step_host (.inl hturns)] at hstep
  cases hstep
  obtain ⟨hregs, hcfg, hparams, hbuf, hdesc, hbusy'⟩ :=
    hostTurn_samePending (s := { s with turns := rest }) hbusy lanes
  exact ⟨hregs, hcfg, hparams, hbuf, hdesc, hbusy'⟩

/-! ### The engine's step is taken -/

theorem runPending_completes {s t : State} (h : runPending s = .next t) :
    t.status.busy = false ∧ t.status.done = true := by
  obtain ⟨i, -, hexec⟩ | rfl := runPending_cases h
  · obtain ⟨hbusy, hdone, -⟩ := completionWritesStatus i s t hexec
    exact ⟨hbusy, hdone⟩
  · exact ⟨rfl, rfl⟩

theorem step_engine_completes {s : State} {rest : List Turn} (hturn : EngineNext s rest)
    (hbusy : s.status.busy = true) : ∃ u, step s = .next u ∧ u.status.busy = false ∧ u.status.done = true := by
  obtain ⟨u, hrun⟩ := runPending_answers { s with turns := rest }
  exact ⟨u, (step_engine hturn hbusy).trans hrun, runPending_completes hrun⟩

theorem AccessCase.turns_eq {s t : State} {a : Access} (h : AccessCase s a t) : t.turns = s.turns := by
  induction h with
  | read _ _ _ _ _ _ ih => exact ih
  | _ => rfl

theorem hostTurn_turns (lanes : Word) (s : State) : (hostTurn lanes s).turns = s.turns := by
  have hcase := hostTurn_cases lanes s
  generalize hostTurn lanes s = t at hcase ⊢
  cases hcase with
  | idle => rfl
  | access a ops => exact (access_cases { s with hostProg := ops } lanes a).turns_eq
  | poll => rfl

/-- By induction on the turns to come: each turn of the host leaves the command pending, and the first turn that is not
the host's is the engine's. -/
theorem reaches_engineNext {turns : List Turn} {s : State} (hturns : s.turns = turns) (hbusy : s.status.busy = true)
    (hreset : Turn.reset ∉ turns) :
    ∃ k t rest, k ≤ turns.length ∧ stepsTo k s t ∧ SamePending s t ∧ EngineNext t rest := by
  induction turns generalizing s with
  | nil => exact ⟨0, s, [], le_rfl, rfl, .refl hbusy, .inr ⟨hturns, rfl⟩⟩
  | cons turn turns ih =>
    cases turn with
    | engine => exact ⟨0, s, turns, Nat.zero_le _, rfl, .refl hbusy, .inl hturns⟩
    | reset => exact absurd List.mem_cons_self hreset
    | host lanes =>
      have hsame := hostTurn_samePending (s := { s with turns := turns }) hbusy lanes
      obtain ⟨k, t, rest, hk, hsteps, hsame', hnext⟩ :=
        ih (hostTurn_turns lanes { s with turns := turns }) hsame.busy (fun h => hreset (List.mem_cons_of_mem _ h))
      exact ⟨k + 1, t, rest, Nat.succ_le_succ hk, ⟨_, step_host (.inl hturns), hsteps⟩,
        { hsame.trans hsame' with }, hnext⟩

/-- Settles O7: the machine comes to the engine's turn, and every command's step completes. -/
theorem engineStepIsEventuallyTaken : Obligations.EngineStepIsEventuallyTaken := by
  intro s hbusy hreset
  obtain ⟨k, t, rest, hk, hsteps, hsame, hnext⟩ := reaches_engineNext rfl hbusy hreset
  obtain ⟨u, hstep, hdone⟩ := step_engine_completes hnext hsame.busy
  exact ⟨k, t, u, rest, hk, hsteps, hsame.busy, hsame.regs, hsame.cfg, hsame.buf, hsame.desc, hnext, hstep, hdone⟩

/-! ### Rules over every step -/

/-- An access issues nothing but by a write of the word to CMD (R139). -/
theorem AccessCase.issues {s t : State} {a : Access} (h : AccessCase s a t) (hidle : s.status.busy = false)
    (hbusy : t.status.busy = true) : ∃ w, a = .write 0x00000004#32 .w4 w ∧ t.reg .cmd = w := by
  have notBusy {p : Prop} (hb : s.status.busy = true) : p := by rw [hidle] at hb; cases hb
  cases h with
  | issue w => exact ⟨w, rfl, issue_cmd s w⟩
  | read x w v t _ ht => rcases ht with rfl | rfl <;> exact notBusy hbusy
  | haz _ _ _ hb => exact notBusy hb
  | _ => exact notBusy hbusy

/-- Settles O33: only a host access can set BUSY, and the host's turn leaves it set. -/
theorem busyChangesOnlyByIssueAndCompletion : Obligations.BusyChangesOnlyByIssueAndCompletion := by
  intro s t hstep
  have notBoth {p : Prop} (hidle : s.status.busy = false) (hbusy : s.status.busy = true) : p := by
    rw [hidle] at hbusy; cases hbusy
  constructor
  · intro hidle hbusy
    cases step_cases hstep with
    | reset rest h => cases hbusy
    | engine rest _ hb => exact notBoth hidle hb
    | idle rest => exact notBoth hidle hbusy
    | host lanes rest =>
      have hcase := hostTurn_cases lanes { s with turns := rest }
      generalize hostTurn lanes { s with turns := rest } = t at hcase hbusy ⊢
      cases hcase with
      | idle => exact notBoth hidle hbusy
      | access a ops hprog =>
        obtain ⟨w, rfl, hcmd⟩ := 
          (access_cases { s with turns := rest, hostProg := ops } lanes a).issues hidle hbusy
        exact ⟨w, ops, hprog, hcmd⟩
      | poll => exact notBoth hidle hbusy
  · intro hbusy hidle
    cases step_cases hstep with
    | reset rest h => exact .inr ⟨rest, h⟩
    | engine rest _ _ _ hrun => exact .inl (runPending_completes hrun).2
    | idle rest _ hb => exact notBoth hb hbusy
    | host lanes rest =>
      have hstays := (hostTurn_samePending (s := { s with turns := rest }) hbusy lanes).busy
      rw [hidle] at hstays; cases hstays

/-- An access writes STATUS to clear flags, or clears neither HAZ nor BUSERR (R34, R387). -/
theorem AccessCase.sticky {s t : State} {a : Access} (h : AccessCase s a t) :
    (∃ w, a = .write 0x00000008#32 .w4 w ∧ t.status = s.status.writeClear w) ∨
      (s.status.haz = true → t.status.haz = true) ∧ (s.status.busErr = true → t.status.busErr = true) := by
  cases h with
  | writeClear w => exact .inl ⟨w, rfl, rfl⟩
  | busErr => exact .inr ⟨id, fun _ => rfl⟩
  | haz => exact .inr ⟨fun _ => rfl, id⟩
  | read x w v t _ ht =>
    rcases ht with rfl | rfl
    · exact .inr ⟨id, id⟩
    · exact .inr ⟨id, fun _ => rfl⟩
  | _ => exact .inr ⟨id, id⟩

theorem runPending_sticky {s t : State} (h : runPending s = .next t) :
    t.status.haz = s.status.haz ∧ t.status.busErr = s.status.busErr := by
  obtain ⟨i, -, hexec⟩ | rfl := runPending_cases h
  · obtain ⟨-, -, -, hhaz, hbusErr, -⟩ := completionWritesStatus i s t hexec
    exact ⟨hhaz, hbusErr⟩
  · exact ⟨rfl, rfl⟩

theorem step_sticky {s t : State} (hstep : step s = .next t) (hreset : ∀ rest, s.turns ≠ .reset :: rest) :
    (∃ w ops, s.hostProg = .access (.write 0x00000008#32 .w4 w) :: ops ∧ t.status = s.status.writeClear w) ∨
      (s.status.haz = true → t.status.haz = true) ∧ (s.status.busErr = true → t.status.busErr = true) := by
  cases step_cases hstep with
  | reset rest h => exact absurd h (hreset rest)
  | engine rest _ _ _ hrun =>
    obtain ⟨hhaz, hbusErr⟩ := runPending_sticky hrun
    exact .inr ⟨fun h => hhaz.trans h, fun h => hbusErr.trans h⟩
  | idle rest => exact .inr ⟨id, id⟩
  | host lanes rest =>
    have hcase := hostTurn_cases lanes { s with turns := rest }
    generalize hostTurn lanes { s with turns := rest } = t at hcase ⊢
    cases hcase with
    | idle => exact .inr ⟨id, id⟩
    | access a ops hprog =>
      obtain ⟨w, rfl, hclear⟩ | hsticky := (access_cases { s with turns := rest, hostProg := ops } lanes a).sticky
      · exact .inl ⟨w, ops, hprog, hclear⟩
      · exact .inr hsticky
    | poll => exact .inr ⟨id, id⟩

/-- Settles O34: a flag that a write to STATUS clears is one whose bit of the word is 1. -/
theorem stickyFlagsStayUntilCleared : Obligations.StickyFlagsStayUntilCleared := by
  intro s t hstep hreset
  obtain ⟨w, ops, hprog, hclear⟩ | ⟨hhaz, hbusErr⟩ := step_sticky hstep hreset
  · have cleared {field bit : Bool} (hset : field = true) (hnot : (field && !bit) = false) : bit = true := by
      rwa [hset, Bool.true_and, Bool.not_eq_false'] at hnot
    rw [hclear]
    exact ⟨fun hset hnot => ⟨w, ops, hprog, cleared hset hnot⟩, fun hset hnot => ⟨w, ops, hprog, cleared hset hnot⟩⟩
  · exact ⟨fun hset hnot => absurd (hhaz hset) (by simp [hnot]),
      fun hset hnot => absurd (hbusErr hset) (by simp [hnot])⟩

/-- The two memories' sizes, the descriptor table and CHUNK_COUNT are as they were. -/
structure SameTable (s t : State) : Prop where
  params : t.params = s.params
  desc : t.desc = s.desc
  count : t.reg .chunkCount = s.reg .chunkCount

theorem AccessCase.sameTable {s t : State} {a : Access} (h : AccessCase s a t) : SameTable s t := by
  induction h with
  | read _ _ _ _ _ _ ih => exact { ih with }
  | store x w q _ hq =>
    have argument : StoreReg.chunkCount ∉ argRegs := by decide
    have hne : StoreReg.chunkCount ≠ q := fun h => argument (h ▸ hq)
    exact ⟨rfl, rfl, by rw [setReg_reg, if_neg hne]⟩
  | _ => exact ⟨rfl, rfl, rfl⟩

theorem hostTurn_sameTable (lanes : Word) (s : State) : SameTable s (hostTurn lanes s) := by
  have hcase := hostTurn_cases lanes s
  generalize hostTurn lanes s = t at hcase ⊢
  cases hcase with
  | idle => exact ⟨rfl, rfl, rfl⟩
  | access a ops => exact { (access_cases { s with hostProg := ops } lanes a).sameTable with }
  | poll => exact ⟨rfl, rfl, rfl⟩

theorem eq_streamParse_of_writes_chunkCount {i : Instr} : StoreReg.chunkCount ∈ writesRegs i → i = .streamParse := by
  cases i <;> decide

theorem exec_sameTable {i : Instr} {s t : State} (hi : i ≠ .streamParse) (h : exec i s = .next t) : SameTable s t := by
  obtain ⟨u, e, rfl, frame, -, hdesc⟩ := exec_row h
  have hcount : StoreReg.chunkCount ∉ writesRegs i := mt eq_streamParse_of_writes_chunkCount hi
  exact ⟨frame.params, tableAfter_eq hdesc hi, frame.regs _ hcount⟩

theorem runPending_sameTable {s t : State} (h : runPending s = .next t) :
    t.params = s.params ∧ (s.reg .cmd = encode .streamParse ∨ SameTable s t) := by
  obtain ⟨i, hcmd, hexec⟩ | rfl := runPending_cases h
  · obtain ⟨u, e, rfl, frame, -⟩ := exec_row hexec
    refine ⟨frame.params, ?_⟩
    by_cases hi : i = .streamParse
    · exact .inl (hi ▸ hcmd)
    · exact .inr (exec_sameTable hi hexec)
  · exact ⟨rfl, .inr ⟨rfl, rfl, rfl⟩⟩

/-- Settles O35: a turn that is neither a reset nor a STREAM_PARSE leaves the table and its count. -/
theorem onlyStreamParseWritesDescriptors : Obligations.OnlyStreamParseWritesDescriptors := by
  intro s t hstep
  have unchanged {u : State} (h : SameTable s u) {p : Prop} (hchange : ¬ SameDesc s u ∨
      (u.reg .chunkCount ≠ s.reg .chunkCount ∧ ∀ rest, s.turns ≠ .reset :: rest)) : p := by
    obtain hdesc | ⟨hcount, -⟩ := hchange
    · exact absurd (fun i => by rw [h.desc]) hdesc
    · exact absurd h.count hcount
  cases step_cases hstep with
  | reset rest hturns =>
    refine ⟨rfl, fun hchange => ?_⟩
    obtain hdesc | ⟨-, hnot⟩ := hchange
    · exact absurd (fun i => rfl) hdesc
    · exact absurd hturns (hnot rest)
  | engine rest _ hbusy _ hrun =>
    obtain ⟨hparams, htable⟩ := runPending_sameTable hrun
    refine ⟨hparams, fun hchange => ?_⟩
    obtain hcmd | hsame := htable
    · exact ⟨hbusy, hcmd⟩
    · exact unchanged { hsame with } hchange
  | idle rest => exact ⟨rfl, unchanged ⟨rfl, rfl, rfl⟩⟩
  | host lanes rest =>
    have hsame := hostTurn_sameTable lanes { s with turns := rest }
    exact ⟨hsame.params, unchanged { hsame with }⟩

end Sys2Proof.Machine
end

section
/-!
PROOFS. The CRC function (41_crc.md R200 to R206): it is the division by the stated polynomial in normal bit order, it
tells apart messages that differ in one byte, and it may be computed in parts.
-/
namespace Sys2Proof.Machine
open Sys2Proof.Claims

/-! ### Normal bit order -/

theorem reverse_eq_of_getLsbD {x y : Word} (h : ∀ i : Fin 32, x.getLsbD (31 - i) = y.getLsbD i) : x.reverse = y := by
  apply BitVec.eq_of_getLsbD_eq
  intro i hi
  rw [BitVec.getLsbD_reverse, BitVec.getMsbD, decide_eq_true hi, Bool.true_and]
  exact h ⟨i, hi⟩

theorem reverse_xor (x y : Word) : (x ^^^ y).reverse = x.reverse ^^^ y.reverse := by
  apply BitVec.eq_of_getMsbD_eq
  intro i _
  simp only [BitVec.getMsbD_reverse, BitVec.getMsbD_xor, BitVec.getLsbD_xor]

theorem reverse_ushiftRight_one (y : Word) : (y >>> 1).reverse = y.reverse <<< 1 := by
  apply BitVec.eq_of_getMsbD_eq
  intro i _
  rw [BitVec.getMsbD_reverse, BitVec.getMsbD_shiftLeft, BitVec.getMsbD_reverse, BitVec.getLsbD_ushiftRight,
    Nat.add_comm]

theorem reverse_getLsbD_31 (c : Word) : c.reverse.getLsbD 31 = c.getLsbD 0 := by
  rw [BitVec.getLsbD_reverse, BitVec.getMsbD]
  rfl

/-- A round on a state with message bits still in it divides by the lowest of them, and shifts the rest down. -/
theorem crcBit_xor_reverse (c y : Word) :
    (crcBit (c ^^^ y)).reverse = divideStep c.reverse (y.getLsbD 0) ^^^ (y >>> 1).reverse := by
  rw [crcBit_reverse, reverse_getLsbD_31, reverse_xor, BitVec.shiftLeft_xor_distrib, BitVec.getLsbD_xor,
    reverse_ushiftRight_one, divideStep, reverse_getLsbD_31]
  ac_rfl

/-- `n` rounds divide by the `n` lowest message bits, the least significant first. -/
theorem crcBits_xor_reverse (n : Nat) (c y : Word) :
    (crcBits (c ^^^ y) n).reverse =
      ((List.range n).map y.getLsbD).foldl divideStep c.reverse ^^^ (y >>> n).reverse := by
  induction n generalizing c y with
  | zero => rw [crcBits, reverse_xor, BitVec.ushiftRight_zero]; rfl
  | succ n ih =>
    have hround : crcBit (c ^^^ y) = (divideStep c.reverse (y.getLsbD 0)).reverse ^^^ (y >>> 1) := by
      rw [← BitVec.reverse_reverse_eq (x := crcBit (c ^^^ y)), crcBit_xor_reverse, reverse_xor,
        BitVec.reverse_reverse_eq]
    have hbits : (List.range n).map (y >>> 1).getLsbD = ((List.range n).map Nat.succ).map y.getLsbD := by
      rw [List.map_map]
      refine List.map_congr_left fun i _ => ?_
      rw [BitVec.getLsbD_ushiftRight, Nat.add_comm]
      rfl
    rw [crcBits, hround, ih, hbits, BitVec.reverse_reverse_eq, Nat.add_comm n 1, BitVec.shiftRight_add,
      Nat.add_comm 1 n, List.range_succ_eq_map]
    rfl

theorem crcByte_reverse (c : Word) (b : Byte) :
    (crcByte c b).reverse = ((List.range 8).map b.getLsbD).foldl divideStep c.reverse := by
  have hspent : b.setWidth 32 >>> 8 = 0#32 := by
    apply BitVec.eq_of_getLsbD_eq
    intro i _
    rw [BitVec.getLsbD_ushiftRight, BitVec.getLsbD_setWidth, BitVec.getLsbD_of_ge b _ (by omega), Bool.and_false,
      BitVec.getLsbD_zero]
  have hbits : (List.range 8).map (b.setWidth 32).getLsbD = (List.range 8).map b.getLsbD := by
    refine List.map_congr_left fun i hi => ?_
    have hi' : i < 32 := by rw [List.mem_range] at hi; omega
    rw [BitVec.getLsbD_setWidth, decide_eq_true hi', Bool.true_and]
  have hzero : (0#32 : Word).reverse = 0#32 := reverse_eq_of_getLsbD (by decide)
  rw [crcByte, crcBits_xor_reverse, hspent, hbits, hzero, BitVec.xor_zero]

theorem crcUpd_reverse (c : Word) (bs : List Byte) :
    (crcUpd c bs).reverse = (messageBits bs).foldl divideStep c.reverse := by
  induction bs generalizing c with
  | nil => rfl
  | cons b bs ih =>
    have hstep := ih (crcByte c b)
    rw [crcByte_reverse] at hstep
    rw [messageBits, List.flatMap_cons, List.foldl_append]
    exact hstep

theorem crc32_eq_division (bs : List Byte) :
    crc32 bs = ((messageBits bs).foldl divideStep 0xFFFFFFFF#32).reverse ^^^ 0xFFFFFFFF#32 := by
  have hinitial : crcInitial.reverse = 0xFFFFFFFF#32 := reverse_eq_of_getLsbD (by decide)
  have hdivision := crcUpd_reverse crcInitial bs
  rw [hinitial] at hdivision
  rw [← hdivision, BitVec.reverse_reverse_eq, crc32, crcFinalXor]

/-- Settles O38: the model's rounds are those of the division, on a register held in reversed order. -/
theorem crcIsTheStatedPolynomial : Obligations.CrcIsTheStatedPolynomial :=
  ⟨by decide, reverse_eq_of_getLsbD (by decide), crc32_eq_division, by decide +kernel⟩

/-! ### Detection of a change -/

theorem crc32_set_ne {bs : List Byte} {i : Nat} {b : Byte} (h : i < bs.length) (hb : b ≠ bs[i]) :
    crc32 (bs.set i b) ≠ crc32 bs := by
  have hsplit : bs.take i ++ bs[i] :: bs.drop (i + 1) = bs := by
    rw [← List.drop_eq_getElem_cons h, List.take_append_drop]
  have hne := crc32_ne_of_byte_ne (bs.take i) (bs.drop (i + 1)) b bs[i] hb
  rw [hsplit] at hne
  rwa [List.set_eq_take_append_cons_drop, if_pos h]

theorem typeBytes_eq_map (t : Word) : typeBytes t = (List.range 4).map (typeByte t) := rfl

theorem typeByte_xor_bit_getLsbD (t : Word) (k j i : Nat) (hk : k < 32) :
    (typeByte (t ^^^ (1#32 <<< k)) j).getLsbD i =
      ((typeByte t j).getLsbD i ^^ (decide (i < 8) && decide (8 * (3 - j) + i = k))) := by
  have hbit : (1#32 <<< k).getLsbD (8 * (3 - j) + i) = decide (8 * (3 - j) + i = k) := by
    rw [← BitVec.twoPow_eq, BitVec.getLsbD_twoPow, decide_eq_true hk, Bool.true_and]
    exact decide_eq_decide.mpr eq_comm
  simp only [typeByte, BitVec.getLsbD_extractLsb', BitVec.getLsbD_xor, hbit, Bool.and_xor_distrib_left]

/-- A flipped bit of a type is in one of its bytes, the one at index `3 - k / 8` (R13). -/
theorem typeBytes_xor_bit (t : Word) {k : Nat} (hk : k < 32) :
    typeBytes (t ^^^ (1#32 <<< k)) =
      (typeBytes t).set (3 - k / 8) (typeByte (t ^^^ (1#32 <<< k)) (3 - k / 8)) := by
  apply List.ext_getElem
  · rw [List.length_set, typeBytes_length, typeBytes_length]
  · intro j hj _
    rw [typeBytes_length] at hj
    simp only [typeBytes_eq_map, List.getElem_set, List.getElem_map, List.getElem_range]
    split
    · next h => rw [h]
    · next hne =>
      apply BitVec.eq_of_getLsbD_eq
      intro i hi
      have hother : ¬ 8 * (3 - j) + i = k := by omega
      rw [typeByte_xor_bit_getLsbD t k j i hk, decide_eq_false hother, Bool.and_false,
        Bool.xor_false]

theorem typeByte_xor_bit_ne (t : Word) {k : Nat} (hk : k < 32) :
    typeByte (t ^^^ (1#32 <<< k)) (3 - k / 8) ≠ typeByte t (3 - k / 8) := by
  intro h
  have hbit := typeByte_xor_bit_getLsbD t k (3 - k / 8) (k % 8) hk
  have hlow : k % 8 < 8 := by omega
  have hplace : 8 * (3 - (3 - k / 8)) + k % 8 = k := by omega
  rw [h, decide_eq_true hlow, decide_eq_true hplace] at hbit
  simp at hbit

/-- Settles O39: a chunk's type and data are bytes of the message that its CRC covers, and one of them is changed. -/
theorem crcDetectsAChangedByte : Obligations.CrcDetectsAChangedByte := by
  refine ⟨fun bs i b h hb => crc32_set_ne h hb, fun t t' d k hk ht' => ?type, fun t d i b h hb => ?data⟩
  case type =>
    have hj : 3 - k / 8 < (typeBytes t).length := by rw [typeBytes_length]; omega
    rw [ht', chunkCrc, chunkCrc, typeBytes_xor_bit t hk, ← List.set_append_left _ _ hj]
    refine crc32_set_ne (by rw [List.length_append]; omega) ?_
    rw [List.getElem_append_left hj]
    simpa only [typeBytes_eq_map, List.getElem_map, List.getElem_range] using typeByte_xor_bit_ne t hk
  case data =>
    have hset : typeBytes t ++ d.set i b = (typeBytes t ++ d).set (4 + i) b := by
      rw [List.set_append_right _ _ (by rw [typeBytes_length]; omega), typeBytes_length, Nat.add_sub_cancel_left]
    rw [chunkCrc, chunkCrc, hset]
    refine crc32_set_ne (by rw [List.length_append, typeBytes_length]; omega) ?_
    simpa [List.getElem_append_right] using hb

/-! ### An incremental CRC -/

theorem crcUpdate_next {s t : State} (hfits : s.num .src + s.num .len ≤ s.bufSize)
    (h : exec .crcUpdate s = .next t) : t = (s.setReg .crcAcc (crcUpd (s.reg .crcAcc) s.window)).finish none := by
  rw [exec_crcUpdate, if_pos ((srcFits_iff s).mpr hfits), ← window_eq_bytesAt] at h
  cases h
  rfl

theorem crcBlock_next {s t : State} (hfits : s.num .src + s.num .len ≤ s.bufSize)
    (h : exec .crcBlock s = .next t) : t = (s.setReg .crcResult (crc32 s.window)).finish none := by
  rw [exec_crcBlock, if_pos ((srcFits_iff s).mpr hfits), ← window_eq_bytesAt] at h
  cases h
  rfl

/-- Settles O45: the two windows are the two parts of the whole one, and CRC_UPDATE goes on where it left off. -/
theorem splitCrcEqualsBlockCrc : Obligations.SplitCrcEqualsBlockCrc := by
  intro s t1 t2 t3 t4 v n m hsize hn h1 h2 h3 h4 hv
  have hword : s.bufSize < 2 ^ 32 := s.params.bufSize.isLt
  have hsrc : (BitVec.ofNat 32 (s.num .src + n)).toNat = s.num .src + n := toWord_toNat (by omega)
  have hm : (BitVec.ofNat 32 m).toNat = m := toWord_toNat (by omega)
  have hnm : (BitVec.ofNat 32 (n + m)).toNat = n + m := toWord_toNat (by omega)
  cases h1
  rw [crcUpdate_next (by simp [hn]; omega) h2] at h3
  rw [crcUpdate_next (by simp [hsrc, hm]; omega) h3] at h4
  cases h4
  rw [crcBlock_next (by simp [hnm]; omega) hv]
  simp [State.window, hn, hsrc, hm, hnm, memRead_add, crc32, crcUpd_append]

end Sys2Proof.Machine
end

section
/-!
PROOFS. Round trip of a chunk (42_chunk.md R242), and what STRICT_LEN changes (R236).
-/
namespace Sys2Proof.Machine
open Sys2Proof.Claims

/-! ### Sequences of bytes in the buffer -/

theorem bytesAt_eq_memRead (m : Memory) (off n : Nat) : bytesAt m off n = memRead m off n := (memRead_eq_map ..).symm

@[simp] theorem bytesAt_length (m : Memory) (off n : Nat) : (bytesAt m off n).length = n := by
  rw [bytesAt_eq_memRead, memRead_length]

theorem bytesAt_add (m : Memory) (off a b : Nat) :
    bytesAt m off (a + b) = bytesAt m off a ++ bytesAt m (off + a) b := by
  simp only [bytesAt_eq_memRead, memRead_add]

theorem holdsAt_append {m : Memory} {off : Nat} {xs ys : List Byte} :
    HoldsAt m off (xs ++ ys) ↔ HoldsAt m off xs ∧ HoldsAt m (off + xs.length) ys := by
  rw [HoldsAt, List.length_append, bytesAt_add]
  constructor
  · exact fun h => List.append_inj h (bytesAt_length ..)
  · rintro ⟨hxs, hys⟩
    rw [hxs, hys]

theorem holdsAt_congr {m m' : Memory} {off : Nat} {bs : List Byte} (h : HoldsAt m off bs)
    (hsame : ∀ a, off ≤ a → a < off + bs.length → byteAt m' a = byteAt m a) : HoldsAt m' off bs := by
  rw [HoldsAt, bytesAt_eq_memRead] at h ⊢
  rw [memRead_congr m' m off _ hsame, h]

/-! ### A chunk in the buffer -/

/-- The chunk at `off` is the one of type `t` and data `d`, with its CRC (R231). -/
structure HoldsChunk (m : Memory) (off : Nat) (t : Word) (d : List Byte) : Prop where
  len : lenAt m off = d.length
  type : typeAt m off = t
  stored : storedCrcAt m off = chunkCrc t d
  computed : computedCrcAt m off = chunkCrc t d
  data : bytesAt m (off + 8) d.length = d

/-- The fields of a chunk are read back from its on-wire bytes (R230, R231). -/
theorem holdsChunk_of_holdsAt {m : Memory} {off : Nat} {t : Word} {d : List Byte} (h : HoldsAt m off (chunkBytes t d))
    (hlen : d.length < 2 ^ 32) : HoldsChunk m off t d := by
  simp only [chunkBytes, holdsAt_append, List.length_append, bytesBe32_length, typeBytes_length] at h
  obtain ⟨⟨⟨hlenBytes, htypeBytes⟩, hdata⟩, hcrcBytes⟩ := h
  simp only [HoldsAt, bytesBe32_length, typeBytes_length, Nat.reduceAdd] at hlenBytes htypeBytes hdata hcrcBytes
  have len : lenAt m off = d.length := by
    rw [lenAt, hlenBytes, ← be32_toNat _ (bytesBe32_length _), be32_bytesBe32, toWord_toNat hlen]
  refine ⟨len, ?type, ?stored, ?computed, hdata⟩
  case type => rw [typeAt, htypeBytes, typeBytes, be32_bytesBe32]
  case stored => rw [storedCrcAt, len, Nat.add_assoc, hcrcBytes, be32_bytesBe32]
  case computed => rw [computedCrcAt, len, bytesAt_add, htypeBytes, Nat.add_assoc, hdata, chunkCrc]

theorem HoldsChunk.good {s : State} {off stop : Nat} {t : Word} {d : List Byte} (h : HoldsChunk s.buf off t d)
    (hstop : off + 12 + d.length ≤ stop) (hlimit : ¬ OverLimit s d.length) : ChunkGood s off stop := by
  refine ⟨⟨?_, ?_⟩, h.stored.trans h.computed.symm⟩
  · rwa [h.len]
  · rwa [h.len]

/-! ### CHUNK_EMIT without error -/

/-- CHUNK_EMIT ends without error only where it writes the chunk (R240). -/
theorem chunkEmit_next {s t : State} (h : exec .chunkEmit s = .next t) (herr : t.status.err = false) :
    ¬ OverLimit s (s.num .len) ∧ s.num .dst + 12 + s.num .len ≤ s.bufSize ∧ t = s.withChunkEmitted.finish none := by
  have raised {e : ErrorKind} {p : Prop} (hraise : execChunkEmit s = raise e s) : p := by
    have hnext : raise e s = .next t := hraise.symm.trans h
    cases hnext
    cases herr
  by_cases hlimit : OverLimit s (s.num .len)
  · exact raised (execChunkEmit_limit hlimit)
  · by_cases hfits : s.num .src + s.num .len ≤ s.bufSize ∧ s.num .dst + 12 + s.num .len ≤ s.bufSize
    · obtain ⟨hsrc, hdst⟩ := hfits
      have hnext : complete s.withChunkEmitted = .next t := (execChunkEmit_fits hlimit hsrc hdst).symm.trans h
      cases hnext
      exact ⟨hlimit, hdst, rfl⟩
    · exact raised (execChunkEmit_range hlimit (by omega))

/-- Settles O49: the bytes emitted are those of a chunk, and ParseChunk accepts it. -/
theorem emittedChunkParses : Obligations.EmittedChunkParses := by
  intro s t u hinv hemit herr hparams hcfg hsrc hlen hwindow hsame
  obtain ⟨hlimit, hdst, rfl⟩ := chunkEmit_next hemit herr
  have hsrcNum : u.num .src = s.num .dst := congrArg BitVec.toNat hsrc
  have hbytes : (chunkBytes (s.reg .type) s.window).length = 12 + s.num .len := by
    rw [chunkBytes_length, window_length]
  have hemitted : HoldsAt u.buf (s.num .dst) (chunkBytes (s.reg .type) s.window) := by
    have hfits : s.num .dst + (chunkBytes (s.reg .type) s.window).length ≤ s.bufSize := by omega
    exact holdsAt_congr (holdsAt_memWrite hinv.buf hfits) fun a hlo hhi => hsame a hlo (by omega)
  have hchunk : HoldsChunk u.buf (s.num .dst) (s.reg .type) s.window :=
    holdsChunk_of_holdsAt hemitted (by rw [window_length]; exact (s.reg .len).isLt)
  have hlimit' : ¬ OverLimit u s.window.length := by rwa [window_length, OverLimit, hcfg]
  have hgood := hchunk.good (stop := s.num .dst + u.num .len) (by rw [window_length]; omega) hlimit'
  rw [← hsrcNum] at hgood
  obtain ⟨v, hparse, hregs, -, hok, -⟩ := (chunkParseValidatesTheChunk.2 u).2.2 hwindow hgood.1
  obtain ⟨hregLen, hregType, hregStored, hregComputed, hregNext⟩ := hregs
  rw [hsrcNum, hchunk.len, window_length] at hregLen hregNext
  rw [hsrcNum] at hregType hregStored hregComputed
  refine ⟨v, hparse, hok hgood.2, BitVec.eq_of_toNat_eq hregLen, hregType.trans hchunk.type, ?stored, ?computed,
    hregNext, ?data⟩
  case stored => rw [hregStored, hchunk.stored, finish_reg, withChunkEmitted_crcResult]
  case computed => rw [hregComputed, hchunk.computed, finish_reg, withChunkEmitted_crcResult]
  case data => rw [← window_eq_bytesAt, ← window_length, hchunk.data]

/-! ### STRICT_LEN -/

/-- The state with STRICT_LEN = 0. -/
def State.relaxed (s : State) : State := { s with cfg := { s.cfg with strictLen := false } }

theorem relaxed_overLimit (s : State) (n : Nat) : s.relaxed.overLimit n = false := rfl

/-- In a window of at most 2^31 bytes, a chunk over the limit is also cut off (R236). -/
theorem parseChunk_relaxed {s : State} {base w : Nat} (hw : w ≤ 2 ^ 31) :
    parseChunk s.relaxed base w = parseChunk s base w ∨
      parseChunk s base w = .err .lengthLimit none ∧ parseChunk s.relaxed base w = .err .truncated none := by
  rcases Nat.lt_or_ge w 4 with hshort | hlong
  · rw [parseChunk_noLength hshort, parseChunk_noLength hshort]
    exact .inl rfl
  · have hrelaxed := relaxed_overLimit s (lenField s.buf base).toNat
    cases hlimit : s.overLimit (lenField s.buf base).toNat with
    | true =>
      have hhuge := ((overLimit_iff ..).mp hlimit).2
      have hcut : w < 12 + (lenField s.buf base).toNat := by omega
      exact .inr ⟨parseChunk_overLimit hlong hlimit, parseChunk_tooLong hlong hrelaxed hcut⟩
    | false =>
      left
      rcases Nat.lt_or_ge w (12 + (lenField s.buf base).toNat) with hcut | hwhole
      · rw [parseChunk_tooLong hlong hlimit hcut, parseChunk_tooLong hlong hrelaxed hcut]
      · rw [parseChunk_whole hlimit hwhole, parseChunk_whole hrelaxed hwhole]
        rfl

/-- What CHUNK_PARSE does with the answer of ParseChunk (R250). -/
def chunkParseEnd (s : State) : ParseResult → Answer
  | .ok i => complete (writeChunkRegs (s.num .src) i s)
  | .err e (some i) => raise e (writeChunkRegs (s.num .src) i s)
  | .err e none => raise e s

theorem execChunkParse_fits {s : State} (hfits : s.num .src + s.num .len ≤ s.bufSize) :
    execChunkParse s = chunkParseEnd s (parseChunk s (s.num .src) (s.num .len)) := by
  rw [execChunkParse, if_pos ((srcFits_iff s).mpr hfits)]
  rfl

/-- Settles O50: CHUNK_PARSE looks at STRICT_LEN in ParseChunk alone, and the window is no longer than the buffer. -/
theorem strictLenChangesOnlyTheError : Obligations.StrictLenChangesOnlyTheError := by
  intro s t u hparams _ ht hu
  replace ht : execChunkParse s = .next t := ht
  replace hu : execChunkParse s.relaxed = .next u := hu
  by_cases hfits : s.num .src + s.num .len ≤ s.bufSize
  · have hsize : s.bufSize ≤ 2 ^ 31 := by
      simp only [Params.wellFormed, Bool.and_eq_true, decide_eq_true_eq] at hparams
      exact hparams.1.2
    rw [execChunkParse_fits hfits] at ht
    have hu' : chunkParseEnd s.relaxed (parseChunk s.relaxed (s.num .src) (s.num .len)) = .next u :=
      (execChunkParse_fits (s := s.relaxed) hfits).symm.trans hu
    obtain hsame | ⟨hstrict, hrelaxed⟩ := parseChunk_relaxed (s := s) (base := s.num .src) (w := s.num .len) (by omega)
    · rw [hsame] at hu'
      generalize parseChunk s (s.num .src) (s.num .len) = answer at ht hu'
      -- Each answer is carried out alike on the two states, which differ in CFG alone.
      rcases answer with i | ⟨e, _ | i⟩ <;> cases ht <;> cases hu' <;> exact ⟨rfl, rfl, rfl, .inl rfl⟩
    · rw [hstrict] at ht
      rw [hrelaxed] at hu'
      cases ht
      cases hu'
      exact ⟨rfl, rfl, rfl, .inr ⟨rfl, rfl⟩⟩
  · have hout : s.bufSize < s.num .src + s.num .len := by omega
    rw [execChunkParse_range hout] at ht
    rw [execChunkParse_range (s := s.relaxed) hout] at hu
    cases ht
    cases hu
    exact ⟨rfl, rfl, rfl, .inl rfl⟩

end Sys2Proof.Machine
end

section
/-!
PROOFS. STREAM_PARSE (43_container.md R275 to R278): the checks before the walk, a walk that reaches chunk `n`, and the
two ways it ends there.
-/
namespace Sys2Proof.Machine
open Sys2Proof.Claims

/-! ### The chunks of a walk -/

/-- The values of the first `n` chunks of the walk that begins at `off`. -/
def chunksFrom (m : Memory) (off n : Nat) : List ChunkInfo :=
  (List.range n).map fun k => chunkAt m (cursor m off k)

@[simp] theorem chunksFrom_length (m : Memory) (off n : Nat) : (chunksFrom m off n).length = n := by
  rw [chunksFrom, List.length_map, List.length_range]

theorem chunksFrom_succ (m : Memory) (off n : Nat) :
    chunksFrom m off (n + 1) = chunksFrom m off n ++ [chunkAt m (cursor m off n)] := by
  rw [chunksFrom, List.range_succ, List.map_append]
  rfl

theorem chunksFrom_take (m : Memory) (off : Nat) {n k : Nat} (hk : k ≤ n) :
    (chunksFrom m off n).take k = chunksFrom m off k := by
  rw [chunksFrom, ← List.map_take, List.take_range, Nat.min_eq_left hk, chunksFrom]

theorem chunksFrom_getElem (m : Memory) (off n k : Nat) (hk : k < (chunksFrom m off n).length) :
    (chunksFrom m off n)[k] = chunkAt m (cursor m off k) := by
  simp only [chunksFrom, List.getElem_map, List.getElem_range]

theorem endOff_chunksFrom (m : Memory) (off n : Nat) : endOff off (chunksFrom m off n) = cursor m off n := by
  induction n with
  | zero => rfl
  | succ n ih => rw [chunksFrom_succ, endOff_append, ih, endOff, endOff, chunkAt_len, cursor]

/-- Chunks that pass one by one are passed by the walk (R275). -/
theorem passes_chunksFrom {s : State} {off stop n : Nat}
    (h : ∀ k, k < n → ChunkGood s (cursor s.buf off k) stop) : Passes s stop off (chunksFrom s.buf off n) := by
  induction n with
  | zero => trivial
  | succ n ih =>
    have hgood := h n (Nat.lt_succ_self n)
    have hwhole := hgood.1.1
    have hwindow : cursor s.buf off n + (stop - cursor s.buf off n) = stop := by omega
    rw [chunksFrom_succ]
    refine (ih fun k hk => h k (Nat.lt_succ_of_lt hk)).append ?_
    rw [endOff_chunksFrom]
    exact ⟨by omega, parseChunk_of_chunkGood (hwindow.symm ▸ hgood), trivial⟩

/-! ### A walk that reaches chunk `n` -/

/-- The state of a walk that has recorded its first `n` chunks. -/
def State.walked (s : State) (n : Nat) : State := recordAll 0 (firstChunk s) (chunksFrom s.buf (firstChunk s) n) s

theorem walked_frame (s : State) (n : Nat) : CommandFrame streamRegs s (s.walked n) := recordAll_frame ..

@[simp] theorem walked_buf (s : State) (n : Nat) : (s.walked n).buf = s.buf := recordAll_buf ..

theorem descOf_eq (m : Memory) (off : Nat) :
    descOf m off =
      { off := toWord off
        len := (chunkAt m off).len
        type := (chunkAt m off).type
        crc := (chunkAt m off).stored } := by
  have hlen : (chunkAt m off).len = BitVec.ofNat 32 (lenAt m off) := by
    rw [← chunkAt_len, BitVec.ofNat_toNat, BitVec.setWidth_eq]
  rw [hlen, chunkAt_type, chunkAt_stored]
  rfl

theorem walked_descsWritten {s : State} {n : Nat} (hwf : s.desc.wf s.descCap = true) (hroom : n ≤ s.descCap) :
    DescsWritten n s (s.walked n) := by
  refine ⟨fun k hk => ?_, fun k hk => recordAll_desc_outside _ _ _ _ _ (.inr (by rw [chunksFrom_length]; omega))⟩
  have hdesc := recordAll_desc_inside s.descCap 0 (firstChunk s) (chunksFrom s.buf (firstChunk s) n) s hwf
    (by rw [chunksFrom_length]; omega) k (by rwa [chunksFrom_length])
  rw [Nat.zero_add, chunksFrom_take _ _ hk.le, endOff_chunksFrom, chunksFrom_getElem, ← descOf_eq] at hdesc
  exact hdesc

/-- The five registers show the chunk recorded last (R233). -/
theorem walked_succ_reg (s : State) (k : Nat) (r : StoreReg) :
    (s.walked (k + 1)).reg r =
      (writeChunkRegs (cursor s.buf (firstChunk s) k) (chunkAt s.buf (cursor s.buf (firstChunk s) k))
        (s.walked k)).reg r := by
  rw [State.walked, chunksFrom_succ, recordAll_last, endOff_chunksFrom, State.walked]

/-! ### The checks before the walk -/

theorem sigPresent_iff (s : State) :
    SigPresent s ↔ ¬ (s.num .len < 8 ∨ memRead s.buf (s.num .src) 8 ≠ sigBytes) := by
  rw [not_or, Nat.not_lt, not_not, SigPresent, bytesAt_eq_memRead, sigBytes]

theorem execStreamParse_range {s : State} (hout : s.bufSize < s.num .src + s.num .len) :
    execStreamParse s = raise .range s := by
  have hfits : ¬ s.srcFits = true := by rw [srcFits_iff]; omega
  rw [execStreamParse, if_neg hfits]

section
variable {s : State} (hfits : s.num .src + s.num .len ≤ s.bufSize)
include hfits

theorem execStreamParse_noSig (hsig : ¬ SigPresent s) :
    execStreamParse s = streamFail .sigMismatch 0 (s.num .src) s := by
  rw [sigPresent_iff, not_not] at hsig
  rw [execStreamParse, if_pos ((srcFits_iff s).mpr hfits), if_pos hsig]

theorem execStreamParse_sig (hsig : SigPresent s) :
    execStreamParse s = streamWalk (streamEnd s) s.descCap 0 (firstChunk s) s := by
  rw [execStreamParse, if_pos ((srcFits_iff s).mpr hfits), if_neg ((sigPresent_iff s).mp hsig), streamEnd, firstChunk]

end

/-- A walk that reaches chunk `n` goes on there, with the chunks before it recorded (R275). -/
theorem execStreamParse_reaches {s : State} {n : Nat} (h : WalkReaches s n) :
    execStreamParse s =
      streamWalk (streamEnd s) (s.descCap - n) n (cursor s.buf (firstChunk s) n) (s.walked n) := by
  have hroom : (chunksFrom s.buf (firstChunk s) n).length ≤ s.descCap := by rw [chunksFrom_length]; exact h.room
  rw [execStreamParse_sig h.fits h.sig, streamWalk_passes (passes_chunksFrom h.good) hroom, chunksFrom_length,
    Nat.zero_add, endOff_chunksFrom, State.walked]

/-! ### The ends of the walk -/

theorem CommandFrame.finish_sameRegsBut {l : List StoreReg} {s u : State} (h : CommandFrame l s u)
    (e : Option ErrorKind) : SameRegsBut l s (u.finish e) := h.regs

theorem CommandFrame.finish_sameRest {l : List StoreReg} {s u : State} (h : CommandFrame l s u)
    (e : Option ErrorKind) : SameRest s (u.finish e) := ⟨h.cfg, h.params, h.hostProg, h.turns, h.readData⟩

theorem sameBuf_of_buf_eq {s t : State} (h : t.buf = s.buf) : SameBuf s t := fun a => by rw [h]

theorem descsWritten_of_desc_eq {n : Nat} {s t t' : State} (h : DescsWritten n s t) (hdesc : t'.desc = t.desc) :
    DescsWritten n s t' := by
  rwa [DescsWritten, hdesc]

/-- What STREAM_PARSE has written when its walk fails at chunk `k` (R275). -/
def State.withFailure (s : State) (k off : Nat) : State :=
  ((s.setReg .chunkCount 0#32).setReg .failIndex (toWord k)).setReg .failOff (toWord off)

theorem streamFail_eq (e : ErrorKind) (k off : Nat) (s : State) :
    streamFail e k off s = .next ((s.withFailure k off).finish (some e)) := rfl

@[simp] theorem withFailure_chunkCount (s : State) (k off : Nat) : (s.withFailure k off).reg .chunkCount = 0#32 := by
  simp [State.withFailure]

@[simp] theorem withFailure_failIndex (s : State) (k off : Nat) : (s.withFailure k off).reg .failIndex = toWord k := by
  simp [State.withFailure]

@[simp] theorem withFailure_failOff (s : State) (k off : Nat) : (s.withFailure k off).reg .failOff = toWord off := by
  simp [State.withFailure]

theorem withFailure_frame (s : State) (k off : Nat) :
    CommandFrame [.chunkCount, .failIndex, .failOff] s (s.withFailure k off) :=
  (((CommandFrame.refl _ s).setReg (by decide) _).setReg (by decide) _).setReg (by decide) _

/-- What STREAM_PARSE has written when its walk ends at the end of the stream after `k` chunks (R275). -/
def State.withParsed (s : State) (k stop : Nat) : State :=
  (((s.setReg .chunkCount (toWord k)).setReg .failIndex noneWord).setReg .failOff noneWord).setReg .nextOff
    (toWord stop)

theorem streamDone_eq (k stop : Nat) (s : State) :
    streamDone k stop s = .next ((s.withParsed k stop).finish none) := rfl

@[simp] theorem withParsed_buf (s : State) (k stop : Nat) : (s.withParsed k stop).buf = s.buf := rfl
@[simp] theorem withParsed_desc (s : State) (k stop : Nat) : (s.withParsed k stop).desc = s.desc := rfl

@[simp] theorem withParsed_chunkCount (s : State) (k stop : Nat) :
    (s.withParsed k stop).reg .chunkCount = toWord k := by simp [State.withParsed]

@[simp] theorem withParsed_failIndex (s : State) (k stop : Nat) :
    (s.withParsed k stop).reg .failIndex = 0xFFFFFFFF#32 := by simp [State.withParsed, noneWord]

@[simp] theorem withParsed_failOff (s : State) (k stop : Nat) :
    (s.withParsed k stop).reg .failOff = 0xFFFFFFFF#32 := by simp [State.withParsed, noneWord]

@[simp] theorem withParsed_nextOff (s : State) (k stop : Nat) :
    (s.withParsed k stop).reg .nextOff = toWord stop := by simp [State.withParsed]

theorem withParsed_frame (s : State) (k stop : Nat) :
    CommandFrame [.chunkCount, .failIndex, .failOff, .nextOff] s (s.withParsed k stop) :=
  ((((CommandFrame.refl _ s).setReg (by decide) _).setReg (by decide) _).setReg (by decide) _).setReg (by decide) _

theorem streamWalk_atEnd {stop room k off : Nat} {s : State} (h : ¬ off < stop) :
    streamWalk stop room k off s = streamDone k stop s := by
  cases room with
  | zero => rw [streamWalk, if_neg h]
  | succ room => rw [streamWalk, if_neg h]

theorem streamWalk_full {stop k off : Nat} {s : State} (h : off < stop) :
    streamWalk stop 0 k off s = streamFail .descOverflow k off s := by
  rw [streamWalk, if_pos h]

section
variable {stop room k off : Nat} {s : State} {e : ErrorKind} (hroom : 0 < room) (h : off < stop)
include hroom h

theorem streamWalk_unreadable (hparse : parseChunk s off (stop - off) = .err e none) :
    streamWalk stop room k off s = streamFail e k off s := by
  obtain ⟨room, rfl⟩ := Nat.exists_eq_add_one.mpr hroom
  rw [streamWalk, if_pos h, hparse]

theorem streamWalk_bad {i : ChunkInfo} (hparse : parseChunk s off (stop - off) = .err e (some i)) :
    streamWalk stop room k off s = streamFail e k off (writeChunkRegs off i s) := by
  obtain ⟨room, rfl⟩ := Nat.exists_eq_add_one.mpr hroom
  rw [streamWalk, if_pos h, hparse]

end

/-! ### The obligations: the checks, success and failure -/

/-- Settles O53: the two checks come before the walk, and only the second writes. -/
theorem streamParseChecksTheSignature : Obligations.StreamParseChecksTheSignature := by
  refine fun s => ⟨fun hout => ?range, fun hfits hsig => ?sig⟩
  case range => exact failsWith_of_raise (e := .range) (execStreamParse_range hout)
  case sig =>
    have frame := withFailure_frame s 0 (s.num .src)
    refine ⟨_, (execStreamParse_noSig hfits hsig).trans (streamFail_eq ..), frame.finish_endedWith .sigMismatch, ?_, ?_,
      ?_, frame.finish_onlyRegs rfl rfl _⟩
    · rw [finish_reg, withFailure_chunkCount]
    · rw [finish_reg, withFailure_failIndex]; rfl
    · rw [finish_reg, withFailure_failOff, toWord_num]

theorem chunk_end_le_bufSize {s : State} {n k : Nat} (h : WalkReaches s n) (hk : k < n) :
    cursor s.buf (firstChunk s) k + 12 + lenAt s.buf (cursor s.buf (firstChunk s) k) ≤ s.bufSize :=
  Nat.le_trans (h.good k hk).1.1 h.fits

theorem walked_bufSize (s : State) (n : Nat) : (s.walked n).bufSize = s.bufSize :=
  congrArg (·.bufSize.toNat) (walked_frame s n).params

/-- The chunk recorded last shows in any state that keeps the five registers of the walk (R233). -/
theorem chunkRegs_of_walked {s t : State} {k : Nat} (h : WalkReaches s (k + 1))
    (hregs : ∀ r, r ∈ chunkRegList → t.reg r = (s.walked (k + 1)).reg r) :
    ChunkRegs s.buf (cursor s.buf (firstChunk s) k) t :=
  chunkRegs_of_writeChunkRegs (s := s.walked k)
    (by rw [walked_bufSize]; exact chunk_end_le_bufSize h (Nat.lt_succ_self k))
    fun r hr => (hregs r hr).trans (walked_succ_reg s k r)

/-- Settles O52: at the end of the stream the walk has recorded its chunks, and NEXT_OFF is where the last one ended. -/
theorem streamParseDescribesEveryChunk : Obligations.StreamParseDescribesEveryChunk := by
  refine ⟨by decide, fun s n hwf hreach hend => ?_⟩
  have hexec : execStreamParse s = streamDone n (streamEnd s) (s.walked n) := by
    rw [execStreamParse_reaches hreach, streamWalk_atEnd (by omega)]
  have done := withParsed_frame (s.walked n) n (streamEnd s)
  have frame := (walked_frame s n).trans (done.mono (by decide))
  have hdescs := walked_descsWritten hwf hreach.room
  have hnext : (toWord (streamEnd s)).toNat = streamEnd s := toWord_toNat_of_le_bufSize hreach.fits
  refine ⟨_, hexec.trans (streamDone_eq ..), frame.finish_endedOk, ?next, ?count, ?index, ?off,
    descsWritten_of_desc_eq hdescs ?descs, fun k hk => ?last, fun hn r hr => ?empty, frame.finish_sameRegsBut none,
    sameBuf_of_buf_eq ?buf, frame.finish_sameRest none⟩
  case descs => rw [finish_desc, withParsed_desc]
  case next => rw [finish_reg, withParsed_nextOff, hnext, streamEnd]
  case count =>
    rw [State.num, finish_reg, withParsed_chunkCount,
      toWord_toNat (Nat.lt_of_le_of_lt hreach.room s.params.descCap.isLt)]
  case index => rw [finish_reg, withParsed_failIndex]
  case off => rw [finish_reg, withParsed_failOff]
  case last =>
    subst hk
    refine chunkRegs_of_walked hreach fun r hr => ?_
    rw [finish_reg]
    by_cases hnextOff : r = .nextOff
    · rw [hnextOff, withParsed_nextOff, ← hend, walked_succ_reg, writeChunkRegs_nextOff, chunkAt_len, cursor]
    · have apart : ∀ q ∈ chunkRegList, q ≠ .nextOff → q ∉ [.chunkCount, .failIndex, .failOff, .nextOff] := by decide
      exact done.regs r (apart r hr hnextOff)
  case empty =>
    subst hn
    have apart : ∀ q ∈ chunkValueRegs, q ∉ [.chunkCount, .failIndex, .failOff, .nextOff] := by decide
    rw [finish_reg, done.regs r (apart r hr)]
    rfl
  case buf => rw [finish_buf, withParsed_buf, walked_buf]

/-- What a walk that fails at chunk `n` leaves, in the state `u` it had come to (R275, R276). -/
theorem streamFail_outcome {s u : State} {n off : Nat} (e : ErrorKind) (frame : CommandFrame streamRegs s u)
    (hbuf : u.buf = s.buf) (hdescs : DescsWritten n s u) (hn : n ≤ s.descCap) (hoff : off ≤ s.bufSize) :
    ∃ t, streamFail e n off u = .next t ∧ EndedWith (errorCode e) s t ∧ t.reg .chunkCount = 0#32 ∧
      t.num .failIndex = n ∧ t.num .failOff = off ∧ DescsWritten n s t ∧
      (∀ r, r ∈ chunkRegList → t.reg r = u.reg r) ∧ SameRegsBut streamRegs s t ∧ SameBuf s t ∧ SameRest s t := by
  have fail := withFailure_frame u n off
  have frame' := frame.trans (fail.mono (by decide))
  refine ⟨_, streamFail_eq .., frame'.finish_endedWith e, ?count, ?index, ?off, descsWritten_of_desc_eq hdescs rfl,
    fun r hr => ?regs, frame'.finish_sameRegsBut (some e), sameBuf_of_buf_eq hbuf, frame'.finish_sameRest (some e)⟩
  case count => rw [finish_reg, withFailure_chunkCount]
  case index =>
    rw [State.num, finish_reg, withFailure_failIndex, toWord_toNat (Nat.lt_of_le_of_lt hn s.params.descCap.isLt)]
  case off => rw [State.num, finish_reg, withFailure_failOff, toWord_toNat_of_le_bufSize hoff]
  case regs =>
    have apart : ∀ q ∈ chunkRegList, q ∉ [.chunkCount, .failIndex, .failOff] := by decide
    exact fail.regs r (apart r hr)

/-- The failures of the walk at chunk `n` (R275, R340): CRC_MISMATCH shows the failing chunk, and the other errors
leave the registers of the chunk before it. -/
theorem execStreamParse_fails {s : State} {n off : Nat} {code : BitVec 4} (hreach : WalkReaches s n)
    (hoff : off = cursor s.buf (firstChunk s) n) (hbelow : off < streamEnd s)
    (hbad : n = s.descCap ∧ code = 10#4 ∨
      n < s.descCap ∧ ChunkUnreadable s off (streamEnd s) code ∨
      n < s.descCap ∧ ChunkFits s off (streamEnd s) ∧ storedCrcAt s.buf off ≠ computedCrcAt s.buf off ∧ code = 3#4) :
    (∃ e, errorCode e = code ∧ code ≠ 3#4 ∧ execStreamParse s = streamFail e n off (s.walked n)) ∨
      ChunkFits s off (streamEnd s) ∧ code = 3#4 ∧
        execStreamParse s = streamFail .crcMismatch n off (writeChunkRegs off (chunkAt s.buf off) (s.walked n)) := by
  have hwindow : off + (streamEnd s - off) = streamEnd s := by omega
  have hparse := parseChunk_congr (walked_frame s n).cfg (walked_buf s n) off (streamEnd s - off)
  rw [execStreamParse_reaches hreach, ← hoff]
  obtain ⟨hfull, rfl⟩ | ⟨hfree, hunreadable⟩ | ⟨hfree, hfits, hcrc, rfl⟩ := hbad
  · exact .inl ⟨.descOverflow, rfl, by decide, by rw [hfull, Nat.sub_self, streamWalk_full hbelow]⟩
  · rw [← hwindow] at hunreadable
    obtain ⟨e, he, hanswer⟩ := parseChunk_of_chunkUnreadable hunreadable
    refine .inl ⟨e, he, ?_, streamWalk_unreadable (by omega) hbelow (hparse.trans hanswer)⟩
    obtain ⟨-, rfl⟩ | ⟨-, -, rfl⟩ | ⟨-, -, -, rfl⟩ := hunreadable <;> decide
  · have hanswer := parseChunk_of_crcMismatch (hwindow.symm ▸ hfits) hcrc
    exact .inr ⟨hfits, rfl, streamWalk_bad (by omega) hbelow (hparse.trans hanswer)⟩

/-- Settles O54: the walk fails at the chunk, in the state that it had come to or that shows the failing chunk. -/
theorem streamParseFailsAtTheFirstBadChunk : Obligations.StreamParseFailsAtTheFirstBadChunk := by
  intro s n off code hwf hreach hoff hbelow hbad
  have hsize : off ≤ s.bufSize := Nat.le_trans hbelow.le hreach.fits
  have hdescs := walked_descsWritten hwf hreach.room
  obtain ⟨e, rfl, hcode, hfail⟩ | ⟨hfits, rfl, hfail⟩ := execStreamParse_fails hreach hoff hbelow hbad
  · obtain ⟨t, hnext, hended, hcount, hindex, hoff', hdescs', hregs, hrest⟩ :=
      streamFail_outcome e (walked_frame s n) (walked_buf s n) hdescs hreach.room hsize
    refine ⟨t, hfail.trans hnext, hended, hcount, hindex, hoff', hdescs', fun h => absurd h hcode,
      fun _ k hk => ?before, fun _ hn => ?first, hrest⟩
    case before =>
      subst hk
      exact chunkRegs_of_walked hreach hregs
    case first =>
      subst hn
      exact hregs
  · have frame := (walked_frame s n).trans
      ((writeChunkRegs_frame off (chunkAt s.buf off) (s.walked n)).mono chunkRegList_subset)
    obtain ⟨t, hnext, hended, hcount, hindex, hoff', hdescs', hregs, hrest⟩ :=
      streamFail_outcome .crcMismatch frame ((writeChunkRegs_buf ..).trans (walked_buf s n))
        (descsWritten_of_desc_eq hdescs (writeChunkRegs_desc ..)) hreach.room hsize
    have hwhole : off + 12 + lenAt s.buf off ≤ (s.walked n).bufSize := by
      rw [walked_bufSize]
      exact Nat.le_trans hfits.1 hreach.fits
    exact ⟨t, hfail.trans hnext, hended, hcount, hindex, hoff', hdescs',
      fun _ => chunkRegs_of_writeChunkRegs hwhole hregs, fun h => absurd rfl h, fun h => absurd rfl h, hrest⟩

end Sys2Proof.Machine
end

section
/-!
PROOFS. What holds of every answer of STREAM_PARSE (43_container.md R276, R277), and the round trip of a generated
stream (R278).
-/
namespace Sys2Proof.Machine
open Sys2Proof.Claims

/-! ### The answers of STREAM_PARSE -/

/-- The states STREAM_PARSE can end in (R275): RANGE, a failure, or a walk over chunks that reach the end of the
stream. -/
inductive StreamAnswer (s : State) : State → Prop
  | range : StreamAnswer s (s.finish (some .range))
  | failed (e : ErrorKind) (k off : Nat) (u : State) : StreamAnswer s ((u.withFailure k off).finish (some e))
  | parsed (is : List ChunkInfo) (hsig : SigPresent s) (hroom : is.length ≤ s.descCap)
      (hend : endOff (firstChunk s) is = streamEnd s) (hfits : streamEnd s ≤ s.bufSize) :
      StreamAnswer s (((recordAll 0 (firstChunk s) is s).withParsed is.length (streamEnd s)).finish none)

theorem streamAnswer_of_exec {s t : State} (h : exec .streamParse s = .next t) : StreamAnswer s t := by
  replace h : execStreamParse s = .next t := h
  by_cases hfits : s.num .src + s.num .len ≤ s.bufSize
  · by_cases hsig : SigPresent s
    · have hlen := hsig.1
      have hoff : firstChunk s ≤ streamEnd s := by rw [firstChunk, streamEnd]; omega
      obtain ⟨is, -, hroom, hend⟩ := streamWalk_cases (streamEnd s) s.descCap 0 (firstChunk s) s hoff
      rw [execStreamParse_sig hfits hsig] at h
      rw [h] at hend
      generalize hanswer : Host.Outcome.next t = answer at hend
      cases hend with
      | done hlast =>
        rw [Nat.zero_add, streamDone_eq] at hanswer
        cases hanswer
        exact .parsed is hsig hroom hlast hfits
      | full => cases hanswer; exact .failed ..
      | bad => cases hanswer; exact .failed ..
      | unreadable => cases hanswer; exact .failed ..
    · rw [execStreamParse_noSig hfits hsig] at h
      cases h
      exact .failed ..
  · rw [execStreamParse_range (by omega)] at h
    cases h
    exact .range

/-- Settles O55: every failure but RANGE clears CHUNK_COUNT, and a search over no descriptors finds none. -/
theorem failedParseLeavesNoContainer : Obligations.FailedParseLeavesNoContainer := by
  intro s t h herr hcode
  have hcount : t.reg .chunkCount = 0#32 := by
    cases streamAnswer_of_exec h with
    | range => exact absurd rfl hcode
    | failed e k off u => rw [finish_reg, withFailure_chunkCount]
    | parsed => cases herr
  refine ⟨hcount, fun w => ?_⟩
  have hnone : (t.setReg .type w).num .chunkCount = 0 := by simp [State.num, hcount]
  have hfind := exec_findType_of_none (s := t.setReg .type w) (by rw [hnone]; rfl)
  obtain ⟨u, hnext, hindex, hok, -⟩ := completes_of_exec_eq_setReg hfind
  exact ⟨u, hnext, hindex, hok.err⟩

/-- Settles O56: each descriptor holds the cursor of its chunk, and the cursors lead to the end of the stream by at
least 12 bytes each. -/
theorem successfulWalkTilesTheStream : Obligations.SuccessfulWalkTilesTheStream := by
  intro s t hwf h herr
  cases streamAnswer_of_exec h with
  | range => cases herr
  | failed => cases herr
  | parsed is hsig hroom hend hfits =>
    have hcount :
        ((recordAll 0 (firstChunk s) is s).withParsed is.length (streamEnd s)).num .chunkCount = is.length := by
      rw [State.num, withParsed_chunkCount, toWord_toNat (Nat.lt_of_le_of_lt hroom s.params.descCap.isLt)]
    have hword : endOff (firstChunk s) is < 2 ^ 32 := hend ▸ Nat.lt_of_le_of_lt hfits s.params.bufSize.isLt
    have hcursor (k : Nat) (hk : k < is.length) := recordAll_desc_cursor hwf hroom hword hk
    have htwelve := le_endOff (firstChunk s) is
    have hlen := hsig.1
    rw [hend, firstChunk, streamEnd] at htwelve
    rw [finish_num, hcount, finish_desc, withParsed_desc]
    refine ⟨hlen, ?bound, hroom, fun hpos => ?first, fun k hk => ?next, fun hzero => ?empty⟩
    case bound => rw [Nat.le_div_iff_mul_le (by decide)]; omega
    case first => rw [(hcursor 0 hpos).1, List.take_zero, endOff, firstChunk]
    case next =>
      rw [(hcursor k hk).2]
      split
      · next hk' => rw [(hcursor (k + 1) hk').1]
      · next hlast => rw [List.take_of_length_le (by omega), hend, streamEnd]
    case empty =>
      rw [List.length_eq_zero_iff.mp hzero, endOff, firstChunk, streamEnd] at hend
      omega

/-! ### A generated stream -/

/-- The on-wire chunks of `cs`, one after the other (R278). -/
def wireBytes (cs : List (Word × List Byte)) : List Byte := cs.flatMap fun c => chunkBytes c.1 c.2

theorem wireBytes_length (cs : List (Word × List Byte)) :
    (wireBytes cs).length = (cs.map (fun c => 12 + c.2.length)).sum := by
  simp only [wireBytes, List.length_flatMap, chunkBytes_length]

/-- The bytes before chunk `j`, its own, and those after it. -/
theorem wireBytes_split (cs : List (Word × List Byte)) {j : Nat} (hj : j < cs.length) :
    wireBytes cs = wireBytes (cs.take j) ++ (chunkBytes cs[j].1 cs[j].2 ++ wireBytes (cs.drop (j + 1))) := by
  conv_lhs => rw [← List.take_append_drop j cs, List.drop_eq_getElem_cons hj]
  simp only [wireBytes, List.flatMap_append, List.flatMap_cons]

theorem wireBytes_take_length_le (cs : List (Word × List Byte)) (j : Nat) :
    (wireBytes (cs.take j)).length ≤ (wireBytes cs).length := by
  conv_rhs => rw [← List.take_append_drop j cs]
  simp only [wireBytes, List.flatMap_append, List.length_append]
  exact Nat.le_add_right ..

section
variable {m : Memory} {off : Nat} {cs : List (Word × List Byte)} (hholds : HoldsAt m off (wireBytes cs))
  (hword : (wireBytes cs).length < 2 ^ 32)
include hholds hword

theorem holdsChunk_of_wireBytes {j : Nat} (hj : j < cs.length) :
    HoldsChunk m (off + (wireBytes (cs.take j)).length) cs[j].1 cs[j].2 := by
  rw [wireBytes_split cs hj] at hholds hword
  rw [holdsAt_append, holdsAt_append] at hholds
  rw [List.length_append, List.length_append, chunkBytes_length] at hword
  exact holdsChunk_of_holdsAt hholds.2.1 (by omega)

/-- The walk comes to each chunk where the bytes before it end. -/
theorem cursor_of_wireBytes {j : Nat} (hj : j ≤ cs.length) :
    cursor m off j = off + (wireBytes (cs.take j)).length := by
  induction j with
  | zero => rfl
  | succ j ih =>
    have hchunk := holdsChunk_of_wireBytes hholds hword hj
    rw [cursor, ih (Nat.le_of_succ_le hj), hchunk.len, ← List.take_append_getElem hj]
    simp only [wireBytes, List.flatMap_append, List.flatMap_cons, List.flatMap_nil, List.append_nil, List.length_append,
      chunkBytes_length]
    omega

end

/-- Settles O57: the walk passes each chunk generated, so the parse succeeds at the end of the window with their
descriptors. -/
theorem generatedStreamParses : Obligations.GeneratedStreamParses := by
  intro s cs hwf hfits hlen hholds hroom hlimit
  have hlen' : s.num .len = 8 + (wireBytes cs).length := by rw [hlen, List.length_append]; rfl
  obtain ⟨hsig, hwire⟩ := holdsAt_append.mp hholds
  replace hwire : HoldsAt s.buf (firstChunk s) (wireBytes cs) := hwire
  have hword : (wireBytes cs).length < 2 ^ 32 := by
    have hsize := s.params.bufSize.isLt
    have hbuf : s.bufSize = s.params.bufSize.toNat := rfl
    omega
  have hcursor {j : Nat} (hj : j ≤ cs.length) := cursor_of_wireBytes hwire hword hj
  have hend : cursor s.buf (firstChunk s) cs.length = streamEnd s := by
    rw [hcursor le_rfl, List.take_length, firstChunk, streamEnd, hlen']
    omega
  have hchunk {j : Nat} (hj : j < cs.length) :
      HoldsChunk s.buf (cursor s.buf (firstChunk s) j) cs[j].1 cs[j].2 := by
    rw [hcursor hj.le]
    exact holdsChunk_of_wireBytes hwire hword hj
  have hreach : WalkReaches s cs.length :=
    { fits := hfits
      sig := ⟨by omega, hsig⟩
      room := hroom
      good := fun j hj => by
        have hnext := hcursor (j := j + 1) hj
        have hinside := wireBytes_take_length_le cs (j + 1)
        rw [cursor, (hchunk hj).len] at hnext
        refine (hchunk hj).good ?_ fun ⟨hstrict, hlong⟩ => ?_
        · rw [hnext, firstChunk, streamEnd, hlen']
          omega
        · exact absurd (hlimit hstrict cs[j] (List.getElem_mem hj)) (Nat.not_lt.mpr hlong) }
  obtain ⟨t, hnext, hok, -, hcount, -, -, hdescs, -⟩ := streamParseDescribesEveryChunk.2 s cs.length hwf hreach hend
  refine ⟨t, hnext, hok, hcount, fun j hj => ?_⟩
  rw [hdescs.1 j hj, descOf, (hchunk hj).len, (hchunk hj).type, (hchunk hj).stored, hcursor hj.le, wireBytes_length,
    firstChunk]

end Sys2Proof.Machine
end

section
/-!
PROOFS. A command's outcome depends on its operands alone (30_encoding.md R134): on two states that agree on them it
makes the same updates and ends alike.
-/
namespace Sys2Proof.Machine
open Sys2Proof.Claims

/-! ### The same updates in two runs -/

/-- `s'` and `u'` come from `s` and `u` by the same updates, within the sizes of `s`. -/
inductive SameUpdates (s u : State) : State → State → Prop
  | refl : SameUpdates s u s u
  | setReg {s' u' : State} (h : SameUpdates s u s' u') (r : StoreReg) (v : Word) :
      SameUpdates s u (s'.setReg r v) (u'.setReg r v)
  | writeBuf {s' u' : State} (h : SameUpdates s u s' u') (off : Nat) (bs : List Byte)
      (hfits : off + bs.length ≤ s.bufSize) : SameUpdates s u (s'.writeBuf off bs) (u'.writeBuf off bs)
  | writeDesc {s' u' : State} (h : SameUpdates s u s' u') (k : Nat) (e : Desc) (hk : k < s.descCap) :
      SameUpdates s u (s'.writeDesc k e) (u'.writeDesc k e)

namespace SameUpdates
variable {s u s' u' : State}

theorem reg (h : SameUpdates s u s' u') (r : StoreReg) : SameOutcome (s.reg r) (u.reg r) (s'.reg r) (u'.reg r) := by
  induction h with
  | refl => exact .inr ⟨rfl, rfl⟩
  | setReg _ q v ih =>
    rw [setReg_reg, setReg_reg]
    by_cases hr : r = q
    · rw [if_pos hr, if_pos hr]; exact .inl rfl
    · rw [if_neg hr, if_neg hr]; exact ih
  | writeBuf _ _ _ _ ih => exact ih
  | writeDesc _ _ _ _ ih => exact ih

/-- A write leaves both buffers in canonical form, equal where it wrote and as they were elsewhere. -/
theorem buf (h : SameUpdates s u s' u') (hs : s.buf.wf s.bufSize = true) (hu : u.buf.wf s.bufSize = true) :
    s'.buf.wf s.bufSize = true ∧ u'.buf.wf s.bufSize = true ∧
      ∀ a, SameOutcome (byteAt s.buf a) (byteAt u.buf a) (byteAt s'.buf a) (byteAt u'.buf a) := by
  induction h with
  | refl => exact ⟨hs, hu, fun _ => .inr ⟨rfl, rfl⟩⟩
  | setReg _ _ _ ih => exact ih
  | writeDesc _ _ _ _ ih => exact ih
  | writeBuf _ off bs hfits ih =>
    obtain ⟨hs', hu', hbytes⟩ := ih
    refine ⟨memWrite_wf _ _ _ _ hs' hfits, memWrite_wf _ _ _ _ hu' hfits, fun a => ?_⟩
    rw [writeBuf_buf, writeBuf_buf]
    by_cases ha : off ≤ a ∧ a < off + bs.length
    · exact .inl (byteAt_memWrite_both s.bufSize _ _ off bs hu' hs' hfits a ha.1 ha.2)
    · rw [byteAt_memWrite_outside _ _ _ a (by omega), byteAt_memWrite_outside _ _ _ a (by omega)]
      exact hbytes a

/-- A descriptor written is the same in both tables, and the others are as they were. -/
theorem desc (h : SameUpdates s u s' u') (hs : s.desc.wf s.descCap = true) (hu : u.desc.wf s.descCap = true) :
    s'.desc.wf s.descCap = true ∧ u'.desc.wf s.descCap = true ∧
      ∀ k, SameOutcome (descAt s.desc k) (descAt u.desc k) (descAt s'.desc k) (descAt u'.desc k) := by
  induction h with
  | refl => exact ⟨hs, hu, fun _ => .inr ⟨rfl, rfl⟩⟩
  | setReg _ _ _ ih => exact ih
  | writeBuf _ _ _ _ ih => exact ih
  | writeDesc _ j e hj ih =>
    obtain ⟨hs', hu', hdescs⟩ := ih
    refine ⟨setDesc_wf _ _ j e hj hs', setDesc_wf _ _ j e hj hu', fun k => ?_⟩
    rw [writeDesc_desc, writeDesc_desc]
    by_cases hk : k = j
    · rw [hk, descAt_setDesc_self _ _ j e hs', descAt_setDesc_self _ _ j e hu']
      exact .inl rfl
    · rw [descAt_setDesc_ne _ _ _ _ hk, descAt_setDesc_ne _ _ _ _ hk]
      exact hdescs k

theorem writeChunkRegs (h : SameUpdates s u s' u') (base : Nat) (i : ChunkInfo) :
    SameUpdates s u (writeChunkRegs base i s') (writeChunkRegs base i u') :=
  ((((h.setReg ..).setReg ..).setReg ..).setReg ..).setReg ..

theorem recordChunk (h : SameUpdates s u s' u') {k : Nat} (off : Nat) (i : ChunkInfo) (hk : k < s.descCap) :
    SameUpdates s u (recordChunk k off i s') (recordChunk k off i u') :=
  (h.writeChunkRegs off i).writeDesc k _ hk

end SameUpdates

/-- Two runs end with the same error or none, after the same updates. -/
def SameEnds (s u : State) (a b : Answer) : Prop :=
  ∃ s' u' e, a = .next (s'.finish e) ∧ b = .next (u'.finish e) ∧ SameUpdates s u s' u'

section
variable {s u s' u' : State} (h : SameUpdates s u s' u')
include h

theorem SameUpdates.complete : SameEnds s u (complete s') (complete u') := ⟨s', u', .none, rfl, rfl, h⟩

theorem SameUpdates.raise (e : ErrorKind) : SameEnds s u (raise e s') (raise e u') := ⟨s', u', some e, rfl, rfl, h⟩

theorem SameUpdates.streamFail (e : ErrorKind) (k off : Nat) :
    SameEnds s u (streamFail e k off s') (streamFail e k off u') :=
  (((h.setReg ..).setReg ..).setReg ..).raise e

theorem SameUpdates.streamDone (k stop : Nat) : SameEnds s u (streamDone k stop s') (streamDone k stop u') :=
  ((((h.setReg ..).setReg ..).setReg ..).setReg ..).complete

end

/-! ### What a command reads -/

section
variable {i : Instr} {s u : State} (h : AgreeOnOperands i s u)
include h

theorem agree_num {r : StoreReg} (hr : r ∈ readsRegs i) : u.num r = s.num r := congrArg BitVec.toNat (h.regs r hr)

theorem agree_fits (off n : Nat) : u.fits off n = s.fits off n := by
  rw [State.fits, State.bufSize, h.params, State.fits, State.bufSize]

theorem agree_overLimit (hi : readsCfg i = true) (n : Nat) : u.overLimit n = s.overLimit n := by
  rw [State.overLimit, h.cfg hi, State.overLimit]

theorem agree_srcFits (hsrc : .src ∈ readsRegs i) (hlen : .len ∈ readsRegs i) : u.srcFits = s.srcFits := by
  rw [State.srcFits, agree_fits h, agree_num h hsrc, agree_num h hlen, State.srcFits]

/-- A read within the window gives the same bytes. -/
theorem agree_memRead (hi : readsWindow i = true) {off n : Nat} (hlo : s.num .src ≤ off)
    (hhi : off + n ≤ s.num .src + s.num .len) : memRead u.buf off n = memRead s.buf off n :=
  memRead_congr _ _ off n fun a ha hb => h.window hi a (by omega) (by omega)

theorem agree_window (hi : readsWindow i = true) (hsrc : .src ∈ readsRegs i) (hlen : .len ∈ readsRegs i) :
    u.window = s.window := by
  rw [State.window, agree_num h hsrc, agree_num h hlen, agree_memRead h hi le_rfl le_rfl, State.window]

end

/-! ### The commands -/

section
variable {s u : State}

theorem execCrcUpdate_sameEnds (h : AgreeOnOperands .crcUpdate s u) :
    SameEnds s u (execCrcUpdate s) (execCrcUpdate u) := by
  rw [execCrcUpdate, execCrcUpdate, agree_srcFits h (by decide) (by decide), h.regs .crcAcc (by decide),
    agree_window h rfl (by decide) (by decide)]
  split
  · exact (SameUpdates.refl.setReg ..).complete
  · exact SameUpdates.refl.raise _

theorem execCrcFinal_sameEnds (h : AgreeOnOperands .crcFinal s u) :
    SameEnds s u (execCrcFinal s) (execCrcFinal u) := by
  rw [execCrcFinal, execCrcFinal, h.regs .crcAcc (by decide)]
  exact (SameUpdates.refl.setReg ..).complete

theorem execCrcBlock_sameEnds (h : AgreeOnOperands .crcBlock s u) :
    SameEnds s u (execCrcBlock s) (execCrcBlock u) := by
  rw [execCrcBlock, execCrcBlock, agree_srcFits h (by decide) (by decide),
    agree_window h rfl (by decide) (by decide)]
  split
  · exact (SameUpdates.refl.setReg ..).complete
  · exact SameUpdates.refl.raise _

theorem execCrcChunk_sameEnds (h : AgreeOnOperands .crcChunk s u) :
    SameEnds s u (execCrcChunk s) (execCrcChunk u) := by
  rw [execCrcChunk, execCrcChunk, agree_srcFits h (by decide) (by decide), h.regs .type (by decide),
    agree_window h rfl (by decide) (by decide)]
  split
  · exact (SameUpdates.refl.setReg ..).complete
  · exact SameUpdates.refl.raise _

theorem execTypeFromText_sameEnds (h : AgreeOnOperands .typeFromText s u) :
    SameEnds s u (execTypeFromText s) (execTypeFromText u) := by
  rw [execTypeFromText, execTypeFromText, agree_srcFits h (by decide) (by decide), agree_num h (r := .src) (by decide),
    agree_num h (r := .len) (by decide)]
  split
  · split
    · next hlen =>
      rw [agree_memRead h rfl le_rfl (by omega)]
      split
      · exact (SameUpdates.refl.setReg ..).complete
      · exact SameUpdates.refl.raise _
    · exact SameUpdates.refl.raise _
  · exact SameUpdates.refl.raise _

theorem execChunkEmit_sameEnds (h : AgreeOnOperands .chunkEmit s u) :
    SameEnds s u (execChunkEmit s) (execChunkEmit u) := by
  rw [execChunkEmit, execChunkEmit, agree_overLimit h rfl, agree_srcFits h (by decide) (by decide),
    agree_fits h, agree_num h (r := .dst) (by decide), agree_num h (r := .len) (by decide), h.regs .type (by decide),
    agree_window h rfl (by decide) (by decide)]
  split
  · exact SameUpdates.refl.raise _
  · split
    · split
      · next hdst =>
        have hfits : s.num .dst + (chunkBytes (s.reg .type) s.window).length ≤ s.bufSize := by
          rw [chunkBytes_length, window_length]
          exact (fits_iff ..).mp hdst
        exact (((SameUpdates.refl.writeBuf _ _ hfits).setReg ..).setReg ..).complete
      · exact SameUpdates.refl.raise _
    · exact SameUpdates.refl.raise _

theorem execSigEmit_sameEnds (h : AgreeOnOperands .sigEmit s u) :
    SameEnds s u (execSigEmit s) (execSigEmit u) := by
  rw [execSigEmit, execSigEmit, agree_fits h, agree_num h (r := .dst) (by decide)]
  split
  · next hdst => exact ((SameUpdates.refl.writeBuf _ _ ((fits_iff ..).mp hdst)).setReg ..).complete
  · exact SameUpdates.refl.raise _

theorem execChunkParse_sameEnds (h : AgreeOnOperands .chunkParse s u) :
    SameEnds s u (execChunkParse s) (execChunkParse u) := by
  have hparse : parseChunk u (s.num .src) (s.num .len) = parseChunk s (s.num .src) (s.num .len) :=
    parseChunk_window (h.cfg rfl) (h.window rfl)
  rw [execChunkParse, execChunkParse, agree_srcFits h (by decide) (by decide), agree_num h (r := .src) (by decide),
    agree_num h (r := .len) (by decide), hparse]
  split
  · cases parseChunk s (s.num .src) (s.num .len) with
    | ok i => exact (SameUpdates.refl.writeChunkRegs ..).complete
    | err e info =>
      cases info with
      | some i => exact (SameUpdates.refl.writeChunkRegs ..).raise e
      | none => exact SameUpdates.refl.raise e
  · exact SameUpdates.refl.raise _

/-- A walk goes alike on two states that show it the same bytes and the same STRICT_LEN (R275). -/
theorem streamWalk_sameEnds {stop room k off : Nat} {s' u' : State} (h : SameUpdates s u s' u')
    (hcfg : u'.cfg.strictLen = s'.cfg.strictLen)
    (hbytes : ∀ a, off ≤ a → a < stop → byteAt u'.buf a = byteAt s'.buf a) (hroom : k + room ≤ s.descCap) :
    SameEnds s u (streamWalk stop room k off s') (streamWalk stop room k off u') := by
  induction room generalizing k off s' u' with
  | zero =>
    rw [streamWalk, streamWalk]
    split
    · exact h.streamFail ..
    · exact h.streamDone ..
  | succ room ih =>
    rw [streamWalk, streamWalk]
    split
    · next hbelow =>
      rw [parseChunk_window hcfg fun a ha hb => hbytes a ha (by omega)]
      cases parseChunk s' off (stop - off) with
      | ok i =>
        refine ih (h.recordChunk off i (by omega)) ?_ (fun a ha hb => ?_) (by omega)
        · rw [recordChunk_cfg, recordChunk_cfg, hcfg]
        · rw [recordChunk_buf, recordChunk_buf]
          exact hbytes a (by omega) hb
      | err e info =>
        cases info with
        | some i => exact (h.writeChunkRegs off i).streamFail ..
        | none => exact h.streamFail ..
    · exact h.streamDone ..

theorem execStreamParse_sameEnds (h : AgreeOnOperands .streamParse s u) :
    SameEnds s u (execStreamParse s) (execStreamParse u) := by
  have hsrc := agree_num h (r := .src) (by decide)
  have hlen := agree_num h (r := .len) (by decide)
  have hsig : (s.num .len < 8 ∨ memRead u.buf (s.num .src) 8 ≠ sigBytes) ↔
      (s.num .len < 8 ∨ memRead s.buf (s.num .src) 8 ≠ sigBytes) := by
    refine or_congr_right' fun hlong => ?_
    rw [agree_memRead h rfl le_rfl (by omega)]
  have hcap : u.descCap = s.descCap := congrArg (·.descCap.toNat) h.params
  rw [execStreamParse, execStreamParse, agree_srcFits h (by decide) (by decide), hsrc, hlen, hcap]
  simp only [hsig]
  split
  · split
    · exact SameUpdates.refl.streamFail ..
    · exact streamWalk_sameEnds .refl (h.cfg rfl) (fun a ha => h.window rfl a (by omega)) (by omega)
  · exact SameUpdates.refl.raise _

theorem findFrom_congr {tbl tbl' : DescTable} {t : Word} {i n : Nat}
    (h : ∀ k, k < i + n → (descAt tbl' k).type = (descAt tbl k).type) : findFrom tbl' t i n = findFrom tbl t i n := by
  induction n generalizing i with
  | zero => rfl
  | succ n ih => rw [findFrom, findFrom, h i (by omega), ih fun k hk => h k (by omega)]

theorem execFindType_sameEnds (h : AgreeOnOperands .findType s u) :
    SameEnds s u (execFindType s) (execFindType u) := by
  have hfind : findFrom u.desc (s.reg .type) 0 (s.num .chunkCount) =
      findFrom s.desc (s.reg .type) 0 (s.num .chunkCount) := findFrom_congr fun k hk => h.table rfl k (by omega)
  rw [execFindType, execFindType, h.regs .type (by decide), agree_num h (r := .chunkCount) (by decide), hfind]
  cases findFrom s.desc (s.reg .type) 0 (s.num .chunkCount) with
  | some i => exact (SameUpdates.refl.setReg ..).complete
  | none => exact (SameUpdates.refl.setReg ..).complete

theorem exec_sameEnds {i : Instr} (h : AgreeOnOperands i s u) : SameEnds s u (exec i s) (exec i u) := by
  cases i with
  | nop => exact SameUpdates.refl.complete
  | crcInit => exact (SameUpdates.refl.setReg ..).complete
  | crcUpdate => exact execCrcUpdate_sameEnds h
  | crcFinal => exact execCrcFinal_sameEnds h
  | crcBlock => exact execCrcBlock_sameEnds h
  | crcChunk => exact execCrcChunk_sameEnds h
  | typeFromText => exact execTypeFromText_sameEnds h
  | chunkEmit => exact execChunkEmit_sameEnds h
  | chunkParse => exact execChunkParse_sameEnds h
  | sigEmit => exact execSigEmit_sameEnds h
  | streamParse => exact execStreamParse_sameEnds h
  | findType => exact execFindType_sameEnds h

end

theorem completed_err_congr (t t' : Status) (e : Option ErrorKind) :
    (t'.completed e).err = (t.completed e).err ∧ (t'.completed e).errCode = (t.completed e).errCode := by
  cases e <;> exact ⟨rfl, rfl⟩

/-- Settles O31: the two runs end with the same error after the same updates, so what an update wrote is equal in both
and the rest is as it was. -/
theorem commandsDependOnTheirOperandsOnly : Obligations.CommandsDependOnTheirOperandsOnly := by
  intro i s u t v hagree ht hv
  obtain ⟨s', u', e, hs, hu, hsame⟩ := exec_sameEnds hagree
  rw [hs] at ht
  rw [hu] at hv
  cases ht
  cases hv
  have hbuf : u.bufSize = s.bufSize := congrArg (·.bufSize.toNat) hagree.params
  have hcap : u.descCap = s.descCap := congrArg (·.descCap.toNat) hagree.params
  obtain ⟨herr, hcode⟩ := completed_err_congr s'.status u'.status e
  refine ⟨herr, hcode, fun r _ => hsame.reg r, fun hswf huwf => ?buf, fun hswf huwf => ?desc⟩
  case buf =>
    rw [hbuf] at huwf
    exact (hsame.buf hswf huwf).2.2
  case desc =>
    rw [hcap] at huwf
    exact (hsame.desc hswf huwf).2.2

end Sys2Proof.Machine
end

section
/-!
PROOFS. The statements of host programs as bus accesses (30_encoding.md R150, R151).
-/
namespace Sys2Proof.Machine
open Sys2Proof.Claims

/-! ### Addresses -/

theorem regOffset_eq_nameOffset (r : Reg) : regOffset r = nameOffset r := by
  cases r with
  | store q => cases q <;> rfl
  | _ => rfl

/-- Each address expression stands for the address that R150 writes. -/
theorem locAddr_eq (a : Loc) : locAddr a = BitVec.ofNat 32 (addressOf a) := by
  cases a with
  | reg r => rw [locAddr, regOffset_eq_nameOffset, addressOf]
  | buf n => rfl
  | desc i j => cases j <;> rfl
  | num a => rw [locAddr, addressOf, BitVec.ofNat_toNat, BitVec.setWidth_eq]

theorem nameOffset_lt (r : Reg) : nameOffset r < 0x58 := by
  cases r with
  | store q => cases q <;> decide
  | _ => decide

theorem addressOf_lt {a : Loc} (h : a.wellFormed = true) : addressOf a < 2 ^ 32 := by
  cases a with
  | reg r =>
    have := nameOffset_lt r
    rw [addressOf]
    omega
  | buf n =>
    have hn : n < 0x80000000 := of_decide_eq_true h
    rw [addressOf]
    omega
  | desc i j =>
    have hi : i < 65536 := of_decide_eq_true h
    cases j <;> rw [addressOf] <;> omega
  | num a => exact a.isLt

theorem writeOp_eq (a : Loc) (w : Width) (v : Word) : writeOp a w v = busWrite (addressOf a) w v := by
  rw [writeOp, locAddr_eq, busWrite]

theorem readOp_eq (a : Loc) (w : Width) : readOp a w = busRead (addressOf a) w := by
  rw [readOp, locAddr_eq, busRead]

/-! ### `put` -/

/-- Byte `i` of a `put` is written to `buf+N+i` (R151). -/
theorem putOps_eq_mapIdx (n : Nat) (bytes : List Byte) :
    putOps n bytes = bytes.mapIdx fun i b => busWrite (0x80000000 + (n + i)) .w1 (b.setWidth 32) := by
  induction bytes generalizing n with
  | nil => rfl
  | cons b bytes ih =>
    have hshift : ∀ i, n + 1 + i = n + (i + 1) := by omega
    rw [putOps, ih, List.mapIdx_cons, writeOp_eq]
    simp only [hshift]
    rfl

theorem asciiByte_setWidth {c : Char} (h : c.toNat < 128) : (asciiByte c).setWidth 32 = BitVec.ofNat 32 c.toNat := by
  apply BitVec.eq_of_toNat_eq
  have hbyte : c.toNat < 2 ^ 8 := by omega
  rw [asciiByte, BitVec.toNat_setWidth, BitVec.toNat_ofNat, BitVec.toNat_ofNat, Nat.mod_eq_of_lt hbyte]

theorem putOps_text (n : Nat) {text : List Char} (h : ∀ c, c ∈ text → c.toNat < 128) :
    putOps n (text.map asciiByte) =
      text.mapIdx fun i c => busWrite (0x80000000 + (n + i)) .w1 (BitVec.ofNat 32 c.toNat) := by
  rw [putOps_eq_mapIdx]
  apply List.ext_getElem
  · simp only [List.length_mapIdx, List.length_map]
  · intro i _ hi
    have hmem : text[i]'(by simpa using hi) ∈ text := List.getElem_mem _
    simp only [List.getElem_mapIdx, List.getElem_map, asciiByte_setWidth (h _ hmem)]

/-- Settles O59: each statement is a list of accesses at the addresses of R150, and a program is their sequence. -/
theorem hostStatementsExpand : Obligations.HostStatementsExpand := by
  refine ⟨fun a v => ?writes, fun a => ?reads, fun a => addressOf_lt, fun i => ?command, rfl, ?clear,
    fun n bytes => putOps_eq_mapIdx n bytes, fun n text h => putOps_text n h, fun st prog => List.flatMap_cons, rfl⟩
  case writes => simp only [expandStmt, writeOp_eq, and_self]
  case reads => simp only [expandStmt, readOp_eq, and_self]
  case command =>
    simp only [expandStmt, cmdOp, writeOp_eq]
    exact ⟨rfl, rfl⟩
  case clear =>
    simp only [expandStmt, writeOp_eq]
    rfl

end Sys2Proof.Machine
end
